-- ==== Sys2Proof/Word.lean ====
section
/-! DEFINITION. The 32-bit word of the block and the byte of its byte view
(spec/00_scope.md R9: a command word and a data word are 32 bits; spec/20_memory.md R65). -/

namespace Sys2Proof

/-- A command word, a data word, a buffer word, or the 32 bits of a binary32 register (R9, R65). -/
abbrev Word := BitVec 32

/-- One byte of the little-endian byte view of a word (R65). -/
abbrev Byte := BitVec 8

end Sys2Proof
end

