-- ==== Sys2Proof/Syntax.lean ====
section
/-! DEFINITION. The commands of the block: one constructor per row of spec/opcode_table.json
(spec/30_encoding.md R85). Operands are those of R83: a register number (SEL) and an unsigned integer (IMM)
are natural numbers, whose field widths `Instr.wellFormed` checks; a command that reads the data word
(R84) carries it. -/

namespace Sys2Proof

/-- A gate flag (spec/10_state.md R22). -/
inductive GateFlag
  | low | high | falling | rising
  deriving DecidableEq, Repr

/-- The 21 commands (R85). -/
inductive Instr
  /-- NOP (R238). -/
  | nop
  /-- WRP: write the parameter register numbered `reg` with the binary32 value `wdata` (R230). -/
  | wrp (reg : Nat) (wdata : Word)
  /-- SETOM: set the output mode from a code (R234). -/
  | setom (mode : Nat)
  /-- SETRM: set the ramp mode from a code (R235). -/
  | setrm (mode : Nat)
  /-- SETRG: set the frequency range from a code (R236). -/
  | setrg (range : Nat)
  /-- CLKC: connect (true) or disconnect the clock input (R233). -/
  | clkc (connected : Bool)
  /-- INIT: initialize at the sample rate `wdata` (R237). -/
  | init (wdata : Word)
  /-- SRATE: change the sample rate to `wdata` (R231). -/
  | srate (wdata : Word)
  /-- BSIZE: change the block size (R232). -/
  | bsize (size : Nat)
  /-- XINIT: initialize the extractor with the recovery time `wdata` (R140). -/
  | xinit (wdata : Word)
  /-- GRST: reset the generator (R192). -/
  | grst
  /-- XRST: reset the extractor (R142). -/
  | xrst
  /-- QRST: reset the quantizer's hysteresis (R125). -/
  | qrst
  /-- CLRST: clear the STATUS bits of a mask (R239). -/
  | clrst (mask : BitVec 5)
  /-- STEP: process the frame of an index (R190). -/
  | step (frame : Nat)
  /-- RENDER: process a block of a size (R191). -/
  | render (size : Nat)
  /-- GEDET: evaluate the edge function (R103). -/
  | gedet (prev : GateFlag) (cur : Bool)
  /-- QUANT: run the quantizer on `wdata` (R124). -/
  | quant (wdata : Word)
  /-- WRIN: write `wdata` to a word of IBUF (R240). -/
  | wrin (addr : Nat) (wdata : Word)
  /-- RDOUT: read a word of OBUF (R241). -/
  | rdout (addr : Nat)
  /-- RDREG: read the register numbered `reg` (R242). -/
  | rdreg (reg : Nat)
  deriving DecidableEq, Repr

end Sys2Proof
end

