-- ==== Sys2Proof/WellFormed.lean ====
section
/-! DEFINITION. A command is well-formed when its operands fit the fields of the one command format
(spec/30_encoding.md R82): a register number fits SEL[7:0], an unsigned immediate fits IMM[15:0]. A gate
flag, a bit and a mask fit their fields by their types. Register numbers and immediates that a command's own
rule refuses (BAD_INDEX, BAD_ARG, BAD_ADDR, BLOCK_MISMATCH) are well-formed: the block decodes them and then
raises (R86). -/

namespace Sys2Proof

/-- The operands fit SEL and IMM (R82). -/
def Instr.wellFormed : Instr → Bool
  | .nop => true
  | .wrp reg _ => decide (reg < 256)
  | .setom mode => decide (mode < 65536)
  | .setrm mode => decide (mode < 65536)
  | .setrg range => decide (range < 65536)
  | .clkc _ => true
  | .init _ => true
  | .srate _ => true
  | .bsize size => decide (size < 65536)
  | .xinit _ => true
  | .grst => true
  | .xrst => true
  | .qrst => true
  | .clrst _ => true
  | .step frame => decide (frame < 65536)
  | .render size => decide (size < 65536)
  | .gedet _ _ => true
  | .quant _ => true
  | .wrin addr _ => decide (addr < 65536)
  | .rdout addr => decide (addr < 65536)
  | .rdreg reg => decide (reg < 256)

end Sys2Proof
end

