-- ==== Sys2Proof/Decode.lean ====
section
/-! DEFINITION. From a command word and its data word to a command, and back (spec/30_encoding.md R82 to
R88). `decode` is total and rejects by name, in the order of R86; every rejection is the block's ILLEGAL.
`encode` is written from the same opcode table. -/

namespace Sys2Proof

/-! Gate flag codes (spec/10_state.md R22). -/

/-- Bit 0 the level, bit 1 the edge (R22). -/
def GateFlag.code : GateFlag → Nat
  | .low => 0
  | .high => 1
  | .falling => 2
  | .rising => 3

/-- The flag of a 2-bit code; only the low two bits of `n` count (R22, R83). -/
def GateFlag.ofCode (n : Nat) : GateFlag :=
  match n % 4 with
  | 0 => .low
  | 1 => .high
  | 2 => .falling
  | _ => .rising

/-! The opcode map (R85). -/

/-- The 21 opcodes by name. -/
inductive Opcode
  | nop | wrp | setom | setrm | setrg | clkc | init | srate | bsize | xinit | grst | xrst | qrst | clrst
  | step | render | gedet | quant | wrin | rdout | rdreg
  deriving DecidableEq, Repr

/-- The OP byte of each opcode (R85). -/
def Opcode.code : Opcode → Nat
  | .nop => 0x00
  | .wrp => 0x01
  | .setom => 0x02
  | .setrm => 0x03
  | .setrg => 0x04
  | .clkc => 0x05
  | .init => 0x08
  | .srate => 0x09
  | .bsize => 0x0A
  | .xinit => 0x0B
  | .grst => 0x0C
  | .xrst => 0x0D
  | .qrst => 0x0E
  | .clrst => 0x0F
  | .step => 0x10
  | .render => 0x11
  | .gedet => 0x20
  | .quant => 0x21
  | .wrin => 0x30
  | .rdout => 0x31
  | .rdreg => 0x32

/-- Every opcode, once. -/
def Opcode.all : List Opcode :=
  [.nop, .wrp, .setom, .setrm, .setrg, .clkc, .init, .srate, .bsize, .xinit, .grst, .xrst, .qrst, .clrst]
    ++ [.step, .render, .gedet, .quant, .wrin, .rdout, .rdreg]

/-- The opcode of an OP byte; none for a reserved one (R87). -/
def Opcode.ofCode (op : Nat) : Option Opcode :=
  Opcode.all.find? (fun o => o.code == op)

/-- Whether the command uses SEL (R82: only WRP and RDREG do). -/
def Opcode.usesSel : Opcode → Bool
  | .wrp | .rdreg => true
  | .nop | .setom | .setrm | .setrg | .clkc | .init | .srate | .bsize | .xinit | .grst | .xrst | .qrst
  | .clrst | .step | .render | .gedet | .quant | .wrin | .rdout => false

/-- How many low bits of IMM the command uses; the others must be 0 (R85, R86). -/
def Opcode.immBits : Opcode → Nat
  | .nop | .wrp | .init | .srate | .xinit | .grst | .xrst | .qrst | .quant | .rdreg => 0
  | .clkc => 1
  | .gedet => 3
  | .clrst => 5
  | .setom | .setrm | .setrg | .bsize | .step | .render | .wrin | .rdout => 16

/-! Fields of the command word (R82). -/

/-- OP, bits 31:24. -/
def opField (cmd : Word) : Nat := (cmd.extractLsb' 24 8).toNat
/-- SEL, bits 23:16. -/
def selField (cmd : Word) : Nat := (cmd.extractLsb' 16 8).toNat
/-- IMM, bits 15:0. -/
def immField (cmd : Word) : Nat := (cmd.extractLsb' 0 16).toNat

/-- Why a command word is ILLEGAL, in the order of R86. -/
inductive DecodeError
  /-- The OP byte is reserved (R87). -/
  | reservedOpcode (op : Nat)
  /-- SEL is not 0 and the command does not use it. -/
  | selNotZero (sel : Nat)
  /-- IMM has a 1 in a bit the command does not use. -/
  | immNotZero (imm : Nat)
  deriving DecidableEq, Repr

/-- The command of an opcode and its fields, once R86's checks have passed. -/
def Opcode.build (op : Opcode) (sel imm : Nat) (wdata : Word) : Instr :=
  match op with
  | .nop => .nop
  | .wrp => .wrp sel wdata
  | .setom => .setom imm
  | .setrm => .setrm imm
  | .setrg => .setrg imm
  | .clkc => .clkc (imm == 1)
  | .init => .init wdata
  | .srate => .srate wdata
  | .bsize => .bsize imm
  | .xinit => .xinit wdata
  | .grst => .grst
  | .xrst => .xrst
  | .qrst => .qrst
  | .clrst => .clrst (BitVec.ofNat 5 imm)
  | .step => .step imm
  | .render => .render imm
  | .gedet => .gedet (GateFlag.ofCode imm) (imm / 4 % 2 == 1)
  | .quant => .quant wdata
  | .wrin => .wrin imm wdata
  | .rdout => .rdout imm
  | .rdreg => .rdreg sel

/-- The decoder of R86. -/
def decode (cmd wdata : Word) : Except DecodeError Instr :=
  match Opcode.ofCode (opField cmd) with
  | none => .error (.reservedOpcode (opField cmd))
  | some op =>
    if selField cmd ≠ 0 ∧ op.usesSel = false then .error (.selNotZero (selField cmd))
    else if 2 ^ op.immBits ≤ immField cmd then .error (.immNotZero (immField cmd))
    else .ok (op.build (selField cmd) (immField cmd) wdata)

/-! The encoder. -/

/-- The opcode of a command (R85). -/
def Instr.opcode : Instr → Opcode
  | .nop => .nop
  | .wrp _ _ => .wrp
  | .setom _ => .setom
  | .setrm _ => .setrm
  | .setrg _ => .setrg
  | .clkc _ => .clkc
  | .init _ => .init
  | .srate _ => .srate
  | .bsize _ => .bsize
  | .xinit _ => .xinit
  | .grst => .grst
  | .xrst => .xrst
  | .qrst => .qrst
  | .clrst _ => .clrst
  | .step _ => .step
  | .render _ => .render
  | .gedet _ _ => .gedet
  | .quant _ => .quant
  | .wrin _ _ => .wrin
  | .rdout _ => .rdout
  | .rdreg _ => .rdreg

/-- What a command puts into SEL (R85): 0 for a command that does not use it. -/
def Instr.selOperand : Instr → Nat
  | .wrp reg _ => reg
  | .rdreg reg => reg
  | .nop | .setom _ | .setrm _ | .setrg _ | .clkc _ | .init _ | .srate _ | .bsize _ | .xinit _ | .grst
  | .xrst | .qrst | .clrst _ | .step _ | .render _ | .gedet _ _ | .quant _ | .wrin _ _ | .rdout _ => 0

/-- What a command puts into IMM (R85): 0 for a command that takes none. -/
def Instr.immOperand : Instr → Nat
  | .setom n | .setrm n | .setrg n | .bsize n | .step n | .render n | .wrin n _ | .rdout n => n
  | .clkc c => c.toNat
  | .clrst mask => mask.toNat
  | .gedet prev cur => prev.code + 4 * cur.toNat
  | .nop | .wrp _ _ | .init _ | .srate _ | .xinit _ | .grst | .xrst | .qrst | .quant _ | .rdreg _ => 0

/-- The data word a command needs (R84); 0 for a command that ignores it. -/
def Instr.dataWord : Instr → Word
  | .wrp _ w | .init w | .srate w | .xinit w | .quant w | .wrin _ w => w
  | .nop | .setom _ | .setrm _ | .setrg _ | .clkc _ | .bsize _ | .grst | .xrst | .qrst | .clrst _ | .step _
  | .render _ | .gedet _ _ | .rdout _ | .rdreg _ => 0#32

/-- The command word OP, SEL, IMM of the one format (R82). -/
def commandWord (op sel imm : Nat) : Word :=
  BitVec.ofNat 8 op ++ BitVec.ofNat 8 sel ++ BitVec.ofNat 16 imm

/-- The command word and the data word of a command. -/
def encode (i : Instr) : Word × Word :=
  (commandWord i.opcode.code i.selOperand i.immOperand, i.dataWord)

/-! The byte view (spec/20_memory.md R65): little-endian, byte 0 is bits 7:0. -/

/-- The word of four bytes, the first the lowest (R65). -/
def wordOfBytes (b0 b1 b2 b3 : Byte) : Word := b3 ++ b2 ++ b1 ++ b0

/-- Byte `k` of a word (R65). -/
def byteOfWord (w : Word) (k : Nat) : Byte := w.extractLsb' (8 * k) 8

/-- What a run of bytes of a serial link holds first: a command, an illegal command, or too few bytes. R65 names such
a link and gives the byte order inside a word; the framing is the model's choice (log entry 18, DESIGN CHOICE). -/
inductive ByteDecode
  | truncated
  | illegal (e : DecodeError) (rest : List Byte)
  | command (i : Instr) (rest : List Byte)
  deriving DecidableEq, Repr

/-- Decode the first eight bytes, each word little-endian (R65). That the command word comes before its data word,
and that every command sends all eight bytes, is the model's choice (log entry 18, DESIGN CHOICE): the spec gives no
order of the two words on a link. -/
def decodeBytes : List Byte → ByteDecode
  | c0 :: c1 :: c2 :: c3 :: d0 :: d1 :: d2 :: d3 :: rest =>
    match decode (wordOfBytes c0 c1 c2 c3) (wordOfBytes d0 d1 d2 d3) with
    | .ok i => .command i rest
    | .error e => .illegal e rest
  | _ => .truncated

/-- The command that `nbits` bits `w`, numbered as spec/opcode_table.json numbers them, hold: bits 31:0 are the
command word and bits 63:32 the data word; bits from `nbits` up are 0 (log entry 9). -/
def decodeTableWord (nbits w : Nat) : Option Instr :=
  (decode (BitVec.ofNat 32 (w % 2 ^ nbits)) (BitVec.ofNat 32 (w % 2 ^ nbits / 2 ^ 32))).toOption

end Sys2Proof
end

