-- ==== Sys2Proof/Config.lean ====
section
/-! DEFINITION. The fixed parameters of spec/00_scope.md R7 (binary32 values by their bits), the reference
value of the open parameter REF_HZ (R8), and the free values: constants with no body, of which nothing in
Lean can prove a value. -/

namespace Sys2Proof.Config

/-! Fixed parameters (R7). -/

/-- `BLOCK_MAX`, the largest block in frames (R7). -/
abbrev blockMax : Nat := 1024
/-- Words of IBUF: two per frame (spec/20_memory.md R60). -/
abbrev ibufWords : Nat := 2048
/-- Words of OBUF: four per frame (spec/20_memory.md R60). -/
abbrev obufWords : Nat := 4096
/-- `C_MAX` = 2^24, where the extractor's counter saturates (R7). -/
abbrev cMax : Nat := 16777216
/-- `BS_DEFAULT`, in frames (R7). -/
abbrev bsDefault : Nat := 64

/-! Binary32 constants (R7; the bits are the IEEE 754 layout of R65). -/

/-- 0.0. -/
abbrev f0 : Word := 0x00000000#32
/-- 0.25 = 0.5 - H (spec/41_ratio_quantizer.md R121). -/
abbrev fQuarter : Word := 0x3E800000#32
/-- 0.5. -/
abbrev fHalf : Word := 0x3F000000#32
/-- 0.75 = 0.5 + H (spec/41_ratio_quantizer.md R121). -/
abbrev fThreeQuarters : Word := 0x3F400000#32
/-- 1.0. -/
abbrev f1 : Word := 0x3F800000#32
/-- 2.0. -/
abbrev f2 : Word := 0x40000000#32
/-- 12.0, the semitones of an octave (spec/43_slope_generator.md R171). -/
abbrev f12 : Word := 0x41400000#32
/-- 19.0 = N - 1 (spec/41_ratio_quantizer.md R121). -/
abbrev f19 : Word := 0x41980000#32
/-- `TRIG_TH` = 1.0. -/
abbrev trigTh : Word := f1
/-- `F_EPS` = 2^-24 cycles per sample. -/
abbrev fEps : Word := 0x33800000#32
/-- `F_MAX` = 0.5 cycles per sample. -/
abbrev fMax : Word := fHalf
/-- `FREQ_MIN` = -120.0 semitones. -/
abbrev freqMin : Word := 0xC2F00000#32
/-- `FREQ_MAX` = +120.0 semitones. -/
abbrev freqMax : Word := 0x42F00000#32
/-- `RANGE_MULT[0]` = 2^-6. -/
abbrev rangeSub : Word := 0x3C800000#32
/-- `RANGE_MULT[1]` = 1.0. -/
abbrev rangeAudio : Word := f1
/-- `RANGE_MULT[2]` = 8.0. -/
abbrev rangeHigh : Word := 0x41000000#32
/-- `TR_DEFAULT`, the binary32 nearest 0.1 s. -/
abbrev trDefault : Word := 0x3DCCCCCD#32
/-- `TR_MAX` = 10.0 s. -/
abbrev trMax : Word := 0x41200000#32
/-- `SMOOTH_K` = 8.0. -/
abbrev smoothK : Word := 0x41000000#32
/-- `SR_DEFAULT` = 48000.0 Hz. -/
abbrev srDefault : Word := 0x473B8000#32
/-- `SR_MIN` = 1000.0 Hz. -/
abbrev srMin : Word := 0x447A0000#32
/-- `SR_MAX` = 768000.0 Hz. -/
abbrev srMax : Word := 0x493B8000#32
/-- X_RECS after reset, fl(TR_DEFAULT * SR_DEFAULT) = 4800.0 (spec/70_reset_and_hazards.md R290). -/
abbrev xRecsDefault : Word := 0x45960000#32
/-- The reference value of the open parameter REF_HZ (R8; spec/90_conflicts.md C7). -/
abbrev refHzReference : Word := 0x4382D014#32

/-! Free values. Each is a constant with no body. -/

/-- FREE VALUE (log entry 4): a raw value of an EXP2 that is not the reference one, for each choice `id`
and argument. `F32.settledExp2` gives it the properties of R16. -/
opaque exp2Raw (id : Nat) (x : Word) : Word

/-- FREE VALUE (log entry 7): the bits IEEE 754 leaves open in the NaN that an operation on `a` and `b`
gives. -/
opaque nanPayload (a b : Word) : Word

/-- FREE VALUE (log entry 5): the byte that byte address `a` of IBUF holds since power-on while nothing has
written it (spec/20_memory.md R63), for each seed. -/
opaque ibufPowerOn (seed a : Nat) : Byte

/-- FREE VALUE (log entry 5): the same for OBUF (spec/20_memory.md R63). -/
opaque obufPowerOn (seed a : Nat) : Byte

end Sys2Proof.Config
end

