-- ==== Sys2Proof/Machine/Float.lean ====
section
/-! DEFINITION. IEEE 754 binary32 on words (spec/00_scope.md R13 to R15): exact integer arithmetic in units of
2^-149 (the least subnormal), narrowed once by rounding to nearest, ties to even. -/

namespace Sys2Proof.Machine.F32

/-- The magnitude bits 30:0 of infinity; a NaN has greater ones (R65). -/
abbrev infMag : Nat := 0x7F800000

/-- The sign bit (R65: bit 31). -/
def sign (x : Word) : Bool := decide (2 ^ 31 ≤ x.toNat)

/-- Bits 30:0, the biased exponent and the fraction (R65). -/
def mag (x : Word) : Nat := x.toNat % 2 ^ 31

def isNaN (x : Word) : Bool := decide (infMag < mag x)
def isInf (x : Word) : Bool := mag x == infMag
def isFinite (x : Word) : Bool := decide (mag x < infMag)

/-- The value, in units of 2^-149, of magnitude bits: a subnormal is its fraction, a normal number with biased
exponent e is (2^23 + fraction) * 2^(e-1). -/
def magVal (b : Nat) : Nat :=
  if b / 2 ^ 23 = 0 then b else (2 ^ 23 + b % 2 ^ 23) * 2 ^ (b / 2 ^ 23 - 1)

/-- The value of a finite word in units of 2^-149. (Of an infinity it is ±2^277, which keeps the order; of a NaN
it means nothing.) -/
def val (x : Word) : Int := if sign x then -(magVal (mag x) : Int) else (magVal (mag x) : Int)

/-- `a / b` rounded to the nearest integer, ties to even (R13). -/
def rne (a b : Nat) : Nat :=
  if 2 * (a % b) < b then a / b
  else if b < 2 * (a % b) then a / b + 1
  else a / b + a / b % 2

/-- How many low bits of the quotient `num / den` lie below a 24-bit significand. -/
def excess (num den : Nat) : Nat := Nat.log2 (num / den) - 23

/-- The magnitude bits nearest `num / den` units, ties to even, the exponent unbounded above: a significand
of 24 bits, or the subnormal grid. A significand that rounds up to 2^24 carries into the exponent. -/
def roundMag (num den : Nat) : Nat :=
  excess num den * 2 ^ 23 + rne num (den * 2 ^ excess num den)

/-- A sign and magnitude bits, a magnitude above the largest finite one becoming infinity (R13: IEEE 754
overflow under round-to-nearest). -/
def pack (neg : Bool) (m : Nat) : Word :=
  BitVec.ofNat 32 ((if neg then 2 ^ 31 else 0) + min m infMag)

/-- The binary32 nearest `n / den` units, ties to even; `zeroNeg` is the sign of an exact zero. -/
def round (n : Int) (den : Nat) (zeroNeg : Bool) : Word :=
  if n = 0 then pack zeroNeg 0 else pack (decide (n < 0)) (roundMag n.natAbs den)

/-- A NaN as the result of an operation on `a` and `b`: a quiet NaN whose sign and payload are a free value (log
entry 7). -/
def nan (a b : Word) : Word := 0x7FC00000#32 ||| (Config.nanPayload a b &&& 0x803FFFFF#32)

/-- `-x`: the sign bit flips (adding 2^31 modulo 2^32 flips bit 31 and keeps the others). -/
def neg (x : Word) : Word := x + 0x80000000#32

/-- `a + b` (R13). An exact zero sum is +0 unless both operands are negative. -/
def add (a b : Word) : Word :=
  if isNaN a || isNaN b then nan a b
  else if isInf a then (if isInf b && sign a != sign b then nan a b else a)
  else if isInf b then b
  else round (val a + val b) 1 (sign a && sign b)

/-- `a - b` (R13). -/
def sub (a b : Word) : Word := add a (neg b)

/-- `a * b` (R13). -/
def mul (a b : Word) : Word :=
  if isNaN a || isNaN b then nan a b
  else if isInf a || isInf b then
    (if mag a == 0 || mag b == 0 then nan a b else pack (sign a != sign b) infMag)
  else round (val a * val b) (2 ^ 149) (sign a != sign b)

/-- `a / b` (R13). -/
def div (a b : Word) : Word :=
  if isNaN a || isNaN b then nan a b
  else if isInf a then (if isInf b then nan a b else pack (sign a != sign b) infMag)
  else if isInf b then pack (sign a != sign b) 0
  else if mag b == 0 then
    (if mag a == 0 then nan a b else pack (sign a != sign b) infMag)
  else round (val a * 2 ^ 149 * (val b).sign) (val b).natAbs (sign a != sign b)

/-- The order of the non-NaN words as integers: the magnitude bits, negated under the sign, so +0 and -0 are
equal. -/
def key (x : Word) : Int := if sign x then -(mag x : Int) else (mag x : Int)

/-- `a < b`, false when either is a NaN (R14). -/
def lt (a b : Word) : Bool := !isNaN a && !isNaN b && decide (key a < key b)
/-- `a <= b`, false when either is a NaN (R14). -/
def le (a b : Word) : Bool := !isNaN a && !isNaN b && decide (key a ≤ key b)

/-- `clamp(x, lo, hi)` (R14): a NaN stays as it is. -/
def clamp (x lo hi : Word) : Word := if lt x lo then lo else if lt hi x then hi else x

/-- `sanitize(x, lo, hi, dflt)` (R15). -/
def sanitize (x lo hi dflt : Word) : Word := if isNaN x then dflt else clamp x lo hi

/-- `int2f(n)` (R14), exact for n up to 2^24. -/
def int2f (n : Nat) : Word := round (n * 2 ^ 149) 1 false

/-- `floor(t)` (spec/00_scope.md R11) of a finite word: the largest integer not above it. -/
def floor (t : Word) : Int := val t / 2 ^ 149

/-- `lo <= x <= hi`; false for a NaN. -/
def within (lo hi x : Word) : Bool := le lo x && le x hi

end Sys2Proof.Machine.F32
end

