-- ==== Sys2Proof/Machine/State.lean ====
section
/-! DEFINITION. Everything the spec gives the machine, as plain data (spec/10_state.md R24, spec/20_memory.md
R60, spec/30_encoding.md R80), the block's error conditions, and the state right after hardware reset
(spec/70_reset_and_hazards.md R290). -/

namespace Sys2Proof.Machine

/-! The values of the mode registers (spec/10_state.md R23). An illegal code has no value here, so R25's
"every register holds only its legal values" holds of them by their types (log entry 12). -/

/-- OMODE and PREV_OM. -/
inductive OutMode
  | gates | amplitude | slopePhase | frequency
  deriving DecidableEq, Repr

/-- RMODE. -/
inductive RampMode
  | looping | ar | loopSync
  deriving DecidableEq, Repr

/-- RANGE. -/
inductive FreqRange
  | subAudio | audio | highAudio
  deriving DecidableEq, Repr

/-- The five error conditions (spec/60_exceptions.md R270). -/
inductive ErrorKind
  | illegal | badIndex | badArg | badAddr | blockMismatch
  deriving DecidableEq, Repr

/-- The parameter registers, written by WRP (spec/10_state.md R24, R26); each is binary32. -/
structure ParamRegs where
  /-- FREQ, 0x01. -/
  freq : Word
  /-- SLOPE, 0x02. -/
  slope : Word
  /-- SHAPE, 0x03. -/
  shape : Word
  /-- SMOOTH, 0x04. -/
  smooth : Word
  /-- SHIFT, 0x05. -/
  shift : Word
  /-- RATIO_IN, 0x06. -/
  ratioIn : Word
  deriving DecidableEq, Repr

/-- The generator registers that GRST clears (spec/10_state.md R30, spec/43_slope_generator.md R192). -/
structure GenRegs where
  /-- G_PHASE, 0x10, binary32. -/
  phase : Word
  /-- G_ACTIVE, 0x11. -/
  active : Bool
  /-- G_EOCP, 0x12. -/
  eocp : Bool
  /-- G_Y, 0x13, binary32. -/
  y : Word
  deriving DecidableEq, Repr

/-- The extractor registers that XRST clears (spec/10_state.md R33, spec/42_ramp_extractor.md R142). -/
structure ExtRegs where
  /-- X_PHASE, 0x18, binary32. -/
  phase : Word
  /-- X_PERIOD, 0x19, binary32. -/
  period : Word
  /-- X_COUNT, 0x1A, a 25-bit count that saturates at 2^24. -/
  count : Nat
  /-- X_EDGE, 0x1B. -/
  edge : Bool
  /-- X_HASP, 0x1C. -/
  hasp : Bool
  /-- X_ACTIVE, 0x1D. -/
  active : Bool
  /-- X_EOCP, 0x1E. -/
  eocp : Bool
  /-- X_QCOUNT, 0x1F, a 4-bit count. -/
  qcount : Nat
  deriving DecidableEq, Repr

/-- Which function the open parameter EXP2 is (spec/00_scope.md R8, R16; log entry 4). -/
inductive Exp2Choice
  /-- The reference value: the correctly rounded 2^x. -/
  | reference
  /-- Any other function with the properties of R16, as a free value. -/
  | free (id : Nat)
  deriving DecidableEq, Repr

/-- The model's own fields: the block's open parameters and the seed of its free power-on contents. No command
changes them. -/
structure OpenParams where
  /-- REF_HZ, binary32 (spec/00_scope.md R8; log entry 3). -/
  refHz : Word
  /-- EXP2 (spec/00_scope.md R8, R16; log entry 4). -/
  exp2 : Exp2Choice
  /-- The seed of the buffers' unspecified contents (spec/20_memory.md R63; log entry 5). -/
  powerOn : Nat
  deriving DecidableEq, Repr

/-- A response of the command port (spec/30_encoding.md R80). -/
structure Response where
  /-- The result word, 0 where there is none or the command raised. -/
  rdata : Word
  /-- True exactly when the command raised an error. -/
  err : Bool
  deriving DecidableEq, Repr

/-- What the host does to the block: issue a command with its data word (spec/30_encoding.md R80), or assert the
external reset input (spec/70_reset_and_hazards.md R290; log entry 10). -/
inductive HostInput
  | command (cmd wdata : Word)
  | hardwareReset
  deriving DecidableEq, Repr

/-- A buffer: the bytes written since power-on, at the byte addresses of the little-endian byte view
(spec/20_memory.md R65: byte k of word a is at 4 a + k), strictly rising (log entry 6). -/
abbrev Memory := List Host.Cell

/-- The whole state. -/
structure State where
  /-- The open parameters (the model's own field). -/
  params : OpenParams
  /-- STATUS, 0x00: bits 4:0; bits 31:5 read 0 (spec/60_exceptions.md R270). -/
  status : BitVec 5
  /-- FREQ to RATIO_IN, 0x01 to 0x06. -/
  par : ParamRegs
  /-- OMODE, 0x07. -/
  omode : OutMode
  /-- RMODE, 0x08. -/
  rmode : RampMode
  /-- RANGE, 0x09. -/
  range : FreqRange
  /-- SR, 0x0A, binary32, Hz. -/
  sr : Word
  /-- BS, 0x0B, an 11-bit count. -/
  bs : Nat
  /-- CLKCONN, 0x0C. -/
  clkConn : Bool
  /-- TR, 0x0D, binary32, seconds. -/
  tr : Word
  /-- MUST_RESET, 0x0E. -/
  mustReset : Bool
  /-- PREV_OM, 0x0F. -/
  prevOm : OutMode
  /-- G_PHASE, G_ACTIVE, G_EOCP, G_Y, 0x10 to 0x13. -/
  gen : GenRegs
  /-- TRIG_FLAG, 0x14. -/
  trigFlag : GateFlag
  /-- CLK_FLAG, 0x15. -/
  clkFlag : GateFlag
  /-- F_EFF, 0x16, binary32. -/
  fEff : Word
  /-- X_PHASE to X_QCOUNT, 0x18 to 0x1F. -/
  ext : ExtRegs
  /-- X_RECS, 0x20, binary32, samples. -/
  xRecs : Word
  /-- Q_STATE, 0x21: a table index, or none for NONE (spec/10_state.md R35). -/
  qState : Option (Fin 20)
  /-- IBUF (spec/20_memory.md R60, R61). -/
  ibuf : Memory
  /-- OBUF (spec/20_memory.md R60, R62). -/
  obuf : Memory
  /-- What the host has issued and the block has not yet run, next first (spec/30_encoding.md R81; log entry 1). -/
  pending : List HostInput
  /-- The responses given, the latest first (spec/70_reset_and_hazards.md R300; log entry 2). -/
  responses : List Response
  deriving DecidableEq, Repr

/-- Why the machine stops with a fault: nothing. The spec says that nothing in the block is a fault
(spec/93_implementation_defined.md, the end of Part 1), so no meaning raises one (log entry 14); this is safe and
unsafe of nothing, since no behaviour is cut off. -/
inductive Fault
  deriving DecidableEq, Repr

/-- Why an instruction has no meaning. -/
inductive Refusal
  /-- Raised by an arm of `exec` whose instruction has no meaning yet. Safe: the run stops. No arm raises it. -/
  | notModelled (mnemonic : String)
  deriving DecidableEq, Repr

/-- The generator after GRST (spec/43_slope_generator.md R192). -/
def GenRegs.cleared : GenRegs :=
  { phase := Config.f0, active := false, eocp := false, y := Config.f0 }

/-- The extractor after XRST (spec/42_ramp_extractor.md R142). -/
def ExtRegs.cleared : ExtRegs :=
  { phase := Config.f0, period := Config.f0, count := 0, edge := false, hasp := false, active := false,
    eocp := false, qcount := 0 }

/-- The parameter registers after reset (spec/70_reset_and_hazards.md R290). -/
def ParamRegs.atReset : ParamRegs :=
  { freq := Config.f0, slope := Config.fHalf, shape := Config.fHalf, smooth := Config.fHalf,
    shift := Config.fHalf, ratioIn := Config.fHalf }

/-- The machine right after hardware reset (spec/70_reset_and_hazards.md R290). The buffers list nothing, the
port has nothing pending and has answered nothing, and the open parameters stand at their reference values
(log entries 1 to 5). -/
def State.reset : State :=
  { params := { refHz := Config.refHzReference, exp2 := .reference, powerOn := 0 }
    status := 0#5
    par := ParamRegs.atReset
    omode := .gates
    rmode := .looping
    range := .audio
    sr := Config.srDefault
    bs := Config.bsDefault
    clkConn := false
    tr := Config.trDefault
    mustReset := false
    prevOm := .gates
    gen := GenRegs.cleared
    trigFlag := .low
    clkFlag := .low
    fEff := Config.f0
    ext := ExtRegs.cleared
    xRecs := Config.xRecsDefault
    qState := none
    ibuf := []
    obuf := []
    pending := []
    responses := [] }

end Sys2Proof.Machine
end

