-- ==== Sys2Proof/Machine/Flags.lean ====
section
/-! DEFINITION. The block's flags (spec/10_state.md R37): the threshold test and the edge function of the gate
flags (spec/40_gate_edge_detector.md R100, R101), and the STATUS bits (spec/60_exceptions.md R270). -/

namespace Sys2Proof.Machine

/-- `level(x)`: x >= TRIG_TH, an ordered comparison (R100). -/
def level (x : Word) : Bool := F32.le Config.trigTh x

/-- `edge(prev, cur)` (R101). -/
def edge (prev : GateFlag) (cur : Bool) : GateFlag :=
  match cur, prev with
  | true, .low => .rising
  | true, .falling => .rising
  | true, .high => .high
  | true, .rising => .high
  | false, .high => .falling
  | false, .rising => .falling
  | false, .low => .low
  | false, .falling => .low

/-- The STATUS bit of an error (R270). -/
def ErrorKind.bit : ErrorKind → BitVec 5
  | .illegal => 0b00001#5
  | .badIndex => 0b00010#5
  | .badArg => 0b00100#5
  | .badAddr => 0b01000#5
  | .blockMismatch => 0b10000#5

end Sys2Proof.Machine
end

