-- ==== Sys2Proof/Machine/Ops.lean ====
section
/-! DEFINITION. The named operations over the buffers and the port: reading and writing a word of a buffer
(spec/20_memory.md R60 to R67), answering a command (spec/30_encoding.md R80), raising an error
(spec/00_scope.md R12, spec/60_exceptions.md R270), and hardware reset (spec/70_reset_and_hazards.md R290). -/

namespace Sys2Proof.Machine

/-! Memory: bytes written since power-on, at strictly rising byte addresses. -/

/-- The canonical form: addresses strictly rising. A byte that nothing has written is not listed. -/
abbrev Memory.wf (m : Memory) : Prop := m.Pairwise (fun c d => c.1 < d.1)

/-- Every listed byte address is below a bound. -/
abbrev Memory.below (bound : Nat) (m : Memory) : Prop := ∀ c ∈ m, c.1 < bound

/-- The byte written last at `a`, or none. -/
def Memory.byte? : Memory → Nat → Option Byte
  | [], _ => none
  | (k, v) :: rest, a => if a = k then some v else Memory.byte? rest a

/-- Write the byte at `a`, keeping the addresses rising. -/
def Memory.put : Memory → Nat → Byte → Memory
  | [], a, v => [(a, v)]
  | (k, x) :: rest, a, v =>
    if a < k then (a, v) :: (k, x) :: rest
    else if a = k then (a, v) :: rest
    else (k, x) :: Memory.put rest a v

/-- The byte at `a`: the one written last, else the free one it holds since power-on (R63). -/
def Memory.byte (powerOn : Nat → Byte) (m : Memory) (a : Nat) : Byte :=
  (Memory.byte? m a).getD (powerOn a)

/-- The word at word address `a`, its bytes at 4 a to 4 a + 3, little-endian (R65). -/
def Memory.word (powerOn : Nat → Byte) (m : Memory) (a : Nat) : Word :=
  wordOfBytes (Memory.byte powerOn m (4 * a)) (Memory.byte powerOn m (4 * a + 1))
    (Memory.byte powerOn m (4 * a + 2)) (Memory.byte powerOn m (4 * a + 3))

/-- Write the word at word address `a`, whole (R67). -/
def Memory.putWord (m : Memory) (a : Nat) (w : Word) : Memory :=
  Memory.put (Memory.put (Memory.put (Memory.put m (4 * a) (byteOfWord w 0)) (4 * a + 1) (byteOfWord w 1))
    (4 * a + 2) (byteOfWord w 2)) (4 * a + 3) (byteOfWord w 3)

/-- `IBUF[a]` (R60, R63). -/
def State.ibufWord (s : State) (a : Nat) : Word :=
  Memory.word (Config.ibufPowerOn s.params.powerOn) s.ibuf a

/-- `OBUF[a]` (R60, R63). -/
def State.obufWord (s : State) (a : Nat) : Word :=
  Memory.word (Config.obufPowerOn s.params.powerOn) s.obuf a

/-- `IBUF[a] <- w`. -/
def State.writeIbuf (s : State) (a : Nat) (w : Word) : State :=
  { s with ibuf := Memory.putWord s.ibuf a w }

/-- `OBUF[a] <- w`. -/
def State.writeObuf (s : State) (a : Nat) (w : Word) : State :=
  { s with obuf := Memory.putWord s.obuf a w }

/-! The port. -/

/-- Give the response of a command that did not raise: its result word, err = 0 (spec/30_encoding.md R80). -/
def State.respond (s : State) (rdata : Word) : State :=
  { s with responses := { rdata := rdata, err := false } :: s.responses }

/-- `raise E` (spec/00_scope.md R12, spec/60_exceptions.md R270): the STATUS bit of E is set, the response is
err = 1 with rdata = 0, and nothing else changes. The block has no traps (R278). -/
def State.raise (s : State) (e : ErrorKind) : State :=
  { s with
    status := s.status ||| e.bit
    responses := { rdata := 0#32, err := true } :: s.responses }

/-- Every register of spec/10_state.md R24 takes its reset value; the buffers are not written
(spec/70_reset_and_hazards.md R290). The open parameters and the port are no registers and stay. -/
def State.hardwareReset (s : State) : State :=
  { State.reset with
    params := s.params
    ibuf := s.ibuf
    obuf := s.obuf
    pending := s.pending
    responses := s.responses }

end Sys2Proof.Machine
end

