-- ==== Sys2Proof/Machine/Extractor.lean ====
section
/-! DEFINITION. The Ramp Extractor (spec/42_ramp_extractor.md): XINIT, XRST and the per-frame step `xstep`. -/

namespace Sys2Proof.Machine

/-- What a phase source gives a frame: the phase, the frequency, the end-of-cycle bit and the running bit
(R143, spec/43_slope_generator.md R170 part 3). -/
structure PhaseOut where
  p : Word
  f : Word
  eoc : Bool
  running : Bool
  deriving DecidableEq, Repr

/-- What one advance gives: the phase, the end-of-cycle bit for the next frame, and whether a one-shot goes on. -/
structure Advance where
  phase : Word
  eocp : Bool
  goesOn : Bool
  deriving DecidableEq, Repr

/-- The advance of a looping ramp: it wraps at 1.0 (R149, spec/43_slope_generator.md R176). -/
def wrapAdvance (phase f : Word) : Advance :=
  if F32.le Config.f1 (F32.add phase f) then
    { phase := F32.sub (F32.add phase f) Config.f1, eocp := true, goesOn := true }
  else { phase := F32.add phase f, eocp := false, goesOn := true }

/-- The advance of a running one-shot: it ends and holds at 1.0 (R149, spec/43_slope_generator.md R176). -/
def holdAdvance (phase f : Word) : Advance :=
  if F32.le Config.f1 (F32.add phase f) then { phase := Config.f1, eocp := true, goesOn := false }
  else { phase := F32.add phase f, eocp := false, goesOn := true }

/-- `xreset()` (R142). -/
def State.xreset (s : State) : State := { s with ext := ExtRegs.cleared }

/-- The recovery time in samples, fl(TR * SR) (R140, R141). -/
def recoverySamples (tr sr : Word) : Word := F32.mul tr sr

/-- Part 1 (R144): every frame counts, saturating at C_MAX. -/
def ExtRegs.countFrame (e : ExtRegs) : ExtRegs := { e with count := min (e.count + 1) Config.cMax }

/-- Part 2 (R145): the first rising edge after a reset starts the ramp; no period is known yet. -/
def ExtRegs.firstEdge (e : ExtRegs) (ar : Bool) : ExtRegs :=
  { e with
    edge := true
    phase := Config.f0
    qcount := 0
    active := if ar then true else e.active
    eocp := if ar then false else e.eocp }

/-- Part 3 (R146), the first measured interval: taken whole; the first locked group starts here. -/
def ExtRegs.firstPeriod (e : ExtRegs) (ar : Bool) : ExtRegs :=
  { e with
    period := F32.int2f e.count
    hasp := true
    phase := Config.f0
    qcount := 0
    active := if ar then true else e.active
    eocp := if ar then false else e.eocp }

/-- The filtered period: the estimate moved toward `meas` by the weight meas / (meas + recs) (R146). -/
def filterPeriod (period recs meas : Word) : Word :=
  F32.add period (F32.mul (F32.div meas (F32.add meas recs)) (F32.sub meas period))

/-- Part 3 (R146), a later interval: filter the period, then restart the one-shot, or count the edge and
resync every `sub` edges, or in the audio range do neither (R153). -/
def ExtRegs.nextPeriod (e : ExtRegs) (sub : Nat) (audio ar : Bool) (recs : Word) : ExtRegs :=
  let e1 := { e with period := filterPeriod e.period recs (F32.int2f e.count) }
  if ar then { e1 with phase := Config.f0, active := true, eocp := false }
  else if audio then e1
  else if sub ≤ e.qcount + 1 then { e1 with qcount := 0, phase := Config.f0 }
  else { e1 with qcount := e.qcount + 1 }

/-- Parts 2 and 3 on a rising edge; an edge is either the first or a later one (R145, R146; log entry 8). Then the
interval counter restarts (R146). -/
def ExtRegs.risingEdge (e : ExtRegs) (sub : Nat) (audio ar : Bool) (recs : Word) : ExtRegs :=
  { (if e.edge then (if e.hasp then e.nextPeriod sub audio ar recs else e.firstPeriod ar)
     else e.firstEdge ar) with count := 0 }

/-- Parts 1 to 3: the frame is counted and a rising clock edge is taken. -/
def ExtRegs.measure (e : ExtRegs) (sub : Nat) (audio ar : Bool) (recs : Word) (clk : GateFlag) : ExtRegs :=
  if clk = .rising then e.countFrame.risingEdge sub audio ar recs else e.countFrame

/-- Part 4 (R147): the frequency m / (period * sub), clamped; F_EPS before the period is known. -/
def ExtRegs.frequency (e : ExtRegs) (m : Word) (sub : Nat) : Word :=
  if e.hasp then
    F32.clamp (F32.div m (F32.mul e.period (F32.int2f sub))) Config.fEps Config.fMax
  else Config.fEps

/-- Part 5b (R149): the advance. Before the period is known the phase does not move. -/
def ExtRegs.advance (e : ExtRegs) (ar : Bool) (f : Word) : ExtRegs :=
  if ar then
    if e.active && e.hasp then
      { e with phase := (holdAdvance e.phase f).phase, eocp := (holdAdvance e.phase f).eocp,
               active := (holdAdvance e.phase f).goesOn }
    else { e with eocp := false }
  else if e.hasp then
    { e with phase := (wrapAdvance e.phase f).phase, eocp := (wrapAdvance e.phase f).eocp }
  else { e with eocp := false }

/-- Part 5a (R148): the outputs, read before the advance. -/
def ExtRegs.outputs (e : ExtRegs) (ar : Bool) (f : Word) : PhaseOut :=
  { p := e.phase, f := f, eoc := e.eocp, running := !ar || e.active }

/-- `xstep(m, s, audio, allow_ar)` (R143 to R149): this frame's outputs and the registers after it. `clk` is
CLK_FLAG, already updated for the frame, and `recs` is X_RECS. -/
def xstep (m : Word) (sub : Nat) (audio allowAr : Bool) (clk : GateFlag) (recs : Word) (e : ExtRegs) :
    PhaseOut × ExtRegs :=
  let ar := allowAr && !audio
  let e1 := e.measure sub audio ar recs clk
  let f := e1.frequency m sub
  (e1.outputs ar f, e1.advance ar f)

/-- XINIT (R140). -/
def execXinit (wdata : Word) (s : State) : Host.Outcome State Fault Refusal :=
  if F32.isNaN wdata || F32.lt wdata Config.f0 then .next (s.raise .badArg)
  else
    let tr := F32.clamp wdata Config.f0 Config.trMax
    .next (State.respond (State.xreset { s with tr := tr, xRecs := recoverySamples tr s.sr }) 0#32)

/-- XRST (R142). -/
def execXrst (s : State) : Host.Outcome State Fault Refusal :=
  .next (s.xreset.respond 0#32)

end Sys2Proof.Machine
end

