-- ==== Sys2Proof/Machine/GateEdge.lean ====
section
/-! DEFINITION. The Gate Edge Detector's command (spec/40_gate_edge_detector.md). -/

namespace Sys2Proof.Machine

/-- GEDET (R103): the edge function on given operands; no register is read or written. -/
def execGedet (prev : GateFlag) (cur : Bool) (s : State) : Host.Outcome State Fault Refusal :=
  .next (s.respond (BitVec.ofNat 32 (edge prev cur).code))

end Sys2Proof.Machine
end

