-- ==== Sys2Proof/Machine/Exp2.lean ====
section
/-! DEFINITION. The open parameter EXP2 (spec/00_scope.md R8, R16; log entry 4). The reference value is the
correctly rounded 2^x. Any other EXP2 is made from free values by a search that keeps R16's properties: it is total,
monotone non-decreasing, exactly 2^n at an integer n in [-10, 10], and finite and positive on [-10, 10]. A free
function that has these properties already comes out unchanged. -/

namespace Sys2Proof.Machine.F32

/-- Binary places of the fixed-point evaluation. -/
abbrev expPlaces : Nat := 192

/-- ln 2 in units of 2^-192, rounded down. -/
def ln2Fixed : Nat := 0xb17217f7d1cf79abc9e3b39803f2f6af40f343267298b62d

/-- `terms` further terms of the series of e^t in units of 2^-192: `term` is t^i / i!. -/
def expSeries (t : Nat) : (terms i term : Nat) → Nat
  | 0, _, term => term
  | n + 1, i, term => term + expSeries t n (i + 1) (term * t / 2 ^ expPlaces / (i + 1))

/-- 2^(frac / 2^149) for 0 <= frac < 2^149, in units of 2^-192: exact at 0, else within 2^-180. -/
def exp2Frac (frac : Nat) : Nat :=
  if frac = 0 then 2 ^ expPlaces
  else expSeries (frac * 2 ^ (expPlaces - 149) * ln2Fixed / 2 ^ expPlaces) 50 0 (2 ^ expPlaces)

/-- The correctly rounded 2^x, EXP2's reference value (R8). -/
def exp2Reference (x : Word) : Word :=
  if isNaN x then nan x x
  else if le 0x43000000#32 x then pack false infMag
  else if lt x 0xC3180000#32 then pack false 0
  else
    round (exp2Frac (val x % 2 ^ 149).toNat * 2 ^ (floor x + 152).toNat) (2 ^ (expPlaces + 3)) false

/-- 2^k as a binary32, for -126 <= k <= 127. -/
def pow2 (k : Int) : Word := BitVec.ofNat 32 ((k + 127).toNat * 2 ^ 23)

/-- `ceil(x)` of a finite word. -/
def ceil (x : Word) : Int := -((-(val x)) / 2 ^ 149)

/-- The word of an order key; a key beyond an infinity's gives that infinity. -/
def ofKey (k : Int) : Word := pack (decide (k < 0)) k.natAbs

/-- The least value R16 leaves to EXP2 at `x`, given only the exact values at the integers in [-10, 10]. -/
def exp2Low (x : Word) : Word :=
  if lt x 0xC1200000#32 then pack true infMag
  else if lt 0x41200000#32 x then pow2 10
  else pow2 (floor x)

/-- The greatest such value. -/
def exp2High (x : Word) : Word :=
  if lt x 0xC1200000#32 then pow2 (-10)
  else if lt 0x41200000#32 x then pack false infMag
  else pow2 (ceil x)

/-- Binary search for the key `k` from the key `m`, whose neighbours are 2^(depth - 1) away. Every key met takes its
raw value, sanitized into the bounds, and bounds the keys on its far side in turn; so the value found never falls as
`k` rises. -/
def descend (raw : Word → Word) (k : Int) : (depth : Nat) → (m : Int) → (lo hi : Word) → Word
  | 0, m, lo, hi => sanitize (raw (ofKey m)) lo hi lo
  | depth + 1, m, lo, hi =>
    let v := sanitize (raw (ofKey m)) lo hi lo
    if k = m then v
    else if k < m then descend raw k depth (m - 2 ^ depth) lo v
    else descend raw k depth (m + 2 ^ depth) v hi

/-- The EXP2 that a raw function gives: R16's properties whatever `raw` is, and `raw` itself where it has them. -/
def settledExp2 (raw : Word → Word) (x : Word) : Word :=
  if isNaN x then raw x else descend raw (key x) 31 0 (exp2Low x) (exp2High x)

/-- `EXP2(x)` (R16). -/
def exp2 (c : Exp2Choice) (x : Word) : Word :=
  match c with
  | .reference => exp2Reference x
  | .free id => settledExp2 (Config.exp2Raw id) x

end Sys2Proof.Machine.F32
end

