-- ==== Sys2Proof/Machine/Operands.lean ====
section
/-! DEFINITION. The operand forms (spec/30_encoding.md R83): SEL as a register number
(spec/10_state.md R24), IMM as a mode code (spec/10_state.md R23), and the value WRP stores
(spec/44_host_interface.md R230). -/

namespace Sys2Proof.Machine

/-! Mode codes. -/

/-- The code of an output mode (R23). -/
def OutMode.code : OutMode → Nat
  | .gates => 1
  | .amplitude => 2
  | .slopePhase => 3
  | .frequency => 4

/-- SETOM's code: 1 to 4 as listed, any other gives GATES (spec/44_host_interface.md R234). -/
def OutMode.ofImm (n : Nat) : OutMode :=
  match n with
  | 2 => .amplitude
  | 3 => .slopePhase
  | 4 => .frequency
  | _ => .gates

/-- The code of a ramp mode (R23). -/
def RampMode.code : RampMode → Nat
  | .looping => 0
  | .ar => 1
  | .loopSync => 2

/-- SETRM's code: 0 to 2 as listed, any other gives LOOPING (spec/44_host_interface.md R235). -/
def RampMode.ofImm (n : Nat) : RampMode :=
  match n with
  | 1 => .ar
  | 2 => .loopSync
  | _ => .looping

/-- The code of a range (R23). -/
def FreqRange.code : FreqRange → Nat
  | .subAudio => 0
  | .audio => 1
  | .highAudio => 2

/-- SETRG's code: 0 to 2 as listed, any other gives AUDIO (spec/44_host_interface.md R236). -/
def FreqRange.ofImm (n : Nat) : FreqRange :=
  match n with
  | 0 => .subAudio
  | 2 => .highAudio
  | _ => .audio

/-! Register numbers. -/

/-- The registers of R24 by name. -/
inductive Reg
  | status | freq | slope | shape | smooth | shift | ratioIn | omode | rmode | range | sr | bs | clkConn | tr
  | mustReset | prevOm | gPhase | gActive | gEocp | gY | trigFlag | clkFlag | fEff | xPhase | xPeriod | xCount
  | xEdge | xHasp | xActive | xEocp | xQcount | xRecs | qState
  deriving DecidableEq, Repr

/-- The number RDREG reads each register by (R24). -/
def Reg.sel : Reg → Nat
  | .status => 0x00
  | .freq => 0x01
  | .slope => 0x02
  | .shape => 0x03
  | .smooth => 0x04
  | .shift => 0x05
  | .ratioIn => 0x06
  | .omode => 0x07
  | .rmode => 0x08
  | .range => 0x09
  | .sr => 0x0A
  | .bs => 0x0B
  | .clkConn => 0x0C
  | .tr => 0x0D
  | .mustReset => 0x0E
  | .prevOm => 0x0F
  | .gPhase => 0x10
  | .gActive => 0x11
  | .gEocp => 0x12
  | .gY => 0x13
  | .trigFlag => 0x14
  | .clkFlag => 0x15
  | .fEff => 0x16
  | .xPhase => 0x18
  | .xPeriod => 0x19
  | .xCount => 0x1A
  | .xEdge => 0x1B
  | .xHasp => 0x1C
  | .xActive => 0x1D
  | .xEocp => 0x1E
  | .xQcount => 0x1F
  | .xRecs => 0x20
  | .qState => 0x21

/-- Every register, once. -/
def Reg.all : List Reg :=
  [.status, .freq, .slope, .shape, .smooth, .shift, .ratioIn, .omode, .rmode, .range, .sr, .bs, .clkConn, .tr]
    ++ [.mustReset, .prevOm, .gPhase, .gActive, .gEocp, .gY, .trigFlag, .clkFlag, .fEff, .xPhase, .xPeriod]
    ++ [.xCount, .xEdge, .xHasp, .xActive, .xEocp, .xQcount, .xRecs, .qState]

/-- The register of a number; none for 0x17 and 0x22 to 0xFF (R24, spec/44_host_interface.md R242). -/
def Reg.ofSel (n : Nat) : Option Reg := Reg.all.find? (fun r => r.sel == n)

/-- A bit zero-extended to 32 bits (R11). -/
def zextBool (b : Bool) : Word := BitVec.ofNat 32 b.toNat

/-- What RDREG returns for a register (R24, spec/44_host_interface.md R242): the bits of a binary32 register, an
integer register zero-extended, 0xFFFFFFFF for Q_STATE = NONE. -/
def State.readReg (s : State) : Reg → Word
  | .status => s.status.setWidth 32
  | .freq => s.par.freq
  | .slope => s.par.slope
  | .shape => s.par.shape
  | .smooth => s.par.smooth
  | .shift => s.par.shift
  | .ratioIn => s.par.ratioIn
  | .omode => BitVec.ofNat 32 s.omode.code
  | .rmode => BitVec.ofNat 32 s.rmode.code
  | .range => BitVec.ofNat 32 s.range.code
  | .sr => s.sr
  | .bs => BitVec.ofNat 32 s.bs
  | .clkConn => zextBool s.clkConn
  | .tr => s.tr
  | .mustReset => zextBool s.mustReset
  | .prevOm => BitVec.ofNat 32 s.prevOm.code
  | .gPhase => s.gen.phase
  | .gActive => zextBool s.gen.active
  | .gEocp => zextBool s.gen.eocp
  | .gY => s.gen.y
  | .trigFlag => BitVec.ofNat 32 s.trigFlag.code
  | .clkFlag => BitVec.ofNat 32 s.clkFlag.code
  | .fEff => s.fEff
  | .xPhase => s.ext.phase
  | .xPeriod => s.ext.period
  | .xCount => BitVec.ofNat 32 s.ext.count
  | .xEdge => zextBool s.ext.edge
  | .xHasp => zextBool s.ext.hasp
  | .xActive => zextBool s.ext.active
  | .xEocp => zextBool s.ext.eocp
  | .xQcount => BitVec.ofNat 32 s.ext.qcount
  | .xRecs => s.xRecs
  | .qState =>
    match s.qState with
    | none => 0xFFFFFFFF#32
    | some q => BitVec.ofNat 32 q.val

/-! The parameter registers of WRP (spec/44_host_interface.md R230). -/

/-- The registers WRP writes. -/
inductive ParamReg
  | freq | slope | shape | smooth | shift | ratioIn
  deriving DecidableEq, Repr

/-- The parameter register of a number, 0x01 to 0x06 (R230). -/
def ParamReg.ofSel (n : Nat) : Option ParamReg :=
  match n with
  | 1 => some .freq
  | 2 => some .slope
  | 3 => some .shape
  | 4 => some .smooth
  | 5 => some .shift
  | 6 => some .ratioIn
  | _ => none

/-- A value sanitized into [0, 1] with default 0.5 (R230). -/
def sanitizeUnit (x : Word) : Word := F32.sanitize x Config.f0 Config.f1 Config.fHalf

/-- Store a sanitized value into a parameter register (R230). -/
def ParamRegs.write (p : ParamRegs) (r : ParamReg) (x : Word) : ParamRegs :=
  match r with
  | .freq => { p with freq := F32.sanitize x Config.freqMin Config.freqMax Config.f0 }
  | .slope => { p with slope := sanitizeUnit x }
  | .shape => { p with shape := sanitizeUnit x }
  | .smooth => { p with smooth := sanitizeUnit x }
  | .shift => { p with shift := sanitizeUnit x }
  | .ratioIn => { p with ratioIn := sanitizeUnit x }

end Sys2Proof.Machine
end

