-- ==== Sys2Proof/Machine/Quantizer.lean ====
section
/-! DEFINITION. The Ratio Quantizer (spec/41_ratio_quantizer.md): the ratio table, the lookup with hysteresis,
QUANT and QRST. -/

namespace Sys2Proof.Machine

/-- An entry (m, s) of the ratio table: a binary32 multiplier and a subdivision (R120). -/
structure Ratio where
  m : Word
  s : Nat
  deriving DecidableEq, Repr

/-- RATIO_TABLE (R120). The multipliers are 1.0, 2.0, 3.0, 4.0, 5.0, 6.0, 8.0 and 16.0. -/
def ratioTable : Vector Ratio 20 :=
  #v[⟨0x3F800000#32, 16⟩, ⟨0x3F800000#32, 8⟩, ⟨0x3F800000#32, 6⟩, ⟨0x3F800000#32, 4⟩, ⟨0x3F800000#32, 3⟩,
    ⟨0x3F800000#32, 2⟩, ⟨0x40000000#32, 3⟩, ⟨0x40400000#32, 4⟩, ⟨0x40800000#32, 5⟩, ⟨0x3F800000#32, 1⟩,
    ⟨0x3F800000#32, 1⟩, ⟨0x40A00000#32, 4⟩, ⟨0x40800000#32, 3⟩, ⟨0x40400000#32, 2⟩, ⟨0x40000000#32, 1⟩,
    ⟨0x40400000#32, 1⟩, ⟨0x40800000#32, 1⟩, ⟨0x40C00000#32, 1⟩, ⟨0x41000000#32, 1⟩, ⟨0x41800000#32, 1⟩]

/-- `v = fl(x * 19)` of the sanitized input (R121). -/
def quantPosition (x : Word) : Word :=
  F32.mul (F32.sanitize x Config.f0 Config.f1 Config.f0) Config.f19

/-- The offset added to v: nearest from NONE, v - H + 0.5 moving up, v + H + 0.5 moving down or equal (R121). -/
def quantOffset (q : Option (Fin 20)) (v : Word) : Word :=
  match q with
  | none => Config.fHalf
  | some q => if F32.lt (F32.int2f q.val) v then Config.fQuarter else Config.fThreeQuarters

/-- `min(19, max(0, n))` (R121). -/
def clampIndex (n : Int) : Fin 20 := ⟨min 19 (max 0 n).toNat, by omega⟩

/-- The index that `quantize(x)` selects from the hysteresis state `q` (R121). -/
def quantIndex (q : Option (Fin 20)) (x : Word) : Fin 20 :=
  clampIndex (F32.floor (F32.add (quantPosition x) (quantOffset q (quantPosition x))))

/-- QUANT (R124): the lookup on a given input; it continues from and updates Q_STATE. -/
def execQuant (wdata : Word) (s : State) : Host.Outcome State Fault Refusal :=
  .next (State.respond { s with qState := some (quantIndex s.qState wdata) }
    (BitVec.ofNat 32 (quantIndex s.qState wdata).val))

/-- QRST (R125): Q_STATE becomes NONE. -/
def execQrst (s : State) : Host.Outcome State Fault Refusal :=
  .next (State.respond { s with qState := none } 0#32)

end Sys2Proof.Machine
end

