-- ==== Sys2Proof/Machine/Generator.lean ====
section
/-! DEFINITION. The Poly Slope Generator (spec/43_slope_generator.md): the two phase sources, the transfer curve,
the output modes, the frame, and the commands STEP, RENDER and GRST. -/

namespace Sys2Proof.Machine

/-- `grst()` (R192). -/
def State.grst (s : State) : State := { s with gen := GenRegs.cleared }

/-! The free path (R171 to R177). -/

/-- `f_base` (R171). -/
def baseFrequency (o : OpenParams) (freq sr : Word) : Word :=
  F32.div (F32.mul o.refHz (F32.exp2 o.exp2 (F32.div freq Config.f12))) sr

/-- RANGE_MULT (R172). -/
def rangeMult : FreqRange → Word
  | .subAudio => Config.rangeSub
  | .audio => Config.rangeAudio
  | .highAudio => Config.rangeHigh

/-- The free path's frame frequency (R171 to R173). -/
def State.freeFrequency (s : State) : Word :=
  F32.clamp (F32.mul (baseFrequency s.params s.par.freq s.sr) (rangeMult s.range)) Config.fEps Config.fMax

/-- The trigger (R174): a rising trigger edge restarts the ramp in AR and LOOP_SYNC. -/
def GenRegs.trigger (g : GenRegs) (flag : GateFlag) (mode : RampMode) : GenRegs :=
  if flag = .rising then
    match mode with
    | .looping => g
    | .ar => { g with phase := Config.f0, eocp := false, active := true }
    | .loopSync => { g with phase := Config.f0, eocp := false }
  else g

/-- This frame's outputs, read after the trigger and before the advance (R175). -/
def GenRegs.outputs (g : GenRegs) (mode : RampMode) (f : Word) : PhaseOut :=
  { p := g.phase, f := f, eoc := g.eocp, running := decide (mode ≠ .ar) || g.active }

/-- The phase advance (R176). -/
def GenRegs.advance (g : GenRegs) (mode : RampMode) (f : Word) : GenRegs :=
  if mode = .ar then
    if g.active then
      { g with phase := (holdAdvance g.phase f).phase, eocp := (holdAdvance g.phase f).eocp,
               active := (holdAdvance g.phase f).goesOn }
    else { g with eocp := false }
  else { g with phase := (wrapAdvance g.phase f).phase, eocp := (wrapAdvance g.phase f).eocp }

/-- The free path of a frame (R171 to R176): its outputs and the state after it. -/
def State.freePath (s : State) : PhaseOut × State :=
  let f := s.freeFrequency
  let g := s.gen.trigger s.trigFlag s.rmode
  (g.outputs s.rmode f, { s with gen := g.advance s.rmode f })

/-! The clocked path (R188). -/

/-- The deferred extractor reset (R188, spec/70_reset_and_hazards.md R294). -/
def State.takeMustReset (s : State) : State :=
  if s.mustReset then { s.xreset with mustReset := false } else s

/-- The clocked path of a frame (R188): the quantizer selects the ratio, the extractor steps, and the generator
registers mirror it. -/
def State.clockedPath (s : State) : PhaseOut × State :=
  let s1 := s.takeMustReset
  let q := quantIndex s1.qState s1.par.ratioIn
  let r := ratioTable[q]
  let x := xstep r.m r.s (decide (s1.range = .highAudio)) (decide (s1.rmode = .ar)) s1.clkFlag s1.xRecs s1.ext
  (x.1, { s1 with
    qState := some q
    ext := x.2
    gen := { s1.gen with phase := x.2.phase, eocp := x.2.eocp, active := x.2.active } })

/-- Part 3 of a frame: the phase source (R170, R190 step 3). -/
def State.phaseSource (s : State) : PhaseOut × State :=
  if s.clkConn then s.clockedPath else s.freePath

/-! The transfer curve (R180 to R182). -/

/-- The u of a warp and whether it is in its rising part. -/
structure Warp where
  u : Word
  rise : Bool
  deriving DecidableEq, Repr

/-- `warp(p, s)` (R180). -/
def warp (p s : Word) : Warp :=
  if F32.le Config.f1 s then { u := F32.clamp p Config.f0 Config.f1, rise := true }
  else if F32.lt p s then { u := F32.clamp (F32.div p s) Config.f0 Config.f1, rise := true }
  else
    { u := F32.clamp (F32.div (F32.sub Config.f1 p) (F32.sub Config.f1 s)) Config.f0 Config.f1, rise := false }

/-- The warp of a frame, or the AR rest (R180). -/
def warpOrRest (running : Bool) (p s : Word) : Warp :=
  if running then warp p s else { u := Config.f0, rise := false }

/-- x^4 computed as (x*x)*(x*x) (R181). -/
def fourth (x : Word) : Word := F32.mul (F32.mul x x) (F32.mul x x)

/-- `W(u, h)` (R181). -/
def shapeCurve (u h : Word) : Word :=
  F32.clamp
    (if F32.lt h Config.fHalf then
      let a := F32.mul Config.f2 h
      let c := fourth u
      F32.add c (F32.mul a (F32.sub u c))
    else
      let a := F32.sub (F32.mul Config.f2 h) Config.f1
      let q := F32.sub Config.f1 (fourth (F32.sub Config.f1 u))
      F32.add u (F32.mul a (F32.sub q u)))
    Config.f0 Config.f1

/-- The smoothing coefficient c (R182), before it is limited to 1. -/
def smoothCoefficient (sigma f : Word) : Word :=
  if F32.le sigma Config.fHalf then Config.f1
  else F32.div (F32.mul Config.smoothK f) (F32.sub (F32.mul Config.f2 sigma) Config.f1)

/-- The filter state after a frame, which is the frame's y (R182). -/
def smoothed (sigma f w y : Word) : Word :=
  if F32.le Config.f1 (smoothCoefficient sigma f) then w
  else F32.add y (F32.mul (smoothCoefficient sigma f) (F32.sub w y))

/-! The output modes (R183 to R186). -/

/-- Everything the channel maps read of a frame. -/
structure FrameValues where
  /-- The phase source's outputs. -/
  o : PhaseOut
  /-- The slope-warped phase and its rising bit. -/
  warp : Warp
  /-- The smoothed value. -/
  y : Word
  /-- R[SHIFT]. -/
  sh : Word
  /-- R[SLOPE]. -/
  slope : Word
  /-- R[SR]. -/
  sr : Word
  deriving DecidableEq, Repr

/-- The four channels of a frame (spec/20_memory.md R62). -/
structure Channels where
  ch0 : Word
  ch1 : Word
  ch2 : Word
  ch3 : Word
  deriving DecidableEq, Repr

/-- 1.0 or 0.0 (R183). -/
def gateLevel (b : Bool) : Word := if b then Config.f1 else Config.f0

/-- `wrap(t)` (R185). -/
def wrapOnce (t : Word) : Word := if F32.le Config.f1 t then F32.sub t Config.f1 else t

/-- GATES (R183). -/
def gatesChannels (v : FrameValues) : Channels :=
  { ch0 := gateLevel v.warp.rise
    ch1 := gateLevel (v.o.running && !v.warp.rise)
    ch2 := gateLevel v.o.eoc
    ch3 := gateLevel (F32.lt v.sh v.y) }

/-- AMPLITUDE (R184). -/
def amplitudeChannels (v : FrameValues) : Channels :=
  { ch0 := v.y
    ch1 := F32.sub Config.f1 v.y
    ch2 := F32.sub (F32.mul Config.f2 v.y) Config.f1
    ch3 := F32.sub v.y v.sh }

/-- SLOPE_PHASE (R185). -/
def slopePhaseChannels (v : FrameValues) : Channels :=
  { ch0 := v.o.p
    ch1 := v.warp.u
    ch2 := wrapOnce (F32.add v.o.p v.sh)
    ch3 := (warpOrRest v.o.running (wrapOnce (F32.add v.o.p v.sh)) v.slope).u }

/-- FREQUENCY (R186). -/
def frequencyChannels (v : FrameValues) : Channels :=
  { ch0 := v.o.f
    ch1 := F32.mul v.o.f v.sr
    ch2 := v.y
    ch3 := F32.sub v.y v.sh }

/-- The channel map of an output mode (R170 part 5). -/
def channelMap (mode : OutMode) (v : FrameValues) : Channels :=
  match mode with
  | .gates => gatesChannels v
  | .amplitude => amplitudeChannels v
  | .slopePhase => slopePhaseChannels v
  | .frequency => frequencyChannels v

/-! The frame (R170, R190). -/

/-- Step 1 of R190: the deferred mode-change reset (spec/70_reset_and_hazards.md R293). -/
def State.modeChange (s : State) : State :=
  if s.omode ≠ s.prevOm then { s.grst with prevOm := s.omode } else s

/-- Step 2 of R190: the edge detector on both inputs of frame n (spec/40_gate_edge_detector.md R102,
spec/20_memory.md R61). -/
def State.detectEdges (s : State) (n : Nat) : State :=
  { s with
    trigFlag := edge s.trigFlag (level (s.ibufWord (2 * n)))
    clkFlag := edge s.clkFlag (level (s.ibufWord (2 * n + 1))) }

/-- The values the transfer curve gives on the phase source's outputs (R180 to R182), in the state `s` after the
phase source; G_Y still holds the last frame's value. -/
def State.frameValues (s : State) (o : PhaseOut) : FrameValues :=
  let w := warpOrRest o.running o.p s.par.slope
  { o := o
    warp := w
    y := smoothed s.par.smooth o.f (shapeCurve w.u s.par.shape) s.gen.y
    sh := s.par.shift
    slope := s.par.slope
    sr := s.sr }

/-- Write a frame's four channels (R187). -/
def State.writeFrame (s : State) (n : Nat) (c : Channels) : State :=
  (((s.writeObuf (4 * n) c.ch0).writeObuf (4 * n + 1) c.ch1).writeObuf (4 * n + 2) c.ch2).writeObuf
    (4 * n + 3) c.ch3

/-- Steps 4 and 5 of R190 on the phase source's outputs: F_EFF, G_Y and OBUF. -/
def State.finishFrame (s : State) (n : Nat) (o : PhaseOut) : State :=
  State.writeFrame { s with fEff := o.f, gen := { s.gen with y := (s.frameValues o).y } } n
    (channelMap s.omode (s.frameValues o))

/-- The body of STEP n (R190): one frame. -/
def State.frame (s : State) (n : Nat) : State :=
  let x := (s.modeChange.detectEdges n).phaseSource
  x.2.finishFrame n x.1

/-- The frames `first`, ..., `first + count - 1` in order (R191). -/
def State.frames (s : State) : (count first : Nat) → State
  | 0, _ => s
  | count + 1, first => State.frames (s.frame first) count (first + 1)

/-- STEP (R190). -/
def execStep (n : Nat) (s : State) : Host.Outcome State Fault Refusal :=
  if Config.blockMax ≤ n then .next (s.raise .badAddr)
  else .next ((s.frame n).respond 0#32)

/-- RENDER (R191). -/
def execRender (size : Nat) (s : State) : Host.Outcome State Fault Refusal :=
  if size ≠ s.bs then .next (s.raise .blockMismatch)
  else .next ((s.frames s.bs 0).respond 0#32)

/-- GRST (R192). -/
def execGrst (s : State) : Host.Outcome State Fault Refusal :=
  .next (s.grst.respond 0#32)

end Sys2Proof.Machine
end

