-- ==== Sys2Proof/Machine/HostIface.lean ====
section
/-! DEFINITION. The host interface (spec/44_host_interface.md): parameter setters, lifecycle hooks and access
commands. -/

namespace Sys2Proof.Machine

/-- WRP (R230). -/
def execWrp (reg : Nat) (wdata : Word) (s : State) : Host.Outcome State Fault Refusal :=
  match ParamReg.ofSel reg with
  | none => .next (s.raise .badIndex)
  | some r => .next (State.respond { s with par := s.par.write r wdata } 0#32)

/-- A sample rate that INIT and SRATE refuse: a NaN, an infinity, zero or a negative value (R231, R237). -/
def badRate (x : Word) : Bool := F32.isNaN x || F32.isInf x || F32.le x Config.f0

/-- A sample rate clamped to [SR_MIN, SR_MAX] (R231, R237). -/
def clampRate (x : Word) : Word := F32.clamp x Config.srMin Config.srMax

/-- SRATE (R231). -/
def execSrate (wdata : Word) (s : State) : Host.Outcome State Fault Refusal :=
  if badRate wdata then .next (s.raise .badArg)
  else
    .next (State.respond
      { s with sr := clampRate wdata, xRecs := recoverySamples s.tr (clampRate wdata), mustReset := true } 0#32)

/-- BSIZE (R232). -/
def execBsize (size : Nat) (s : State) : Host.Outcome State Fault Refusal :=
  if size < 1 ∨ Config.blockMax < size then .next (s.raise .badArg)
  else .next (State.respond { s with bs := size, mustReset := true } 0#32)

/-- CLKC (R233). -/
def execClkc (c : Bool) (s : State) : Host.Outcome State Fault Refusal :=
  .next (State.respond { s with clkConn := c, mustReset := s.mustReset || (!s.clkConn && c) } 0#32)

/-- SETOM (R234): it does not reset the generator. -/
def execSetom (mode : Nat) (s : State) : Host.Outcome State Fault Refusal :=
  .next (State.respond { s with omode := OutMode.ofImm mode } 0#32)

/-- SETRM (R235). -/
def execSetrm (mode : Nat) (s : State) : Host.Outcome State Fault Refusal :=
  .next (State.respond { s with rmode := RampMode.ofImm mode } 0#32)

/-- SETRG (R236). -/
def execSetrg (range : Nat) (s : State) : Host.Outcome State Fault Refusal :=
  .next (State.respond { s with range := FreqRange.ofImm range } 0#32)

/-- INIT (R237): the reset of R290 with the given sample rate. -/
def execInit (wdata : Word) (s : State) : Host.Outcome State Fault Refusal :=
  if badRate wdata then .next (s.raise .badArg)
  else
    .next (State.respond
      { s.hardwareReset with
        sr := clampRate wdata
        xRecs := recoverySamples Config.trDefault (clampRate wdata) } 0#32)

/-- NOP (R238). -/
def execNop (s : State) : Host.Outcome State Fault Refusal :=
  .next (s.respond 0#32)

/-- CLRST (R239). -/
def execClrst (mask : BitVec 5) (s : State) : Host.Outcome State Fault Refusal :=
  .next (State.respond { s with status := s.status &&& ~~~mask } 0#32)

/-- WRIN (R240): the word is stored raw. -/
def execWrin (a : Nat) (wdata : Word) (s : State) : Host.Outcome State Fault Refusal :=
  if Config.ibufWords ≤ a then .next (s.raise .badAddr)
  else .next ((s.writeIbuf a wdata).respond 0#32)

/-- RDOUT (R241). -/
def execRdout (a : Nat) (s : State) : Host.Outcome State Fault Refusal :=
  if Config.obufWords ≤ a then .next (s.raise .badAddr)
  else .next (s.respond (s.obufWord a))

/-- RDREG (R242). -/
def execRdreg (reg : Nat) (s : State) : Host.Outcome State Fault Refusal :=
  match Reg.ofSel reg with
  | none => .next (s.raise .badIndex)
  | some r => .next (s.respond (s.readReg r))

end Sys2Proof.Machine
end

