-- ==== Sys2Proof/Machine/Dispatch.lean ====
section
/-! DEFINITION. One arm per command of spec/30_encoding.md R85. -/

namespace Sys2Proof.Machine

def exec (i : Instr) (s : State) : Host.Outcome State Fault Refusal :=
  match i with
  | .nop => Sys2Proof.Machine.execNop s
  | .wrp reg wdata => Sys2Proof.Machine.execWrp reg wdata s
  | .setom mode => Sys2Proof.Machine.execSetom mode s
  | .setrm mode => Sys2Proof.Machine.execSetrm mode s
  | .setrg range => Sys2Proof.Machine.execSetrg range s
  | .clkc connected => Sys2Proof.Machine.execClkc connected s
  | .init wdata => Sys2Proof.Machine.execInit wdata s
  | .srate wdata => Sys2Proof.Machine.execSrate wdata s
  | .bsize size => Sys2Proof.Machine.execBsize size s
  | .xinit wdata => Sys2Proof.Machine.execXinit wdata s
  | .grst => Sys2Proof.Machine.execGrst s
  | .xrst => Sys2Proof.Machine.execXrst s
  | .qrst => Sys2Proof.Machine.execQrst s
  | .clrst mask => Sys2Proof.Machine.execClrst mask s
  | .step frame => Sys2Proof.Machine.execStep frame s
  | .render size => Sys2Proof.Machine.execRender size s
  | .gedet prev cur => Sys2Proof.Machine.execGedet prev cur s
  | .quant wdata => Sys2Proof.Machine.execQuant wdata s
  | .wrin addr wdata => Sys2Proof.Machine.execWrin addr wdata s
  | .rdout addr => Sys2Proof.Machine.execRdout addr s
  | .rdreg reg => Sys2Proof.Machine.execRdreg reg s

end Sys2Proof.Machine
end

