-- ==== Sys2Proof/Machine/Port.lean ====
section
/-! DEFINITION. The command port (spec/30_encoding.md R80, R81): running a command word, and taking the host's next
input. The block fetches nothing (spec/10_state.md R21); the commands come over the port, which `pending` holds (log
entry 1). -/

namespace Sys2Proof.Machine

/-- Run a command word with its data word: the decoded command, or ILLEGAL (spec/30_encoding.md R86, R87). -/
def runCommand (cmd wdata : Word) (s : State) : Host.Outcome State Fault Refusal :=
  match decode cmd wdata with
  | .ok i => exec i s
  | .error _ => .next (s.raise .illegal)

/-- Take the host's next input (R81, spec/70_reset_and_hazards.md R290). With nothing pending the block keeps its
state (spec/60_exceptions.md R282). -/
def takeInput (s : State) : Host.Outcome State Fault Refusal :=
  match s.pending with
  | [] => .next s
  | .command cmd wdata :: rest => runCommand cmd wdata { s with pending := rest }
  | .hardwareReset :: rest => .next (State.hardwareReset { s with pending := rest })

/-- The command that `nbits` bits `w` hold, numbered as spec/opcode_table.json numbers them: bits 31:0 the command
word, bits 63:32 the data word, bits from `nbits` up 0 (log entry 9). -/
def HostInput.ofTableWord (nbits w : Nat) : HostInput :=
  .command (BitVec.ofNat 32 (w % 2 ^ nbits)) (BitVec.ofNat 32 (w % 2 ^ nbits / 2 ^ 32))

end Sys2Proof.Machine
end

