-- ==== Sys2Proof/Machine/Step.lean ====
section
/-! DEFINITION. One step of the machine: the next input of the host (spec/30_encoding.md R81,
spec/70_reset_and_hazards.md R300). -/

namespace Sys2Proof.Machine

/-- One step: the block takes the host's next input and answers it. -/
def step (s : State) : Host.Outcome State Fault Refusal := takeInput s

/-- `s` with the command of the bits `w` issued next, before what is pending (log entries 1 and 9). -/
def State.withFetchWord (s : State) (nbits w : Nat) : State :=
  { s with pending := HostInput.ofTableWord nbits w :: s.pending }

end Sys2Proof.Machine
end

