-- ==== Sys2Proof/Safety.lean ====
section
/-! DEFINITION. What counts as a legal state (spec/10_state.md R24, R25; spec/42_ramp_extractor.md R150), as a
finite output (spec/43_slope_generator.md R193), and as an error-free run (spec/70_reset_and_hazards.md R300). -/

namespace Sys2Proof.Machine

/-- REF_HZ is a positive finite binary32 (spec/92_eei_decisions.md D5). -/
def OpenParams.legal (o : OpenParams) : Bool := F32.isFinite o.refHz && F32.lt Config.f0 o.refHz

/-- A value of [0.0, 1.0]. -/
def unitRange (x : Word) : Bool := F32.within Config.f0 Config.f1 x

/-- 2^24 as a binary32, the largest X_PERIOD (R24). -/
abbrev periodMax : Word := 0x4B800000#32

/-- 7680000.0 as a binary32, the largest X_RECS (R24). -/
abbrev recsMax : Word := 0x4AEA6000#32

/-- FREQ in [-120, 120] and the others in [0, 1] (R24). -/
structure ParamRegs.Legal (p : ParamRegs) : Prop where
  freq : F32.within Config.freqMin Config.freqMax p.freq = true
  slope : unitRange p.slope = true
  shape : unitRange p.shape = true
  smooth : unitRange p.smooth = true
  shift : unitRange p.shift = true
  ratioIn : unitRange p.ratioIn = true

/-- G_PHASE and G_Y in [0, 1] (R24). -/
structure GenRegs.Legal (g : GenRegs) : Prop where
  phase : unitRange g.phase = true
  y : unitRange g.y = true

/-- The extractor's ranges (R24), with X_PERIOD +0.0 while X_HASP = 0 and in [1, 2^24] afterwards
(spec/42_ramp_extractor.md R150). -/
structure ExtRegs.Legal (e : ExtRegs) : Prop where
  phase : unitRange e.phase = true
  periodUnknown : e.hasp = false → e.period = Config.f0
  periodKnown : e.hasp = true → F32.within Config.f1 periodMax e.period = true
  count : e.count ≤ Config.cMax
  qcount : e.qcount ≤ 15

/-- F_EFF is +0.0 or in [F_EPS, F_MAX] (R24). -/
def legalFEff (f : Word) : Bool := f == Config.f0 || F32.within Config.fEps Config.fMax f

/-- A legal state: every register holds a legal value (R25), the open parameter REF_HZ is legal, and both
buffers are in their canonical form within their address spaces (spec/20_memory.md R60, R68). The modes, the
bits, the gate flags, STATUS and Q_STATE are legal by their types. -/
structure State.Legal (s : State) : Prop where
  params : s.params.legal = true
  par : s.par.Legal
  sr : F32.within Config.srMin Config.srMax s.sr = true
  bs : 1 ≤ s.bs ∧ s.bs ≤ Config.blockMax
  tr : F32.within Config.f0 Config.trMax s.tr = true
  gen : s.gen.Legal
  fEff : legalFEff s.fEff = true
  ext : s.ext.Legal
  xRecs : F32.within Config.f0 recsMax s.xRecs = true
  ibufWf : s.ibuf.wf
  ibufBelow : Memory.below (4 * Config.ibufWords) s.ibuf
  obufWf : s.obuf.wf
  obufBelow : Memory.below (4 * Config.obufWords) s.obuf

/-- The four OBUF words of a frame are finite (spec/43_slope_generator.md R193). -/
def State.frameFinite (s : State) (n : Nat) : Prop :=
  ∀ k, k < 4 → F32.isFinite (s.obufWord (4 * n + k)) = true

/-- An error-free run up to this state: STATUS = 0 and no response had err = 1
(spec/70_reset_and_hazards.md R300). -/
def State.errorFree (s : State) : Prop :=
  s.status = 0#5 ∧ ∀ r ∈ s.responses, r.err = false

end Sys2Proof.Machine
end

