-- ==== Sys2Proof/Certificates/Slice0/Obligations.lean ====
section
/-! DEFINITION. What is claimed of the model, from the numbered rules of spec/. `Statements` holds the words the
claims are written in: transcriptions of the spec's formulas, apart from the model's own definitions. -/

open Sys2Proof Sys2Proof.Machine

namespace Sys2Proof.Statements

/-! Responses and encodings. -/

/-- The response of a command that does not raise (R80). -/
def ok (rdata : Word) : Response := { rdata := rdata, err := false }

/-- The response of a command that raises (R12). -/
def refusal : Response := { rdata := 0#32, err := true }

/-- The bit number of an error in STATUS (R270). -/
def errorCode : ErrorKind → Nat
  | .illegal => 0
  | .badIndex => 1
  | .badArg => 2
  | .badAddr => 3
  | .blockMismatch => 4

/-- The state after `raise e` (R12, R270). -/
def raised (e : ErrorKind) (s : State) : State :=
  { s with status := s.status ||| (1#5 <<< errorCode e), responses := refusal :: s.responses }

/-- The command raises `e` under `cause`, and, from STATUS = 0, under nothing else. -/
def raisesExactly (e : ErrorKind) (i : Instr) (s : State) (cause : Prop) : Prop :=
  (cause → exec i s = .next (raised e s)) ∧
    (s.status = 0#5 → exec i s = .next (raised e s) → cause)

/-- OP, SEL and IMM of a command word as numbers (R82). -/
def op (cmd : Word) : Nat := cmd.toNat / 2 ^ 24
def sel (cmd : Word) : Nat := cmd.toNat / 2 ^ 16 % 256
def imm (cmd : Word) : Nat := cmd.toNat % 65536

/-- The command words with opcode `o` run the command `i` of SEL, IMM and the data word where `legal` holds of SEL
and IMM, and raise ILLEGAL where it does not (R86). -/
def encodedAs (o : Nat) (legal : Nat → Nat → Prop) (i : Nat → Nat → Word → Instr) : Prop :=
  ∀ (cmd w : Word) (s : State), op cmd = o →
    (legal (sel cmd) (imm cmd) → runCommand cmd w s = exec (i (sel cmd) (imm cmd) w) s) ∧
      (¬ legal (sel cmd) (imm cmd) → runCommand cmd w s = .next (raised .illegal s))

/-- A reserved opcode (R87). -/
def reserved (o : Nat) : Prop :=
  o = 0x06 ∨ o = 0x07 ∨ (0x12 ≤ o ∧ o ≤ 0x1F) ∨ (0x22 ≤ o ∧ o ≤ 0x2F) ∨ 0x33 ≤ o

/-- An illegal command word (R86). -/
def illegal (cmd : Word) : Prop :=
  reserved (op cmd) ∨
  (sel cmd ≠ 0 ∧ op cmd ≠ 0x01 ∧ op cmd ≠ 0x32) ∨
  (imm cmd ≠ 0 ∧ op cmd ∈ [0x00, 0x01, 0x08, 0x09, 0x0B, 0x0C, 0x0D, 0x0E, 0x21, 0x32]) ∨
  (op cmd = 0x05 ∧ 2 ≤ imm cmd) ∨ (op cmd = 0x0F ∧ 32 ≤ imm cmd) ∨ (op cmd = 0x20 ∧ 8 ≤ imm cmd)

/-! Values. -/

/-- `sanitize` (R15). -/
def sanitized (x lo hi dflt : Word) : Word :=
  if F32.isNaN x then dflt else if F32.lt x lo then lo else if F32.lt hi x then hi else x

/-- The parameter register of a number 0x01 to 0x06 (R24). -/
def param (p : ParamRegs) : Nat → Word
  | 1 => p.freq
  | 2 => p.slope
  | 3 => p.shape
  | 4 => p.smooth
  | 5 => p.shift
  | _ => p.ratioIn

/-- What WRP stores into the register of a number (R230). -/
def paramValue (n : Nat) (x : Word) : Word :=
  if n = 1 then sanitized x 0xC2F00000#32 0x42F00000#32 0x00000000#32
  else sanitized x 0x00000000#32 0x3F800000#32 0x3F000000#32

/-- A sample rate that is refused (R231, R237). -/
def rateRefused (x : Word) : Prop := F32.isNaN x = true ∨ F32.isInf x = true ∨ F32.le x 0x00000000#32 = true

/-- A sample rate clamped to [1000, 768000] (R231, R237). -/
def rate (x : Word) : Word :=
  if F32.lt x 0x447A0000#32 then 0x447A0000#32 else if F32.lt 0x493B8000#32 x then 0x493B8000#32 else x

/-- The bits each register number reads after hardware reset (R290). -/
def resetValues : List (Nat × Word) :=
  [(0x00, 0x00000000#32), (0x01, 0x00000000#32), (0x02, 0x3F000000#32), (0x03, 0x3F000000#32),
    (0x04, 0x3F000000#32), (0x05, 0x3F000000#32), (0x06, 0x3F000000#32), (0x07, 0x00000001#32)]
  ++ [(0x08, 0x00000000#32), (0x09, 0x00000001#32), (0x0A, 0x473B8000#32), (0x0B, 0x00000040#32),
    (0x0C, 0x00000000#32), (0x0D, 0x3DCCCCCD#32), (0x0E, 0x00000000#32), (0x0F, 0x00000001#32)]
  ++ [(0x10, 0x00000000#32), (0x11, 0x00000000#32), (0x12, 0x00000000#32), (0x13, 0x00000000#32),
    (0x14, 0x00000000#32), (0x15, 0x00000000#32), (0x16, 0x00000000#32), (0x18, 0x00000000#32)]
  ++ [(0x19, 0x00000000#32), (0x1A, 0x00000000#32), (0x1B, 0x00000000#32), (0x1C, 0x00000000#32),
    (0x1D, 0x00000000#32), (0x1E, 0x00000000#32), (0x1F, 0x00000000#32), (0x20, 0x45960000#32),
    (0x21, 0xFFFFFFFF#32)]

/-- A bit as a register word. -/
def bit (b : Bool) : Word := if b then 1#32 else 0#32

/-- Every register number with what RDREG returns for it (R24, R242). -/
def registers (s : State) : List (Nat × Word) :=
  [(0x00, s.status.setWidth 32), (0x01, s.par.freq), (0x02, s.par.slope), (0x03, s.par.shape),
    (0x04, s.par.smooth), (0x05, s.par.shift), (0x06, s.par.ratioIn)]
  ++ [(0x07, match s.omode with | .gates => 1#32 | .amplitude => 2#32 | .slopePhase => 3#32 | .frequency => 4#32),
    (0x08, match s.rmode with | .looping => 0#32 | .ar => 1#32 | .loopSync => 2#32),
    (0x09, match s.range with | .subAudio => 0#32 | .audio => 1#32 | .highAudio => 2#32),
    (0x0A, s.sr), (0x0B, BitVec.ofNat 32 s.bs), (0x0C, bit s.clkConn), (0x0D, s.tr), (0x0E, bit s.mustReset)]
  ++ [(0x0F, match s.prevOm with | .gates => 1#32 | .amplitude => 2#32 | .slopePhase => 3#32 | .frequency => 4#32),
    (0x10, s.gen.phase), (0x11, bit s.gen.active), (0x12, bit s.gen.eocp), (0x13, s.gen.y),
    (0x14, match s.trigFlag with | .low => 0#32 | .high => 1#32 | .falling => 2#32 | .rising => 3#32),
    (0x15, match s.clkFlag with | .low => 0#32 | .high => 1#32 | .falling => 2#32 | .rising => 3#32)]
  ++ [(0x16, s.fEff), (0x18, s.ext.phase), (0x19, s.ext.period), (0x1A, BitVec.ofNat 32 s.ext.count),
    (0x1B, bit s.ext.edge), (0x1C, bit s.ext.hasp), (0x1D, bit s.ext.active), (0x1E, bit s.ext.eocp)]
  ++ [(0x1F, BitVec.ofNat 32 s.ext.qcount), (0x20, s.xRecs),
    (0x21, match s.qState with | none => 0xFFFFFFFF#32 | some q => BitVec.ofNat 32 q.val)]

/-- RATIO_TABLE: the multiplier and the subdivision of an index 0 to 19 (R120). -/
def ratio : Nat → Word × Nat
  | 0 => (0x3F800000#32, 16)
  | 1 => (0x3F800000#32, 8)
  | 2 => (0x3F800000#32, 6)
  | 3 => (0x3F800000#32, 4)
  | 4 => (0x3F800000#32, 3)
  | 5 => (0x3F800000#32, 2)
  | 6 => (0x40000000#32, 3)
  | 7 => (0x40400000#32, 4)
  | 8 => (0x40800000#32, 5)
  | 9 => (0x3F800000#32, 1)
  | 10 => (0x3F800000#32, 1)
  | 11 => (0x40A00000#32, 4)
  | 12 => (0x40800000#32, 3)
  | 13 => (0x40400000#32, 2)
  | 14 => (0x40000000#32, 1)
  | 15 => (0x40400000#32, 1)
  | 16 => (0x40800000#32, 1)
  | 17 => (0x40C00000#32, 1)
  | 18 => (0x41000000#32, 1)
  | _ => (0x41800000#32, 1)

/-- The properties of EXP2 that R16 lets a model assume; that it is total is in its type. -/
structure IsExpTwo (f : Word → Word) : Prop where
  monotone : ∀ x y : Word, F32.le x y = true → F32.le (f x) (f y) = true
  exact : ∀ (x : Word) (n : Int), -10 ≤ n → n ≤ 10 → F32.val x = n * 2 ^ 149 →
    f x = BitVec.ofNat 32 ((n + 127).toNat * 2 ^ 23)
  positive : ∀ x : Word, F32.within 0xC1200000#32 0x41200000#32 x = true →
    F32.isFinite (f x) = true ∧ F32.lt 0x00000000#32 (f x) = true

/-! The frame. -/

/-- The trigger rises in frame n (R102, R174). -/
def triggered (s : State) (n : Nat) : Bool := edge s.trigFlag (level (s.ibufWord (2 * n))) == .rising

/-- What the phase source gives frame n, after the deferred mode-change reset and the edge detector (R170, R190). -/
def frameOut (s : State) (n : Nat) : PhaseOut := ((s.modeChange.detectEdges n).phaseSource).1

/-- The frequency of a free-path frame (R171 to R173). -/
def freeF (s : State) : Word :=
  let base := F32.div
    (F32.mul s.params.refHz (F32.exp2 s.params.exp2 (F32.div s.par.freq 0x41400000#32))) s.sr
  let mult := match s.range with
    | .subAudio => 0x3C800000#32
    | .audio => 0x3F800000#32
    | .highAudio => 0x41000000#32
  F32.clamp (F32.mul base mult) 0x33800000#32 0x3F000000#32

/-- The u and rise of `warp(p, s)` (R180). -/
def warpRule (p s : Word) : Word × Bool :=
  if F32.le 0x3F800000#32 s then (F32.clamp p 0x00000000#32 0x3F800000#32, true)
  else if F32.lt p s then (F32.clamp (F32.div p s) 0x00000000#32 0x3F800000#32, true)
  else
    (F32.clamp (F32.div (F32.sub 0x3F800000#32 p) (F32.sub 0x3F800000#32 s)) 0x00000000#32 0x3F800000#32, false)

/-- u and rise of a frame, at rest when it is not running (R180). -/
def warpOf (o : PhaseOut) (slope : Word) : Word × Bool :=
  if o.running then warpRule o.p slope else (0x00000000#32, false)

/-- `W(u, h)` (R181). -/
def shapeRule (u h : Word) : Word :=
  if F32.lt h 0x3F000000#32 then
    let a := F32.mul 0x40000000#32 h
    let c := F32.mul (F32.mul u u) (F32.mul u u)
    F32.clamp (F32.add c (F32.mul a (F32.sub u c))) 0x00000000#32 0x3F800000#32
  else
    let a := F32.sub (F32.mul 0x40000000#32 h) 0x3F800000#32
    let v := F32.sub 0x3F800000#32 u
    let c := F32.mul (F32.mul v v) (F32.mul v v)
    let q := F32.sub 0x3F800000#32 c
    F32.clamp (F32.add u (F32.mul a (F32.sub q u))) 0x00000000#32 0x3F800000#32

/-- The new G_Y from SMOOTH, f, w and the old G_Y (R182). -/
def smoothRule (sigma f w y : Word) : Word :=
  if F32.le sigma 0x3F000000#32 then w
  else
    let d := F32.sub (F32.mul 0x40000000#32 sigma) 0x3F800000#32
    let c := F32.div (F32.mul 0x41000000#32 f) d
    if F32.le 0x3F800000#32 c then w else F32.add y (F32.mul c (F32.sub w y))

/-- 1.0 or 0.0 (R183). -/
def level1 (b : Bool) : Word := if b then 0x3F800000#32 else 0x00000000#32

/-- `wrap(t)` (R185). -/
def wrapRule (t : Word) : Word := if F32.le 0x3F800000#32 t then F32.sub t 0x3F800000#32 else t

/-- The frames 0 to `count` - 1 from `first` as STEP commands, one after another; none where one does not answer
with a next state. -/
def steps (first : Nat) : (count : Nat) → State → Option State
  | 0, s => some s
  | count + 1, s =>
    match exec (.step first) s with
    | .next t => steps (first + 1) count t
    | _ => none

end Sys2Proof.Statements

open Sys2Proof.Statements

/-! Encoding and the step. -/

/-- The examples of spec/30_encoding.md R91 and of the command rules, one word of every opcode, and the illegal
word of spec/60_exceptions.md R276. -/
def Obligations.DecodeSampleWords : Prop :=
  decode 0x00000000#32 0#32 = .ok .nop ∧
  decode 0x01020000#32 0x3E800000#32 = .ok (.wrp 2 0x3E800000#32) ∧
  decode 0x02000002#32 0#32 = .ok (.setom 2) ∧
  decode 0x03000001#32 0#32 = .ok (.setrm 1) ∧
  decode 0x04000000#32 0#32 = .ok (.setrg 0) ∧
  decode 0x05000001#32 0#32 = .ok (.clkc true) ∧
  decode 0x08000000#32 0x472C4400#32 = .ok (.init 0x472C4400#32) ∧
  decode 0x09000000#32 0x47BB8000#32 = .ok (.srate 0x47BB8000#32) ∧
  decode 0x0A000020#32 0#32 = .ok (.bsize 32) ∧
  decode 0x0B000000#32 0x3DCCCCCD#32 = .ok (.xinit 0x3DCCCCCD#32) ∧
  decode 0x0C000000#32 0#32 = .ok .grst ∧
  decode 0x0D000000#32 0#32 = .ok .xrst ∧
  decode 0x0E000000#32 0#32 = .ok .qrst ∧
  decode 0x0F00001F#32 0#32 = .ok (.clrst 0x1F#5) ∧
  decode 0x10000000#32 0#32 = .ok (.step 0) ∧
  decode 0x11000040#32 0#32 = .ok (.render 64) ∧
  decode 0x20000006#32 0#32 = .ok (.gedet .falling true) ∧
  decode 0x21000000#32 0x3E800000#32 = .ok (.quant 0x3E800000#32) ∧
  decode 0x30000005#32 0x3F800000#32 = .ok (.wrin 5 0x3F800000#32) ∧
  decode 0x31000007#32 0#32 = .ok (.rdout 7) ∧
  decode 0x320A0000#32 0#32 = .ok (.rdreg 0x0A) ∧
  decode 0x30010BB8#32 0x3F800000#32 = .error (.selNotZero 1)

/-- A step runs the decoded command on the state with that command taken from the port (log entry 1). -/
def Obligations.StepRunsDecodedCommand : Prop :=
  ∀ (s : State) (cmd w : Word) (rest : List HostInput) (i : Instr),
    s.pending = .command cmd w :: rest → decode cmd w = .ok i →
      step s = exec i { s with pending := rest }

/-- A step answers an illegal command word with ILLEGAL, taking it from the port (R86; the port is log entry 1). -/
def Obligations.StepRefusesIllegalWord : Prop :=
  ∀ (s : State) (cmd w : Word) (rest : List HostInput),
    s.pending = .command cmd w :: rest → illegal cmd →
      step s = .next (raised .illegal { s with pending := rest })

/-- R271: exactly the illegal command words raise ILLEGAL; every other one decodes. -/
def Obligations.IllegalWordsRaise : Prop :=
  ∀ (cmd w : Word) (s : State),
    (illegal cmd → runCommand cmd w s = .next (raised .illegal s)) ∧
    (¬ illegal cmd → ∃ i, decode cmd w = .ok i ∧ i.wellFormed = true ∧ runCommand cmd w s = exec i s)

/-- Decoding an encoded well-formed command gives it back (R82 to R86). -/
def Obligations.DecodeOfEncode : Prop :=
  ∀ i : Instr, i.wellFormed = true → decode (encode i).1 (encode i).2 = .ok i

/-- Encoding a decoded command gives its command word back, and its data word where the command reads it (R84). -/
def Obligations.EncodeOfDecode : Prop :=
  ∀ (cmd w : Word) (i : Instr), decode cmd w = .ok i →
    i.wellFormed = true ∧ (encode i).1 = cmd ∧
    (op cmd ∈ [0x01, 0x08, 0x09, 0x0B, 0x21, 0x30] → (encode i).2 = w) ∧
    (op cmd ∉ [0x01, 0x08, 0x09, 0x0B, 0x21, 0x30] → ∀ w' : Word, decode cmd w' = .ok i)

/-- An idle block keeps its state (R282); that nothing pending is a step of its own is the model's (log entry 1). -/
def Obligations.IdleStepKeepsState : Prop :=
  ∀ s : State, s.pending = [] → step s = .next s

/-- R290: after hardware reset and after INIT every register holds its reset value; INIT takes SR and X_RECS from
its operand and writes no buffer. -/
def Obligations.ResetValues : Prop :=
  (∀ p ∈ resetValues, exec (.rdreg p.1) State.reset = .next { State.reset with responses := [ok p.2] }) ∧
  (∀ (s : State) (w : Word), ¬ rateRefused w →
    ∃ t, exec (.init w) s = .next t ∧ t.ibuf = s.ibuf ∧ t.obuf = s.obuf ∧ t.sr = rate w ∧
      t.xRecs = F32.mul 0x3DCCCCCD#32 (rate w) ∧
      ∀ p ∈ resetValues, p.1 ≠ 0x0A → p.1 ≠ 0x20 →
        exec (.rdreg p.1) t = .next { t with responses := ok p.2 :: t.responses })

/-- The external reset input of R290 as an input of the host (log entry 10): every register takes its reset value,
the buffers keep their words, and no response is given. -/
def Obligations.ResetInput : Prop :=
  ∀ (s : State) (rest : List HostInput), s.pending = .hardwareReset :: rest →
    ∃ t, step s = .next t ∧ t.ibuf = s.ibuf ∧ t.obuf = s.obuf ∧ t.params = s.params ∧ t.pending = rest ∧
      t.responses = s.responses ∧
      ∀ p ∈ resetValues, exec (.rdreg p.1) t = .next { t with responses := ok p.2 :: t.responses }

/-! Invariants and whole-machine rules. -/

/-- The reset state is legal. -/
def Obligations.ResetIsLegal : Prop := State.reset.Legal

/-- Every step keeps a legal state legal: every register within the values of R24, X_PERIOD as R150 says, and both
buffers in their canonical form within their address spaces. -/
def Obligations.StepKeepsLegal : Prop :=
  ∀ s t : State, s.Legal → step s = .next t → t.Legal

/-- Every command answers with a next state, and so does every step: nothing faults and nothing is refused. -/
def Obligations.EveryStepAnswersNext : Prop :=
  (∀ (i : Instr) (s : State), ∃ t, exec i s = .next t) ∧ ∀ s : State, ∃ t, step s = .next t

/-- R270: STATUS and the response of every command word. -/
def Obligations.StatusAndResponse : Prop :=
  ∀ (s : State) (cmd w : Word), ∃ t r, runCommand cmd w s = .next t ∧ t.responses = r :: s.responses ∧
    (r.err = true → r = refusal ∧ ∃ e, t = raised e s) ∧
    (r.err = false → op cmd ≠ 0x08 → op cmd ≠ 0x0F → t.status = s.status) ∧
    (r.err = false → op cmd = 0x08 → t.status = 0#5) ∧
    (r.err = false → op cmd = 0x0F → t.status = s.status &&& ~~~(BitVec.ofNat 5 (imm cmd))) ∧
    exec (.rdreg 0x00) t = .next { t with responses := ok (t.status.setWidth 32) :: t.responses }

/-- R272 to R275: when a command raises each of its four errors, and, seen from STATUS = 0, only then. -/
def Obligations.ErrorCauses : Prop :=
  ∀ (i : Instr) (s : State),
    raisesExactly .badIndex i s
      ((∃ n w, i = .wrp n w ∧ (n < 1 ∨ 6 < n)) ∨ (∃ n, i = .rdreg n ∧ (n = 0x17 ∨ 0x22 ≤ n))) ∧
    raisesExactly .badArg i s
      ((∃ w, (i = .init w ∨ i = .srate w) ∧ rateRefused w) ∨
        (∃ w, i = .xinit w ∧ (F32.isNaN w = true ∨ F32.lt w 0x00000000#32 = true)) ∨
        (∃ n, i = .bsize n ∧ (n = 0 ∨ 1024 < n))) ∧
    raisesExactly .badAddr i s
      ((∃ a w, i = .wrin a w ∧ 2048 ≤ a) ∨ (∃ a, i = .rdout a ∧ 4096 ≤ a) ∨ (∃ n, i = .step n ∧ 1024 ≤ n)) ∧
    raisesExactly .blockMismatch i s (∃ n, i = .render n ∧ n ≠ s.bs)

/-- Which commands may change which registers (R24's last column, R28, R101, R292), and that no step changes the
open parameters. -/
def Obligations.RegisterWriters : Prop :=
  (∀ (i : Instr) (s t : State), exec i s = .next t →
    (t.par ≠ s.par → i.opcode ∈ [.wrp, .init]) ∧
    (t.omode ≠ s.omode → i.opcode ∈ [.setom, .init]) ∧
    (t.rmode ≠ s.rmode → i.opcode ∈ [.setrm, .init]) ∧
    (t.range ≠ s.range → i.opcode ∈ [.setrg, .init]) ∧
    (t.sr ≠ s.sr → i.opcode ∈ [.srate, .init]) ∧
    (t.bs ≠ s.bs → i.opcode ∈ [.bsize, .init]) ∧
    (t.clkConn ≠ s.clkConn → i.opcode ∈ [.clkc, .init]) ∧
    (t.tr ≠ s.tr → i.opcode ∈ [.xinit, .init]) ∧
    (t.mustReset ≠ s.mustReset → i.opcode ∈ [.srate, .bsize, .clkc, .step, .render, .init]) ∧
    (t.prevOm ≠ s.prevOm → i.opcode ∈ [.step, .render, .init]) ∧
    (t.gen ≠ s.gen → i.opcode ∈ [.step, .render, .grst, .init]) ∧
    (t.trigFlag ≠ s.trigFlag → i.opcode ∈ [.step, .render, .init]) ∧
    (t.clkFlag ≠ s.clkFlag → i.opcode ∈ [.step, .render, .init]) ∧
    (t.fEff ≠ s.fEff → i.opcode ∈ [.step, .render, .init]) ∧
    (t.ext ≠ s.ext → i.opcode ∈ [.step, .render, .xrst, .xinit, .init]) ∧
    (t.xRecs ≠ s.xRecs → i.opcode ∈ [.xinit, .srate, .init]) ∧
    (t.qState ≠ s.qState → i.opcode ∈ [.step, .render, .quant, .qrst, .init])) ∧
  ∀ s t : State, step s = .next t → t.params = s.params

/-- IBUF changes only by WRIN, and OBUF only by STEP and RENDER (R24, R63, R64, R67). -/
def Obligations.BufferWriters : Prop :=
  ∀ (i : Instr) (s t : State), exec i s = .next t →
    (i.opcode ≠ .wrin → t.ibuf = s.ibuf) ∧
    (i.opcode ∉ [.step, .render] → t.obuf = s.obuf)

/-! Results of the commands. Each equation is the whole next state, so it is the command's frame as well. -/

/-- R238. -/
def Obligations.NopResult : Prop :=
  (∀ s : State, exec .nop s = .next { s with responses := ok 0#32 :: s.responses }) ∧
  encodedAs 0x00 (fun sel imm => sel = 0 ∧ imm = 0) (fun _ _ _ => .nop)

/-- R230. -/
def Obligations.WrpResult : Prop :=
  (∀ (n : Nat) (w : Word) (s : State), 1 ≤ n → n ≤ 6 →
    ∃ p : ParamRegs, exec (.wrp n w) s = .next { s with par := p, responses := ok 0#32 :: s.responses } ∧
      param p n = paramValue n w ∧ ∀ m, 1 ≤ m → m ≤ 6 → m ≠ n → param p m = param s.par m) ∧
  (∀ (n : Nat) (w : Word) (s : State), n < 1 ∨ 6 < n → exec (.wrp n w) s = .next (raised .badIndex s)) ∧
  encodedAs 0x01 (fun _ imm => imm = 0) (fun sel _ w => .wrp sel w)

/-- R234, R235, R236: any code is accepted, one outside the table gives the default. -/
def Obligations.ModeSetterResults : Prop :=
  (∀ (n : Nat) (s : State), ∃ m : OutMode,
    exec (.setom n) s = .next { s with omode := m, responses := ok 0#32 :: s.responses } ∧
      m.code = if 1 ≤ n ∧ n ≤ 4 then n else 1) ∧
  (∀ (n : Nat) (s : State), ∃ m : RampMode,
    exec (.setrm n) s = .next { s with rmode := m, responses := ok 0#32 :: s.responses } ∧
      m.code = if n ≤ 2 then n else 0) ∧
  (∀ (n : Nat) (s : State), ∃ r : FreqRange,
    exec (.setrg n) s = .next { s with range := r, responses := ok 0#32 :: s.responses } ∧
      r.code = if n ≤ 2 then n else 1) ∧
  encodedAs 0x02 (fun sel _ => sel = 0) (fun _ imm _ => .setom imm) ∧
  encodedAs 0x03 (fun sel _ => sel = 0) (fun _ imm _ => .setrm imm) ∧
  encodedAs 0x04 (fun sel _ => sel = 0) (fun _ imm _ => .setrg imm)

/-- R233. -/
def Obligations.ClkcResult : Prop :=
  (∀ (c : Bool) (s : State),
    exec (.clkc c) s = .next { s with
      clkConn := c
      mustReset := if s.clkConn = false ∧ c = true then true else s.mustReset
      responses := ok 0#32 :: s.responses }) ∧
  encodedAs 0x05 (fun sel imm => sel = 0 ∧ imm < 2) (fun _ imm _ => .clkc (imm == 1))

/-- R237. -/
def Obligations.InitResult : Prop :=
  (∀ (w : Word) (s : State), ¬ rateRefused w →
    exec (.init w) s = .next
      { params := s.params
        status := 0#5
        par := { freq := 0x00000000#32, slope := 0x3F000000#32, shape := 0x3F000000#32, smooth := 0x3F000000#32,
                 shift := 0x3F000000#32, ratioIn := 0x3F000000#32 }
        omode := .gates
        rmode := .looping
        range := .audio
        sr := rate w
        bs := 64
        clkConn := false
        tr := 0x3DCCCCCD#32
        mustReset := false
        prevOm := .gates
        gen := { phase := 0x00000000#32, active := false, eocp := false, y := 0x00000000#32 }
        trigFlag := .low
        clkFlag := .low
        fEff := 0x00000000#32
        ext := { phase := 0x00000000#32, period := 0x00000000#32, count := 0, edge := false, hasp := false,
                 active := false, eocp := false, qcount := 0 }
        xRecs := F32.mul 0x3DCCCCCD#32 (rate w)
        qState := none
        ibuf := s.ibuf
        obuf := s.obuf
        pending := s.pending
        responses := ok 0#32 :: s.responses }) ∧
  (∀ (w : Word) (s : State), rateRefused w → exec (.init w) s = .next (raised .badArg s)) ∧
  encodedAs 0x08 (fun sel imm => sel = 0 ∧ imm = 0) (fun _ _ w => .init w)

/-- R231. -/
def Obligations.SrateResult : Prop :=
  (∀ (w : Word) (s : State), ¬ rateRefused w →
    exec (.srate w) s = .next { s with
      sr := rate w
      xRecs := F32.mul s.tr (rate w)
      mustReset := true
      responses := ok 0#32 :: s.responses }) ∧
  (∀ (w : Word) (s : State), rateRefused w → exec (.srate w) s = .next (raised .badArg s)) ∧
  encodedAs 0x09 (fun sel imm => sel = 0 ∧ imm = 0) (fun _ _ w => .srate w)

/-- R232. -/
def Obligations.BsizeResult : Prop :=
  (∀ (n : Nat) (s : State), 1 ≤ n → n ≤ 1024 →
    exec (.bsize n) s = .next { s with bs := n, mustReset := true, responses := ok 0#32 :: s.responses }) ∧
  (∀ (n : Nat) (s : State), n < 1 ∨ 1024 < n → exec (.bsize n) s = .next (raised .badArg s)) ∧
  encodedAs 0x0A (fun sel _ => sel = 0) (fun _ imm _ => .bsize imm)

/-- R140. -/
def Obligations.XinitResult : Prop :=
  (∀ (w : Word) (s : State), F32.isNaN w = false → F32.lt w 0x00000000#32 = false →
    exec (.xinit w) s = .next { s with
      tr := if F32.lt 0x41200000#32 w then 0x41200000#32 else w
      xRecs := F32.mul (if F32.lt 0x41200000#32 w then 0x41200000#32 else w) s.sr
      ext := { phase := 0x00000000#32, period := 0x00000000#32, count := 0, edge := false, hasp := false,
               active := false, eocp := false, qcount := 0 }
      responses := ok 0#32 :: s.responses }) ∧
  (∀ (w : Word) (s : State), F32.isNaN w = true ∨ F32.lt w 0x00000000#32 = true →
    exec (.xinit w) s = .next (raised .badArg s)) ∧
  encodedAs 0x0B (fun sel imm => sel = 0 ∧ imm = 0) (fun _ _ w => .xinit w)

/-- R192, R142, R125: the three resets. -/
def Obligations.PartialResetResults : Prop :=
  (∀ s : State, exec .grst s = .next { s with
    gen := { phase := 0x00000000#32, active := false, eocp := false, y := 0x00000000#32 }
    responses := ok 0#32 :: s.responses }) ∧
  (∀ s : State, exec .xrst s = .next { s with
    ext := { phase := 0x00000000#32, period := 0x00000000#32, count := 0, edge := false, hasp := false,
             active := false, eocp := false, qcount := 0 }
    responses := ok 0#32 :: s.responses }) ∧
  (∀ s : State, exec .qrst s = .next { s with qState := none, responses := ok 0#32 :: s.responses }) ∧
  encodedAs 0x0C (fun sel imm => sel = 0 ∧ imm = 0) (fun _ _ _ => .grst) ∧
  encodedAs 0x0D (fun sel imm => sel = 0 ∧ imm = 0) (fun _ _ _ => .xrst) ∧
  encodedAs 0x0E (fun sel imm => sel = 0 ∧ imm = 0) (fun _ _ _ => .qrst)

/-- R239. -/
def Obligations.ClrstResult : Prop :=
  (∀ (m : BitVec 5) (s : State), ∃ t,
    exec (.clrst m) s = .next t ∧ t = { s with status := t.status, responses := ok 0#32 :: s.responses } ∧
      ∀ k, k < 5 → t.status.getLsbD k = (s.status.getLsbD k && !m.getLsbD k)) ∧
  encodedAs 0x0F (fun sel imm => sel = 0 ∧ imm < 32) (fun _ imm _ => .clrst (BitVec.ofNat 5 imm))

/-- R101, R103: GEDET returns the edge function, whose code is { prev[0] XOR cur, cur }. -/
def Obligations.GedetResult : Prop :=
  (∀ (prev : GateFlag) (s : State),
    exec (.gedet prev true) s = .next { s with
      responses := ok (if prev = .low ∨ prev = .falling then 3#32 else 1#32) :: s.responses } ∧
    exec (.gedet prev false) s = .next { s with
      responses := ok (if prev = .high ∨ prev = .rising then 2#32 else 0#32) :: s.responses }) ∧
  (∀ (prev : GateFlag) (cur : Bool),
    (edge prev cur).code = 2 * ((prev.code % 2 == 1) ^^ cur).toNat + cur.toNat) ∧
  encodedAs 0x20 (fun sel imm => sel = 0 ∧ imm < 8)
    (fun _ imm _ => .gedet (GateFlag.ofCode (imm % 4)) (decide (4 ≤ imm)))

/-- R121, R124: the lookup, and QUANT. -/
def Obligations.QuantResult : Prop :=
  (∀ (w : Word) (s : State), ∃ q : Fin 20,
    exec (.quant w) s = .next { s with
      qState := some q
      responses := ok (BitVec.ofNat 32 q.val) :: s.responses } ∧
    (q.val : Int) =
      let v := F32.mul (sanitized w 0x00000000#32 0x3F800000#32 0x00000000#32) 0x41980000#32
      let t := match s.qState with
        | none => F32.add v 0x3F000000#32
        | some p => if F32.lt (F32.int2f p.val) v then F32.add v 0x3E800000#32 else F32.add v 0x3F400000#32
      min 19 (max 0 (F32.floor t))) ∧
  encodedAs 0x21 (fun sel imm => sel = 0 ∧ imm = 0) (fun _ _ w => .quant w)

/-- R240. -/
def Obligations.WrinResult : Prop :=
  (∀ (a : Nat) (w : Word) (s : State), a < 2048 → ∃ t,
    exec (.wrin a w) s = .next t ∧
      t = { s with ibuf := t.ibuf, responses := ok 0#32 :: s.responses } ∧
      ∀ b, t.ibufWord b = if b = a then w else s.ibufWord b) ∧
  (∀ (a : Nat) (w : Word) (s : State), 2048 ≤ a → exec (.wrin a w) s = .next (raised .badAddr s)) ∧
  encodedAs 0x30 (fun sel _ => sel = 0) (fun _ imm w => .wrin imm w)

/-- R241. -/
def Obligations.RdoutResult : Prop :=
  (∀ (a : Nat) (s : State), a < 4096 →
    exec (.rdout a) s = .next { s with responses := ok (s.obufWord a) :: s.responses }) ∧
  (∀ (a : Nat) (s : State), 4096 ≤ a → exec (.rdout a) s = .next (raised .badAddr s)) ∧
  encodedAs 0x31 (fun sel _ => sel = 0) (fun _ imm _ => .rdout imm)

/-- R242. -/
def Obligations.RdregResult : Prop :=
  (∀ s : State, ∀ p ∈ registers s,
    exec (.rdreg p.1) s = .next { s with responses := ok p.2 :: s.responses }) ∧
  (∀ (n : Nat) (s : State), n < 0x22 → n ≠ 0x17 → ∃ v, (n, v) ∈ registers s) ∧
  (∀ (n : Nat) (s : State), n = 0x17 ∨ 0x22 ≤ n → exec (.rdreg n) s = .next (raised .badIndex s)) ∧
  encodedAs 0x32 (fun _ imm => imm = 0) (fun sel _ _ => .rdreg sel)

/-! The frame. -/

/-- STEP completes on every frame index below 1024, and what it leaves unchanged (R190, R64). -/
def Obligations.StepFrame : Prop :=
  (∀ (n : Nat) (s : State), n < 1024 → ∃ t, exec (.step n) s = .next t ∧
    t.responses = ok 0#32 :: s.responses ∧ t.status = s.status ∧ t.par = s.par ∧ t.omode = s.omode ∧
    t.rmode = s.rmode ∧ t.range = s.range ∧ t.sr = s.sr ∧ t.bs = s.bs ∧ t.clkConn = s.clkConn ∧ t.tr = s.tr ∧
    t.xRecs = s.xRecs ∧ t.params = s.params ∧ t.pending = s.pending ∧ t.ibuf = s.ibuf ∧
    t.prevOm = s.omode ∧
    (s.clkConn = false → t.mustReset = s.mustReset ∧ t.qState = s.qState ∧ t.ext = s.ext) ∧
    ∀ a, a < 4 * n ∨ 4 * n + 3 < a → t.obufWord a = s.obufWord a) ∧
  (∀ (n : Nat) (s : State), 1024 ≤ n → exec (.step n) s = .next (raised .badAddr s)) ∧
  encodedAs 0x10 (fun sel _ => sel = 0) (fun _ imm _ => .step imm)

/-- R100, R102: the threshold test and the edge flags of a frame. -/
def Obligations.StepEdgeFlags : Prop :=
  (∀ x : Word, level x = true ↔ F32.isNaN x = false ∧ F32.le 0x3F800000#32 x = true) ∧
  (∀ x : Word, F32.isNaN x = true → level x = false) ∧
  level 0x7F800000#32 = true ∧ level 0xFF800000#32 = false ∧
  ∀ (n : Nat) (s : State), n < 1024 → ∃ t, exec (.step n) s = .next t ∧
    t.trigFlag = edge s.trigFlag (level (s.ibufWord (2 * n))) ∧
    t.clkFlag = edge s.clkFlag (level (s.ibufWord (2 * n + 1)))

/-- R171, R172, R173, R189 in the free path: F_EFF is the clamped frequency, and in a legal state it lies in
[F_EPS, F_MAX]. -/
def Obligations.FreePathFrequency : Prop :=
  ∀ (n : Nat) (s : State), n < 1024 → s.clkConn = false → ∃ t, exec (.step n) s = .next t ∧
    t.fEff = freeF s ∧ (s.Legal → F32.within 0x33800000#32 0x3F000000#32 t.fEff = true)

/-- R174, R176: the trigger and the advance of the free path, with no mode change pending. -/
def Obligations.FreePathPhase : Prop :=
  ∀ (n : Nat) (s : State), n < 1024 → s.clkConn = false → s.omode = s.prevOm →
    ∃ t, exec (.step n) s = .next t ∧
      let restart := triggered s n && decide (s.rmode ≠ .looping)
      let p := if restart then 0x00000000#32 else s.gen.phase
      let active := if triggered s n ∧ s.rmode = .ar then true else s.gen.active
      let sum := F32.add p (freeF s)
      (s.rmode ≠ .ar →
        t.gen.phase = (if F32.le 0x3F800000#32 sum then F32.sub sum 0x3F800000#32 else sum) ∧
        t.gen.eocp = F32.le 0x3F800000#32 sum ∧ t.gen.active = s.gen.active) ∧
      (s.rmode = .ar → active = true →
        t.gen.phase = (if F32.le 0x3F800000#32 sum then 0x3F800000#32 else sum) ∧
        t.gen.eocp = F32.le 0x3F800000#32 sum ∧ t.gen.active = !F32.le 0x3F800000#32 sum) ∧
      (s.rmode = .ar → active = false →
        t.gen.phase = p ∧ t.gen.eocp = false ∧ t.gen.active = false)

/-- R175: what the free path gives the frame, with no mode change pending. -/
def Obligations.FreePathOutputs : Prop :=
  ∀ (n : Nat) (s : State), s.clkConn = false → s.omode = s.prevOm →
    frameOut s n =
      { p := if triggered s n ∧ s.rmode ≠ .looping then 0x00000000#32 else s.gen.phase
        f := freeF s
        eoc := if triggered s n ∧ s.rmode ≠ .looping then false else s.gen.eocp
        running := decide (s.rmode ≠ .ar) || (s.gen.active || triggered s n) }

/-- R180, R181, R182: G_Y after a frame; the old G_Y is +0.0 where the frame begins with a mode-change reset. -/
def Obligations.TransferCurve : Prop :=
  ∀ (n : Nat) (s : State), n < 1024 → ∃ t, exec (.step n) s = .next t ∧
    t.gen.y = smoothRule s.par.smooth (frameOut s n).f
      (shapeRule (warpOf (frameOut s n) s.par.slope).1 s.par.shape)
      (if s.omode = s.prevOm then s.gen.y else 0x00000000#32)

/-- R183. -/
def Obligations.GatesChannels : Prop :=
  ∀ (n : Nat) (s : State), n < 1024 → s.omode = .gates → ∃ t, exec (.step n) s = .next t ∧
    let o := frameOut s n
    let rise := (warpOf o s.par.slope).2
    t.obufWord (4 * n) = level1 rise ∧
    t.obufWord (4 * n + 1) = level1 (o.running && !rise) ∧
    t.obufWord (4 * n + 2) = level1 o.eoc ∧
    t.obufWord (4 * n + 3) = level1 (F32.lt s.par.shift t.gen.y)

/-- R184. -/
def Obligations.AmplitudeChannels : Prop :=
  ∀ (n : Nat) (s : State), n < 1024 → s.omode = .amplitude → ∃ t, exec (.step n) s = .next t ∧
    t.obufWord (4 * n) = t.gen.y ∧
    t.obufWord (4 * n + 1) = F32.sub 0x3F800000#32 t.gen.y ∧
    t.obufWord (4 * n + 2) = F32.sub (F32.mul 0x40000000#32 t.gen.y) 0x3F800000#32 ∧
    t.obufWord (4 * n + 3) = F32.sub t.gen.y s.par.shift ∧
    (s.Legal →
      F32.within 0x00000000#32 0x3F800000#32 (t.obufWord (4 * n)) = true ∧
      F32.within 0x00000000#32 0x3F800000#32 (t.obufWord (4 * n + 1)) = true ∧
      F32.within 0xBF800000#32 0x3F800000#32 (t.obufWord (4 * n + 2)) = true ∧
      F32.within 0xBF800000#32 0x3F800000#32 (t.obufWord (4 * n + 3)) = true)

/-- R185. -/
def Obligations.SlopePhaseChannels : Prop :=
  ∀ (n : Nat) (s : State), n < 1024 → s.omode = .slopePhase → ∃ t, exec (.step n) s = .next t ∧
    let o := frameOut s n
    let ps := wrapRule (F32.add o.p s.par.shift)
    t.obufWord (4 * n) = o.p ∧
    t.obufWord (4 * n + 1) = (warpOf o s.par.slope).1 ∧
    t.obufWord (4 * n + 2) = ps ∧
    t.obufWord (4 * n + 3) = (if o.running then (warpRule ps s.par.slope).1 else 0x00000000#32) ∧
    (s.Legal → F32.within 0x00000000#32 0x3F800000#32 ps = true)

/-- R186. -/
def Obligations.FrequencyChannels : Prop :=
  ∀ (n : Nat) (s : State), n < 1024 → s.omode = .frequency → ∃ t, exec (.step n) s = .next t ∧
    t.obufWord (4 * n) = t.fEff ∧
    t.obufWord (4 * n + 1) = F32.mul t.fEff s.sr ∧
    t.obufWord (4 * n + 2) = t.gen.y ∧
    t.obufWord (4 * n + 3) = F32.sub t.gen.y s.par.shift ∧
    (s.Legal →
      F32.within 0x33800000#32 0x3F000000#32 (t.obufWord (4 * n)) = true ∧
      F32.lt 0x00000000#32 (t.obufWord (4 * n + 1)) = true ∧
      F32.le (t.obufWord (4 * n + 1)) 0x48BB8000#32 = true ∧
      F32.within 0x00000000#32 0x3F800000#32 (t.obufWord (4 * n + 2)) = true ∧
      F32.within 0xBF800000#32 0x3F800000#32 (t.obufWord (4 * n + 3)) = true)

/-- R293 and step 1 of R190: a frame under a changed output mode is that frame after a generator reset, and SETOM
itself resets nothing. -/
def Obligations.ModeChangeReset : Prop :=
  (∀ (n : Nat) (s : State), n < 1024 → s.omode ≠ s.prevOm →
    exec (.step n) s = exec (.step n) { s with
      prevOm := s.omode
      gen := { phase := 0x00000000#32, active := false, eocp := false, y := 0x00000000#32 } }) ∧
  (∀ (k : Nat) (s t : State), exec (.setom k) s = .next t → t.gen = s.gen ∧ t.prevOm = s.prevOm)

/-- R188: the clocked path. MUST_RESET clears the extractor first, the quantizer selects the ratio from the table of
R120, the extractor steps, and the generator registers mirror it. -/
def Obligations.ClockedPath : Prop :=
  ∀ (n : Nat) (s : State), n < 1024 → s.clkConn = true → ∃ t, exec (.step n) s = .next t ∧
    let e := if s.mustReset then
      { phase := 0x00000000#32, period := 0x00000000#32, count := 0, edge := false, hasp := false, active := false,
        eocp := false, qcount := 0 } else s.ext
    let q := quantIndex s.qState s.par.ratioIn
    let x := xstep (ratio q).1 (ratio q).2 (decide (s.range = .highAudio)) (decide (s.rmode = .ar))
      (edge s.clkFlag (level (s.ibufWord (2 * n + 1)))) s.xRecs e
    t.mustReset = false ∧ t.qState = some q ∧ t.ext = x.2 ∧ frameOut s n = x.1 ∧ t.fEff = x.1.f ∧
      t.gen.phase = t.ext.phase ∧ t.gen.eocp = t.ext.eocp ∧ t.gen.active = t.ext.active

/-! The extractor's step. -/

/-- From R144, R145, R146: the counter, the period estimate, the edge bits and the resync. `one` is the one-shot
behaviour of R143. That the first rising edge leaves X_HASP and X_PERIOD as they are (R145 and R146 never both run on
one frame) is the model's reading (log entry 8, DEDUCED). -/
def Obligations.ExtractorMeasures : Prop :=
  ∀ (m : Word) (sub : Nat) (audio allowAr : Bool) (clk : GateFlag) (recs : Word) (e : ExtRegs),
    let x := (xstep m sub audio allowAr clk recs e).2
    let o := (xstep m sub audio allowAr clk recs e).1
    let count := min (e.count + 1) 16777216
    let meas := F32.int2f count
    let one := allowAr && !audio
    (clk ≠ .rising →
      x.count = count ∧ x.edge = e.edge ∧ x.hasp = e.hasp ∧ x.period = e.period ∧ x.qcount = e.qcount ∧
      o.p = e.phase ∧ o.eoc = e.eocp) ∧
    (clk = .rising → e.edge = false →
      x.count = 0 ∧ x.edge = true ∧ x.hasp = e.hasp ∧ x.period = e.period ∧ x.qcount = 0 ∧
      o.p = 0x00000000#32 ∧ o.running = true ∧ o.eoc = (!one && e.eocp)) ∧
    (clk = .rising → e.edge = true → e.hasp = false →
      x.count = 0 ∧ x.edge = true ∧ x.hasp = true ∧ x.period = meas ∧ x.qcount = 0 ∧
      o.p = 0x00000000#32 ∧ o.running = true ∧ o.eoc = (!one && e.eocp)) ∧
    (clk = .rising → e.edge = true → e.hasp = true →
      x.count = 0 ∧ x.edge = true ∧ x.hasp = true ∧
      x.period = F32.add e.period
        (F32.mul (F32.div meas (F32.add meas recs)) (F32.sub meas e.period)) ∧
      o.running = true ∧ o.eoc = (!one && e.eocp) ∧
      (one = true → o.p = 0x00000000#32 ∧ x.qcount = e.qcount) ∧
      (audio = true → o.p = e.phase ∧ x.qcount = e.qcount) ∧
      (one = false → audio = false → sub ≤ e.qcount + 1 → o.p = 0x00000000#32 ∧ x.qcount = 0) ∧
      (one = false → audio = false → e.qcount + 1 < sub → o.p = e.phase ∧ x.qcount = e.qcount + 1))

/-- R147: the frequency, F_EPS before the period is known. -/
def Obligations.ExtractorFrequency : Prop :=
  ∀ (m : Word) (sub : Nat) (audio allowAr : Bool) (clk : GateFlag) (recs : Word) (e : ExtRegs),
    let x := xstep m sub audio allowAr clk recs e
    x.1.f = if x.2.hasp then
      F32.clamp (F32.div m (F32.mul x.2.period (F32.int2f sub))) 0x33800000#32 0x3F000000#32
    else 0x33800000#32

/-- R148, R149: the outputs are those before the advance, and the advance. -/
def Obligations.ExtractorAdvances : Prop :=
  ∀ (m : Word) (sub : Nat) (audio allowAr : Bool) (clk : GateFlag) (recs : Word) (e : ExtRegs),
    let x := (xstep m sub audio allowAr clk recs e).2
    let o := (xstep m sub audio allowAr clk recs e).1
    let one := allowAr && !audio
    let active := e.active || (one && decide (clk = .rising))
    let sum := F32.add o.p o.f
    o.running = (!one || active) ∧
    (x.hasp = false → x.phase = o.p ∧ x.eocp = false ∧ x.active = active) ∧
    (x.hasp = true → one = false →
      x.phase = (if F32.le 0x3F800000#32 sum then F32.sub sum 0x3F800000#32 else sum) ∧
      x.eocp = F32.le 0x3F800000#32 sum ∧ x.active = active) ∧
    (x.hasp = true → one = true → active = true →
      x.phase = (if F32.le 0x3F800000#32 sum then 0x3F800000#32 else sum) ∧
      x.eocp = F32.le 0x3F800000#32 sum ∧ x.active = !F32.le 0x3F800000#32 sum) ∧
    (x.hasp = true → one = true → active = false →
      x.phase = o.p ∧ x.eocp = false ∧ x.active = false)

/-- R150: from legal registers, every frequency is in [F_EPS, F_MAX], and X_PERIOD is +0.0 while X_HASP = 0 and in
[1, 2^24] afterwards. -/
def Obligations.ExtractorSafety : Prop :=
  ∀ (q : Fin 20) (audio allowAr : Bool) (clk : GateFlag) (recs : Word) (e : ExtRegs),
    e.Legal → F32.within 0x00000000#32 0x4AEA6000#32 recs = true →
    let x := xstep (ratio q).1 (ratio q).2 audio allowAr clk recs e
    F32.within 0x33800000#32 0x3F000000#32 x.1.f = true ∧
    (x.2.hasp = false → x.2.period = 0x00000000#32) ∧
    (x.2.hasp = true → F32.within 0x3F800000#32 0x4B800000#32 x.2.period = true)

/-- From R151: a clock of constant interval. At a rising edge after the first one, n frames after the last, the
estimate is n: the first interval is taken whole, and an estimate of n is kept exactly. The frequency is m / (n s). -/
def Obligations.ConstantClockKeepsPeriod : Prop :=
  ∀ (n : Nat) (m : Word) (sub : Nat) (audio allowAr : Bool) (recs : Word) (e : ExtRegs),
    1 ≤ n → n ≤ 16777216 → F32.within 0x00000000#32 0x4AEA6000#32 recs = true →
    e.edge = true → (e.hasp = true → e.period = F32.int2f n) → min (e.count + 1) 16777216 = n →
    let x := xstep m sub audio allowAr .rising recs e
    x.2.hasp = true ∧ x.2.period = F32.int2f n ∧ x.2.count = 0 ∧
      x.1.f = F32.clamp (F32.div m (F32.mul (F32.int2f n) (F32.int2f sub))) 0x33800000#32 0x3F000000#32

/-! Properties. -/

/-- R193: from every legal state, whatever IBUF holds, every channel of every frame of STEP and RENDER is finite. -/
def Obligations.FiniteOutput : Prop :=
  ∀ s : State, s.Legal →
    (∀ n, n < 1024 → ∃ t, exec (.step n) s = .next t ∧
      ∀ k, k < 4 → F32.isFinite (t.obufWord (4 * n + k)) = true) ∧
    ∃ t, exec (.render s.bs) s = .next t ∧ ∀ a, a < 4 * s.bs → F32.isFinite (t.obufWord a) = true

/-- R191: RENDER BS is STEP 0 to STEP BS - 1 in order, answered once; another size raises and writes nothing; OBUF
words from 4 BS upward are kept (R64). -/
def Obligations.RenderIsSteps : Prop :=
  (∀ s : State, s.bs ≤ 1024 → ∃ t u, exec (.render s.bs) s = .next t ∧ steps 0 s.bs s = some u ∧
    t = { u with responses := ok 0#32 :: s.responses } ∧
    ∀ a, 4 * s.bs ≤ a → t.obufWord a = s.obufWord a) ∧
  (∀ (n : Nat) (s : State), n ≠ s.bs → exec (.render n) s = .next (raised .blockMismatch s)) ∧
  encodedAs 0x11 (fun sel _ => sel = 0) (fun _ imm _ => .render imm)

/-- What a RENDER leaves unchanged (R190, R191, R192): the registers no STEP writes. -/
def Obligations.RenderFrame : Prop :=
  ∀ s : State, ∃ t, exec (.render s.bs) s = .next t ∧
    t.responses = ok 0#32 :: s.responses ∧ t.status = s.status ∧ t.par = s.par ∧ t.omode = s.omode ∧
    t.rmode = s.rmode ∧ t.range = s.range ∧ t.sr = s.sr ∧ t.bs = s.bs ∧ t.clkConn = s.clkConn ∧ t.tr = s.tr ∧
    t.xRecs = s.xRecs ∧ t.params = s.params ∧ t.pending = s.pending ∧ t.ibuf = s.ibuf ∧
    (s.clkConn = false → t.mustReset = s.mustReset ∧ t.qState = s.qState ∧ t.ext = s.ext)

/-- R177: in AR, free path, at rest and with no rising trigger, the ramp does not run and the gates rest. -/
def Obligations.AttackReleaseRest : Prop :=
  ∀ (n : Nat) (s : State), n < 1024 → s.clkConn = false → s.omode = .gates → s.prevOm = .gates → s.rmode = .ar →
    s.gen.active = false → triggered s n = false → ∃ t, exec (.step n) s = .next t ∧
      t.gen.active = false ∧ t.gen.phase = s.gen.phase ∧ (frameOut s n).running = false ∧
      t.obufWord (4 * n) = 0x00000000#32 ∧ t.obufWord (4 * n + 1) = 0x00000000#32

/-- From R122: the same input gives the same index again, and from index q the index rises only when
v >= q + 0.75 and falls only when v < q - 0.75, where v = fl(19 x). -/
def Obligations.QuantizerHysteresis : Prop :=
  (∀ (q : Option (Fin 20)) (x : Word), quantIndex (some (quantIndex q x)) x = quantIndex q x) ∧
  (∀ (q : Fin 20) (x : Word),
    (q.val < (quantIndex (some q) x).val → (4 * q.val + 3) * 2 ^ 149 ≤ 4 * F32.val (quantPosition x)) ∧
    ((quantIndex (some q) x).val < q.val → 4 * F32.val (quantPosition x) < (4 * (q.val : Int) - 3) * 2 ^ 149))

/-- R16: every EXP2 of the model has the properties the rule lists. -/
def Obligations.ExpTwoProperties : Prop := ∀ c : Exp2Choice, IsExpTwo (F32.exp2 c)

/-- No EXP2 with R16's properties is shut out: the search that gives a free EXP2 these properties keeps a function
that has them (on a NaN, too, of which R16 says only that there is a value). The search is the model's choice (log
entry 4). -/
def Obligations.EveryExpTwoAllowed : Prop :=
  ∀ f : Word → Word, IsExpTwo f → ∀ x : Word, F32.settledExp2 f x = f x

/-- From R180 and R181: SLOPE = 0 gives u = fl(1 - p) and SLOPE = 1 gives u = p; W(0, h) = 0 and W(1, h) = 1 for
every h; at h = 0.5 the shape is the identity. -/
def Obligations.TransferCurveEnds : Prop :=
  (∀ p : Word, F32.within 0x00000000#32 0x3F800000#32 p = true →
    F32.val (warp p 0x00000000#32).u = F32.val (F32.sub 0x3F800000#32 p) ∧ (warp p 0x00000000#32).rise = false ∧
    warp p 0x3F800000#32 = { u := p, rise := true }) ∧
  (∀ h : Word, F32.within 0x00000000#32 0x3F800000#32 h = true →
    shapeCurve 0x00000000#32 h = 0x00000000#32 ∧ shapeCurve 0x3F800000#32 h = 0x3F800000#32) ∧
  ∀ u : Word, F32.within 0x00000000#32 0x3F800000#32 u = true →
    F32.val (shapeCurve u 0x3F000000#32) = F32.val u
end

