-- ==== Sys2Proof/Laws/Decode.lean ====
section
/-! SUPPORT. The fields of a command word and the codes of the operands, each read back as it was written
(spec/30_encoding.md R82 to R85). -/

namespace Sys2Proof

/-- A command word as a number. -/
theorem toNat_commandWord {op sel imm : Nat} (h1 : op < 256) (h2 : sel < 256) (h3 : imm < 65536) :
    (commandWord op sel imm).toNat = op * 2 ^ 24 + sel * 2 ^ 16 + imm := by
  unfold commandWord
  rw [BitVec.toNat_append, BitVec.toNat_append, BitVec.toNat_ofNat, BitVec.toNat_ofNat, BitVec.toNat_ofNat,
    Nat.mod_eq_of_lt h1, Nat.mod_eq_of_lt h2, Nat.mod_eq_of_lt h3,
    ← Nat.shiftLeft_add_eq_or_of_lt h3, ← Nat.shiftLeft_add_eq_or_of_lt h2]
  simp only [Nat.shiftLeft_eq]
  omega

theorem opField_eq (cmd : Word) : opField cmd = cmd.toNat / 2 ^ 24 := by
  have := cmd.isLt
  simp only [opField, BitVec.extractLsb'_toNat, Nat.shiftRight_eq_div_pow]
  omega

theorem selField_eq (cmd : Word) : selField cmd = cmd.toNat / 2 ^ 16 % 256 := by
  simp only [selField, BitVec.extractLsb'_toNat, Nat.shiftRight_eq_div_pow]

theorem immField_eq (cmd : Word) : immField cmd = cmd.toNat % 65536 := by
  simp only [immField, BitVec.extractLsb'_toNat, Nat.shiftRight_eq_div_pow]
  omega

theorem opField_commandWord {op sel imm : Nat} (h1 : op < 256) (h2 : sel < 256) (h3 : imm < 65536) :
    opField (commandWord op sel imm) = op := by
  rw [opField_eq, toNat_commandWord h1 h2 h3]; omega

theorem selField_commandWord {op sel imm : Nat} (h1 : op < 256) (h2 : sel < 256) (h3 : imm < 65536) :
    selField (commandWord op sel imm) = sel := by
  rw [selField_eq, toNat_commandWord h1 h2 h3]; omega

theorem immField_commandWord {op sel imm : Nat} (h1 : op < 256) (h2 : sel < 256) (h3 : imm < 65536) :
    immField (commandWord op sel imm) = imm := by
  rw [immField_eq, toNat_commandWord h1 h2 h3]; omega

theorem opField_lt (cmd : Word) : opField cmd < 256 := BitVec.isLt _
theorem selField_lt (cmd : Word) : selField cmd < 256 := BitVec.isLt _
theorem immField_lt (cmd : Word) : immField cmd < 65536 := BitVec.isLt _

/-- A command word is its three fields (R82). -/
theorem commandWord_fields (cmd : Word) : commandWord (opField cmd) (selField cmd) (immField cmd) = cmd := by
  apply BitVec.eq_of_toNat_eq
  rw [toNat_commandWord (opField_lt _) (selField_lt _) (immField_lt _), opField_eq, selField_eq, immField_eq]
  omega

@[simp] theorem Opcode.ofCode_code (o : Opcode) : Opcode.ofCode o.code = some o := by cases o <;> rfl

theorem Opcode.code_of_ofCode {n : Nat} {o : Opcode} (h : Opcode.ofCode n = some o) : o.code = n := by
  have := List.find?_some h
  simpa using this

theorem Opcode.code_lt (o : Opcode) : o.code < 256 := by cases o <;> decide

@[simp] theorem GateFlag.ofCode_code (f : GateFlag) : GateFlag.ofCode f.code = f := by cases f <;> rfl

theorem GateFlag.code_lt (f : GateFlag) : f.code < 4 := by cases f <;> decide

theorem GateFlag.code_ofCode (n : Nat) : (GateFlag.ofCode n).code = n % 4 := by
  have h : n % 4 < 4 := Nat.mod_lt _ (by decide)
  unfold GateFlag.ofCode
  generalize n % 4 = k at *
  interval_cases k <;> rfl

theorem Instr.selOperand_lt {i : Instr} (h : i.wellFormed = true) : i.selOperand < 256 := by
  cases i <;> simp_all [Instr.wellFormed, Instr.selOperand]

theorem Instr.immOperand_lt {i : Instr} (h : i.wellFormed = true) : i.immOperand < 65536 := by
  cases i with
  | clkc c => cases c <;> decide
  | clrst m => exact Nat.lt_trans m.isLt (by decide)
  | gedet p c => cases p <;> cases c <;> decide
  | _ => first | exact Nat.zero_lt_succ _ | simpa [Instr.wellFormed, Instr.immOperand] using h

section Encode
variable {i : Instr}

theorem opField_encode (h : i.wellFormed = true) : opField (encode i).1 = i.opcode.code :=
  opField_commandWord (Opcode.code_lt _) (Instr.selOperand_lt h) (Instr.immOperand_lt h)
theorem selField_encode (h : i.wellFormed = true) : selField (encode i).1 = i.selOperand :=
  selField_commandWord (Opcode.code_lt _) (Instr.selOperand_lt h) (Instr.immOperand_lt h)
theorem immField_encode (h : i.wellFormed = true) : immField (encode i).1 = i.immOperand :=
  immField_commandWord (Opcode.code_lt _) (Instr.selOperand_lt h) (Instr.immOperand_lt h)
theorem toNat_encode (h : i.wellFormed = true) :
    (encode i).1.toNat = i.opcode.code * 2 ^ 24 + i.selOperand * 2 ^ 16 + i.immOperand :=
  toNat_commandWord (Opcode.code_lt _) (Instr.selOperand_lt h) (Instr.immOperand_lt h)

end Encode

end Sys2Proof
end

