-- ==== Sys2Proof/Laws/Float.lean ====
section
/-! SUPPORT. Binary32 rounding (spec/00_scope.md R13, R14): rounding respects every representable bound, so an
exact result on one side of a binary32 value stays on that side once rounded; comparisons compare values. -/

namespace Sys2Proof.Machine.F32

/-! Magnitudes: `magVal` is strictly increasing. -/

/-- The gap between the values of magnitude bits `b` and `b + 1`. -/
def ulp (b : Nat) : Nat := 2 ^ (b / 2 ^ 23 - 1)

theorem ulp_pos (b : Nat) : 0 < ulp b := Nat.two_pow_pos _

@[simp] theorem magVal_zero : magVal 0 = 0 := by simp [magVal]

theorem magVal_of_lt {b : Nat} (h : b < 2 ^ 23) : magVal b = b := by
  unfold magVal; rw [if_pos (Nat.div_eq_of_lt h)]

/-- The value of a normal magnitude written as exponent and significand. -/
theorem magVal_normal {e f : Nat} (hf : f < 2 ^ 23) : magVal ((e + 1) * 2 ^ 23 + f) = (2 ^ 23 + f) * 2 ^ e := by
  have h1 : ((e + 1) * 2 ^ 23 + f) / 2 ^ 23 = e + 1 := by omega
  have h2 : ((e + 1) * 2 ^ 23 + f) % 2 ^ 23 = f := by omega
  unfold magVal
  rw [h1, h2, if_neg (by omega)]
  simp

theorem magVal_succ (b : Nat) : magVal (b + 1) = magVal b + ulp b := by
  obtain ⟨e, f, hf, rfl⟩ : ∃ e f, f < 2 ^ 23 ∧ b = e * 2 ^ 23 + f :=
    ⟨b / 2 ^ 23, b % 2 ^ 23, Nat.mod_lt _ (by norm_num), by omega⟩
  have hd : (e * 2 ^ 23 + f) / 2 ^ 23 = e := by omega
  unfold ulp
  rw [hd]
  rcases e with _ | e
  · rcases Nat.lt_or_ge (f + 1) (2 ^ 23) with h | h
    · rw [Nat.zero_mul, Nat.zero_add, magVal_of_lt h, magVal_of_lt hf, Nat.zero_sub, Nat.pow_zero]
    · have : 0 * 2 ^ 23 + f + 1 = (0 + 1) * 2 ^ 23 + 0 := by omega
      rw [this, magVal_normal (by norm_num), magVal_of_lt (by omega)]
      simp only [Nat.pow_zero, Nat.zero_sub]
      omega
  · rcases Nat.lt_or_ge (f + 1) (2 ^ 23) with h | h
    · rw [show (e + 1) * 2 ^ 23 + f + 1 = (e + 1) * 2 ^ 23 + (f + 1) by omega, magVal_normal h, magVal_normal hf]
      simp; ring
    · rw [show (e + 1) * 2 ^ 23 + f + 1 = (e + 1 + 1) * 2 ^ 23 + 0 by omega, magVal_normal (by norm_num),
        magVal_normal hf, show f = 2 ^ 23 - 1 by omega, Nat.add_sub_cancel,
        show 2 ^ (e + 1) = 2 ^ e * 2 from Nat.pow_succ _ _]
      generalize 2 ^ e = x
      omega

theorem magVal_strictMono : StrictMono magVal :=
  strictMono_nat_of_lt_succ fun b => by rw [magVal_succ]; have := ulp_pos b; omega

theorem magVal_le_iff {a b : Nat} : magVal a ≤ magVal b ↔ a ≤ b := magVal_strictMono.le_iff_le
theorem magVal_lt_iff {a b : Nat} : magVal a < magVal b ↔ a < b := magVal_strictMono.lt_iff_lt

/-! Rounding to an integer, ties to even. -/

theorem rne_lt_of_lt {a b c : Nat} (hb : 0 < b) (h : 2 * a < (2 * c + 1) * b) : rne a b ≤ c := by
  have hm := Nat.div_add_mod a b
  have hl := Nat.mod_lt a hb
  have hq : a / b ≤ c := by
    by_contra hc
    have h1 : (c + 1) * b ≤ a / b * b := Nat.mul_le_mul_right b (by omega)
    rw [Nat.mul_comm (a / b) b] at h1
    generalize b * (a / b) = x at *
    generalize a % b = r at *
    nlinarith
  unfold rne
  rcases Nat.lt_or_ge (a / b) c with hlt | hge
  · split
    · omega
    · split <;> omega
  · have he : a / b = c := by omega
    rw [he] at hm
    have : 2 * (a % b) < b := by nlinarith
    rw [if_pos this]; omega

theorem lt_rne_of_lt {a b c : Nat} (hb : 0 < b) (h : (2 * c + 1) * b < 2 * a) : c < rne a b := by
  have hm := Nat.div_add_mod a b
  have hl := Nat.mod_lt a hb
  have hq : c ≤ a / b := by
    by_contra hc
    have h1 : (a / b + 1) * b ≤ c * b := Nat.mul_le_mul_right b (by omega)
    rw [Nat.add_mul, Nat.mul_comm (a / b) b] at h1
    generalize b * (a / b) = x at *
    generalize a % b = r at *
    nlinarith
  unfold rne
  rcases Nat.lt_or_ge c (a / b) with hlt | hge
  · split
    · omega
    · split <;> omega
  · have he : a / b = c := by omega
    rw [he] at hm ⊢
    have : b < 2 * (a % b) := by nlinarith
    rw [if_neg (by omega), if_pos this]; omega

theorem rne_le_of_le {a b c : Nat} (hb : 0 < b) (h : a ≤ c * b) : rne a b ≤ c :=
  rne_lt_of_lt hb (by nlinarith)

theorem le_rne_of_le {a b c : Nat} (hb : 0 < b) (h : c * b ≤ a) : c ≤ rne a b := by
  rcases c with _ | c
  · omega
  · exact lt_rne_of_lt hb (by nlinarith)

/-- A tie above an even integer goes down. -/
theorem rne_tie_even {a b c : Nat} (hb : 0 < b) (he : c % 2 = 0) (h : 2 * a ≤ (2 * c + 1) * b) :
    rne a b ≤ c := by
  rcases Nat.lt_or_ge (2 * a) ((2 * c + 1) * b) with hlt | hge
  · exact rne_lt_of_lt hb hlt
  · have hm := Nat.div_add_mod a b
    have hl := Nat.mod_lt a hb
    have hq : a / b = c := by
      apply Nat.div_eq_of_lt_le <;> nlinarith
    rw [hq] at hm
    have hr : 2 * (a % b) = b := by nlinarith
    unfold rne
    rw [if_neg (by omega), if_neg (by omega), hq, he]
    exact Nat.le_refl _

theorem rne_error {a b : Nat} (hb : 0 < b) : 2 * (rne a b * b) ≤ 2 * a + b ∧ 2 * a ≤ 2 * (rne a b * b) + b := by
  have hm := Nat.div_add_mod a b
  have hl := Nat.mod_lt a hb
  unfold rne
  generalize a / b = q at *
  generalize a % b = r at *
  split
  · constructor <;> nlinarith
  · split
    · constructor <;> nlinarith
    · have h2 : 2 * r = b := by omega
      rcases Nat.mod_two_eq_zero_or_one q with h | h <;> rw [h] <;> constructor <;> nlinarith

/-! Rounding to a magnitude. -/

section RoundMag
variable {num den : Nat}

theorem num_lt_of_excess (hd : 0 < den) : num < 2 ^ 24 * (den * 2 ^ excess num den) := by
  have hq : num / den < 2 ^ (excess num den + 24) := by
    rcases Nat.eq_zero_or_pos (num / den) with h0 | h0
    · rw [h0]; exact Nat.two_pow_pos _
    · have := Nat.lt_log2_self (n := num / den)
      calc num / den < 2 ^ (Nat.log2 (num / den) + 1) := this
        _ ≤ 2 ^ (excess num den + 24) := Nat.pow_le_pow_right (by norm_num) (by unfold excess; omega)
  have := (Nat.div_lt_iff_lt_mul hd).mp hq
  rw [pow_add] at this
  nlinarith

theorem le_num_of_excess (hk : 0 < excess num den) : 2 ^ 23 * (den * 2 ^ excess num den) ≤ num := by
  have h0 : num / den ≠ 0 := by
    intro h; unfold excess at hk; rw [h] at hk; simp [Nat.log2_zero] at hk
  have hle := Nat.log2_self_le h0
  have he : Nat.log2 (num / den) = 23 + excess num den := by unfold excess at hk ⊢; omega
  rw [he, pow_add] at hle
  calc 2 ^ 23 * (den * 2 ^ excess num den) = 2 ^ 23 * 2 ^ excess num den * den := by ring
    _ ≤ num / den * den := Nat.mul_le_mul_right _ hle
    _ ≤ num := Nat.div_mul_le_self _ _

/-- The significand of the rounded value. -/
def significand (num den : Nat) : Nat := rne num (den * 2 ^ excess num den)

theorem unit_pos (hd : 0 < den) : 0 < den * 2 ^ excess num den := Nat.mul_pos hd (Nat.two_pow_pos _)

theorem significand_le (hd : 0 < den) : significand num den ≤ 2 ^ 24 :=
  rne_le_of_le (unit_pos hd) (Nat.le_of_lt (num_lt_of_excess hd))

theorem le_significand (hd : 0 < den) (hk : 0 < excess num den) : 2 ^ 23 ≤ significand num den :=
  le_rne_of_le (unit_pos hd) (le_num_of_excess hk)

theorem roundMag_eq : roundMag num den = excess num den * 2 ^ 23 + significand num den := rfl

/-- A significand of the right size, scaled: its magnitude bits and its value. -/
theorem magVal_scaled {k s : Nat} (h1 : k = 0 ∨ 2 ^ 23 ≤ s) (h2 : s ≤ 2 ^ 24) :
    magVal (k * 2 ^ 23 + s) = s * 2 ^ k := by
  rcases Nat.lt_or_ge s (2 ^ 23) with hs | hs
  · have : k = 0 := by omega
    subst this
    rw [magVal_of_lt (by omega)]; simp
  · rcases Nat.lt_or_ge s (2 ^ 24) with ht | ht
    · rw [show k * 2 ^ 23 + s = (k + 1) * 2 ^ 23 + (s - 2 ^ 23) by omega, magVal_normal (by omega),
        show 2 ^ 23 + (s - 2 ^ 23) = s by omega]
    · rw [show k * 2 ^ 23 + s = (k + 1 + 1) * 2 ^ 23 + 0 by omega, magVal_normal (by norm_num),
        show s = 2 ^ 24 by omega]
      ring

theorem ulp_scaled {k s : Nat} (h1 : k = 0 ∨ 2 ^ 23 ≤ s) (h2 : s < 2 ^ 24) : ulp (k * 2 ^ 23 + s) = 2 ^ k := by
  unfold ulp
  rcases Nat.lt_or_ge s (2 ^ 23) with hs | hs
  · have : k = 0 := by omega
    subst this
    rw [show (0 * 2 ^ 23 + s) / 2 ^ 23 = 0 by omega]
  · rw [show (k * 2 ^ 23 + s) / 2 ^ 23 = k + 1 by omega]; simp

theorem magVal_roundMag (hd : 0 < den) :
    magVal (roundMag num den) = significand num den * 2 ^ excess num den := by
  rw [roundMag_eq]
  refine magVal_scaled ?_ (significand_le hd)
  rcases Nat.eq_zero_or_pos (excess num den) with h | h
  · exact .inl h
  · exact .inr (le_significand hd h)

/-- Where the rounded magnitude is not zero, one below it is either one significand step lower, or a power of two
was reached from below, which rounding to nearest does not do. -/
theorem pred_roundMag (hd : 0 < den) {b : Nat} (hb : b < roundMag num den) :
    (magVal b ≤ (significand num den - 1) * 2 ^ excess num den ∧ 0 < significand num den) ∨
      magVal b * den < num := by
  have hsle := significand_le (num := num) hd
  by_cases hk : excess num den = 0
  · left
    rw [roundMag_eq, hk] at hb
    have hs : 0 < significand num den := by omega
    refine ⟨?_, hs⟩
    have h : magVal b ≤ magVal (0 * 2 ^ 23 + (significand num den - 1)) := magVal_le_iff.mpr (by omega)
    rw [magVal_scaled (.inl rfl) (by omega)] at h
    rw [hk]; exact h
  · have hge := le_significand (num := num) hd (by omega)
    by_cases hs : significand num den = 2 ^ 23
    · right
      have hlt : magVal b < magVal (roundMag num den) := magVal_lt_iff.mpr hb
      rw [magVal_roundMag hd, hs] at hlt
      calc magVal b * den < 2 ^ 23 * 2 ^ excess num den * den := Nat.mul_lt_mul_of_pos_right hlt hd
        _ = 2 ^ 23 * (den * 2 ^ excess num den) := by ring
        _ ≤ num := le_num_of_excess (by omega)
    · left
      refine ⟨?_, by omega⟩
      have h : magVal b ≤ magVal (excess num den * 2 ^ 23 + (significand num den - 1)) :=
        magVal_le_iff.mpr (by rw [roundMag_eq] at hb; omega)
      rwa [magVal_scaled (.inr (by omega)) (by omega)] at h

/-- An exact value at most a representable one rounds to at most it. -/
theorem roundMag_le (hd : 0 < den) {b : Nat} (h : num ≤ magVal b * den) : roundMag num den ≤ b := by
  by_contra hc
  rcases pred_roundMag hd (Nat.lt_of_not_le hc) with ⟨h1, h2⟩ | h1
  · have h3 : num ≤ (significand num den - 1) * (den * 2 ^ excess num den) := by
      calc num ≤ magVal b * den := h
        _ ≤ (significand num den - 1) * 2 ^ excess num den * den := Nat.mul_le_mul_right _ h1
        _ = _ := by ring
    have h4 : significand num den ≤ significand num den - 1 := rne_le_of_le (unit_pos hd) h3
    omega
  · omega

/-- An exact value at least a representable one rounds to at least it. -/
theorem le_roundMag (hd : 0 < den) {b : Nat} (h : magVal b * den ≤ num) : b ≤ roundMag num den := by
  by_contra hc
  have hlt : roundMag num den + 1 ≤ b := Nat.lt_of_not_le hc
  have h1 : magVal (roundMag num den) + ulp (roundMag num den) ≤ magVal b := by
    rw [← magVal_succ]; exact magVal_le_iff.mpr hlt
  have hsle := significand_le (num := num) hd
  have hu : 2 ^ excess num den ≤ ulp (roundMag num den) := by
    rcases Nat.lt_or_ge (significand num den) (2 ^ 24) with hs | hs
    · rw [roundMag_eq, ulp_scaled _ hs]
      rcases Nat.eq_zero_or_pos (excess num den) with h | h
      · exact .inl h
      · exact .inr (le_significand hd h)
    · unfold ulp
      apply Nat.pow_le_pow_right (by norm_num)
      rw [roundMag_eq]; omega
  rw [magVal_roundMag hd] at h1
  have h2 : (significand num den + 1) * (den * 2 ^ excess num den) ≤ num := by
    calc (significand num den + 1) * (den * 2 ^ excess num den)
        = (significand num den * 2 ^ excess num den + 2 ^ excess num den) * den := by ring
      _ ≤ magVal b * den := Nat.mul_le_mul_right _ (by omega)
      _ ≤ num := h
  have h3 : significand num den + 1 ≤ significand num den := le_rne_of_le (unit_pos hd) h2
  omega

/-- A value that is representable is kept. -/
theorem roundMag_exact (hd : 0 < den) {b : Nat} (h : num = magVal b * den) : roundMag num den = b :=
  Nat.le_antisymm (roundMag_le hd h.le) (le_roundMag hd h.ge)

/-- A value at most halfway above an even magnitude rounds to at most it. -/
theorem roundMag_le_mid (hd : 0 < den) {b : Nat} (he : b % 2 = 0) (h : 2 * num ≤ (2 * magVal b + ulp b) * den) :
    roundMag num den ≤ b := by
  by_contra hc
  have hlt : b < roundMag num den := Nat.lt_of_not_le hc
  have hup : roundMag num den ≤ b + 1 := by
    apply roundMag_le hd
    rw [magVal_succ]
    have := ulp_pos b
    nlinarith [Nat.mul_le_mul_right den (Nat.le_refl (ulp b))]
  have hr : roundMag num den = b + 1 := by omega
  have hv := magVal_roundMag (num := num) hd
  rw [hr, magVal_succ] at hv
  have hsle := significand_le (num := num) hd
  have hcase : excess num den = 0 ∨ significand num den ≠ 2 ^ 23 := by
    by_contra hn
    simp only [not_or, not_not] at hn
    have hle := le_num_of_excess (num := num) (den := den) (by omega)
    rw [hn.2] at hv
    have hu := ulp_pos b
    have : 2 ^ 23 * (den * 2 ^ excess num den) = (magVal b + ulp b) * den := by rw [hv]; ring
    nlinarith
  have hs1 : 0 < significand num den := by
    rw [roundMag_eq] at hr
    rcases Nat.eq_zero_or_pos (excess num den) with h0 | h0
    · rw [h0] at hr; omega
    · have := le_significand (num := num) hd h0; omega
  have hb : b = excess num den * 2 ^ 23 + (significand num den - 1) := by rw [roundMag_eq] at hr; omega
  have hprev : excess num den = 0 ∨ 2 ^ 23 ≤ significand num den - 1 := by
    rcases Nat.eq_zero_or_pos (excess num den) with h0 | h0
    · exact .inl h0
    · have := le_significand (num := num) hd h0
      right; omega
  have hmv : magVal b = (significand num den - 1) * 2 ^ excess num den := by
    conv_lhs => rw [hb]
    exact magVal_scaled hprev (by omega)
  have hul : ulp b = 2 ^ excess num den := by
    conv_lhs => rw [hb]
    exact ulp_scaled hprev (by omega)
  have hse : (significand num den - 1) % 2 = 0 := by omega
  have : significand num den ≤ significand num den - 1 := by
    apply rne_tie_even (unit_pos hd) hse
    rw [hmv, hul] at h
    calc 2 * num ≤ _ := h
      _ = _ := by ring
  omega

/-- The rounding error is at most half a unit in the last place. -/
theorem roundMag_error (hd : 0 < den) :
    2 * (magVal (roundMag num den) * den) ≤ 2 * num + 2 ^ excess num den * den ∧
      2 * num ≤ 2 * (magVal (roundMag num den) * den) + 2 ^ excess num den * den := by
  rw [magVal_roundMag hd]
  have := rne_error (a := num) (unit_pos (num := num) hd)
  unfold significand
  constructor <;> nlinarith [this.1, this.2]

/-- A bound on the number of bits that rounding drops. -/
theorem excess_le {j : Nat} (h : num < 2 ^ (24 + j) * den) : excess num den ≤ j := by
  by_contra hc
  have h1 := le_num_of_excess (num := num) (den := den) (by omega)
  have h2 : 2 ^ (24 + j) ≤ 2 ^ 23 * 2 ^ excess num den := by
    rw [← pow_add]; exact Nat.pow_le_pow_right (by norm_num) (by omega)
  nlinarith [Nat.mul_le_mul_right den h2]

end RoundMag

end Sys2Proof.Machine.F32
end

