-- ==== Sys2Proof/Laws/FloatValue.lean ====
section
/-! SUPPORT. Values of binary32 words: comparisons compare them (spec/00_scope.md R14), and the four operations on
finite words keep within every pair of bounds that the exact result keeps within (R13). Values are in units of
2^-149. -/

namespace Sys2Proof.Machine.F32

/-! Words as sign and magnitude. -/

theorem toNat_eq (x : Word) : x.toNat = (if sign x then 2 ^ 31 else 0) + mag x := by
  have := x.isLt
  unfold sign mag
  split
  · next h => simp only [decide_eq_true_eq] at h; omega
  · next h => simp only [decide_eq_true_eq, not_le] at h; omega

theorem mag_lt (x : Word) : mag x < 2 ^ 31 := Nat.mod_lt _ (by norm_num)

/-- A word is its sign and its magnitude. -/
theorem ext_sign_mag {x y : Word} (hs : sign x = sign y) (hm : mag x = mag y) : x = y :=
  BitVec.eq_of_toNat_eq (by rw [toNat_eq, toNat_eq, hs, hm])

theorem toNat_pack (s : Bool) (m : Nat) : (pack s m).toNat = (if s then 2 ^ 31 else 0) + min m infMag := by
  unfold pack
  rw [BitVec.toNat_ofNat, Nat.mod_eq_of_lt]
  have : min m infMag ≤ 0x7F800000 := Nat.min_le_right _ _
  split <;> omega

@[simp] theorem sign_pack (s : Bool) (m : Nat) : sign (pack s m) = s := by
  unfold sign
  rw [toNat_pack]
  have : min m infMag ≤ 0x7F800000 := Nat.min_le_right _ _
  cases s <;> simp
  omega

@[simp] theorem mag_pack (s : Bool) (m : Nat) : mag (pack s m) = min m infMag := by
  unfold mag
  rw [toNat_pack]
  have : min m infMag ≤ 0x7F800000 := Nat.min_le_right _ _
  cases s <;> simp <;> omega

@[simp] theorem isNaN_pack (s : Bool) (m : Nat) : isNaN (pack s m) = false := by
  simp [isNaN]

theorem isNaN_of_finite {x : Word} (h : isFinite x = true) : isNaN x = false := by
  simp only [isFinite, isNaN, decide_eq_true_eq, decide_eq_false_iff_not] at *; omega

theorem isInf_of_finite {x : Word} (h : isFinite x = true) : isInf x = false := by
  simp only [isFinite, isInf, decide_eq_true_eq, beq_eq_false_iff_ne] at *; omega

theorem mag_le_of_not_nan {x : Word} (h : isNaN x = false) : mag x ≤ infMag := by
  simpa [isNaN] using h

/-! Order. -/

theorem val_pos_sign {x : Word} (h : sign x = false) : val x = magVal (mag x) := by simp [val, h]
theorem val_neg_sign {x : Word} (h : sign x = true) : val x = -(magVal (mag x) : Int) := by simp [val, h]

theorem key_le_iff (a b : Word) : key a ≤ key b ↔ val a ≤ val b := by
  have h0 : ∀ m, magVal m = 0 ↔ m = 0 := fun m => by
    constructor
    · intro h; exact magVal_strictMono.injective (by simp [h])
    · rintro rfl; simp
  have hle := @magVal_le_iff (mag a) (mag b)
  have hge := @magVal_le_iff (mag b) (mag a)
  have ha := h0 (mag a)
  have hb := h0 (mag b)
  unfold key val
  cases sign a <;> cases sign b <;> simp <;> omega

theorem key_lt_iff (a b : Word) : key a < key b ↔ val a < val b := by
  rw [← not_le, ← not_le, key_le_iff]

theorem le_iff (a b : Word) : le a b = true ↔ isNaN a = false ∧ isNaN b = false ∧ val a ≤ val b := by
  simp [le, key_le_iff, and_assoc]

theorem lt_iff (a b : Word) : lt a b = true ↔ isNaN a = false ∧ isNaN b = false ∧ val a < val b := by
  simp [lt, key_lt_iff, and_assoc]

/-- On words that are no NaN, "not less" is "at least". -/
theorem lt_eq_false {a b : Word} (ha : isNaN a = false) (hb : isNaN b = false) :
    lt a b = false ↔ val b ≤ val a := by
  rw [← Bool.not_eq_true, lt_iff]; simp [ha, hb]

theorem le_eq_false {a b : Word} (ha : isNaN a = false) (hb : isNaN b = false) :
    le a b = false ↔ val b < val a := by
  rw [← Bool.not_eq_true, le_iff]; simp [ha, hb]

theorem within_iff (lo hi x : Word) : within lo hi x = true ↔
    isNaN lo = false ∧ isNaN hi = false ∧ isNaN x = false ∧ val lo ≤ val x ∧ val x ≤ val hi := by
  simp only [within, Bool.and_eq_true, le_iff]
  tauto

/-- A finite word has a value strictly between the infinities, and conversely. -/
theorem isFinite_iff (x : Word) : isFinite x = true ↔
    isNaN x = false ∧ -(magVal infMag : Int) < val x ∧ val x < magVal infMag := by
  have h1 := @magVal_lt_iff (mag x) infMag
  have h2 := @magVal_le_iff infMag (mag x)
  simp only [isFinite, isNaN, decide_eq_true_eq, decide_eq_false_iff_not, not_lt]
  unfold val
  cases sign x <;> simp <;> omega

theorem finite_of_within {lo hi x : Word} (hlo : isFinite lo = true) (hhi : isFinite hi = true)
    (h : within lo hi x = true) : isFinite x = true := by
  rw [isFinite_iff] at *
  rw [within_iff] at h
  exact ⟨h.2.2.1, by omega, by omega⟩

/-! Rounding. -/

@[simp] theorem isNaN_round (n : Int) (den : Nat) (z : Bool) : isNaN (round n den z) = false := by
  unfold round; split <;> simp

theorem val_round_of_nonneg {n : Int} (den : Nat) (z : Bool) (h : 0 ≤ n) :
    val (round n den z) = magVal (min (if n = 0 then 0 else roundMag n.natAbs den) infMag) := by
  unfold round
  split
  · next h0 => cases z <;> simp [val]
  · next h0 =>
    have : ¬ n < 0 := by omega
    simp [val, this]

theorem val_round_of_neg {n : Int} (den : Nat) (z : Bool) (h : n < 0) :
    val (round n den z) = -(magVal (min (roundMag n.natAbs den) infMag) : Int) := by
  unfold round
  rw [if_neg (by omega)]
  simp [val, h]

/-- An exact value at most that of a word rounds to at most it. -/
theorem val_round_le {n : Int} {den : Nat} (hd : 0 < den) {c : Word} (hc : isNaN c = false)
    (h : n ≤ val c * den) (z : Bool) : val (round n den z) ≤ val c := by
  have hcm := mag_le_of_not_nan hc
  rcases Int.lt_or_le n 0 with hn | hn
  · rw [val_round_of_neg den z hn]
    cases hs : sign c with
    | false => rw [val_pos_sign hs]; omega
    | true =>
      rw [val_neg_sign hs] at h ⊢
      have h1 : magVal (mag c) * den ≤ n.natAbs := by
        zify; rw [abs_of_neg hn]; linarith
      have h2 := le_roundMag hd h1
      have h3 : magVal (mag c) ≤ magVal (min (roundMag n.natAbs den) infMag) :=
        magVal_le_iff.mpr (Nat.le_min.mpr ⟨h2, hcm⟩)
      omega
  · rw [val_round_of_nonneg den z hn]
    cases hs : sign c with
    | false =>
      rw [val_pos_sign hs] at h ⊢
      have h1 : n.natAbs ≤ magVal (mag c) * den := by zify; rw [abs_of_nonneg hn]; exact h
      have h2 := roundMag_le hd h1
      have h3 : magVal (min (if n = 0 then 0 else roundMag n.natAbs den) infMag) ≤ magVal (mag c) := by
        apply magVal_le_iff.mpr
        refine (Nat.min_le_left _ _).trans ?_
        split
        · omega
        · exact h2
      omega
    | true =>
      rw [val_neg_sign hs] at h ⊢
      have h0 : (magVal (mag c) : Int) * den ≤ 0 := by linarith
      have hd' : (0 : Int) < den := by exact_mod_cast hd
      have h1 : (magVal (mag c) : Int) ≤ 0 := by nlinarith
      have hn0 : n = 0 := by nlinarith
      rw [if_pos hn0]
      simp; omega

/-- An exact value at least that of a word rounds to at least it. -/
theorem le_val_round {n : Int} {den : Nat} (hd : 0 < den) {c : Word} (hc : isNaN c = false)
    (h : val c * den ≤ n) (z : Bool) : val c ≤ val (round n den z) := by
  have hcm := mag_le_of_not_nan hc
  rcases Int.lt_or_le n 0 with hn | hn
  · rw [val_round_of_neg den z hn]
    cases hs : sign c with
    | false =>
      rw [val_pos_sign hs] at h
      have : (0 : Int) ≤ magVal (mag c) * den := by positivity
      omega
    | true =>
      rw [val_neg_sign hs] at h ⊢
      have h1 : n.natAbs ≤ magVal (mag c) * den := by
        zify; rw [abs_of_neg hn]; linarith
      have h3 : magVal (min (roundMag n.natAbs den) infMag) ≤ magVal (mag c) :=
        magVal_le_iff.mpr ((Nat.min_le_left _ _).trans (roundMag_le hd h1))
      omega
  · rw [val_round_of_nonneg den z hn]
    cases hs : sign c with
    | false =>
      rw [val_pos_sign hs] at h ⊢
      split
      · next h0 =>
        rw [h0] at h
        have hd' : (0 : Int) < den := by exact_mod_cast hd
        have : (magVal (mag c) : Int) ≤ 0 := by nlinarith
        omega
      · have h1 : magVal (mag c) * den ≤ n.natAbs := by zify; rw [abs_of_nonneg hn]; exact h
        have h3 : magVal (mag c) ≤ magVal (min (roundMag n.natAbs den) infMag) :=
          magVal_le_iff.mpr (Nat.le_min.mpr ⟨le_roundMag hd h1, hcm⟩)
        omega
    | true => rw [val_neg_sign hs]; omega

/-! The operations on finite words. -/

section Ops
variable {a b lo hi c : Word}

theorem add_finite (ha : isFinite a = true) (hb : isFinite b = true) :
    add a b = round (val a + val b) 1 (sign a && sign b) := by
  simp [add, isNaN_of_finite ha, isNaN_of_finite hb, isInf_of_finite ha, isInf_of_finite hb]

theorem mul_finite (ha : isFinite a = true) (hb : isFinite b = true) :
    mul a b = round (val a * val b) (2 ^ 149) (sign a != sign b) := by
  simp [mul, isNaN_of_finite ha, isNaN_of_finite hb, isInf_of_finite ha, isInf_of_finite hb]

theorem mag_ne_zero_of_val (h : val b ≠ 0) : mag b ≠ 0 := by
  intro h0; apply h; simp [val, h0]

theorem div_finite (ha : isFinite a = true) (hb : isFinite b = true) (h0 : 0 < val b) :
    div a b = round (val a * 2 ^ 149) (val b).natAbs (sign a != sign b) := by
  have hm := mag_ne_zero_of_val (b := b) (by omega)
  simp [div, isNaN_of_finite ha, isNaN_of_finite hb, isInf_of_finite ha, isInf_of_finite hb, hm,
    Int.sign_eq_one_of_pos h0]

theorem toNat_neg (x : Word) : (neg x).toNat = (x.toNat + 2 ^ 31) % 2 ^ 32 := by
  unfold neg
  bv_omega

theorem sign_neg (x : Word) : sign (neg x) = !sign x := by
  have hx := x.isLt
  unfold sign
  rw [toNat_neg]
  rcases Nat.lt_or_ge x.toNat (2 ^ 31) with h | h
  · rw [decide_eq_true (by omega), decide_eq_false (by omega)]; rfl
  · rw [decide_eq_false (by omega), decide_eq_true (by omega)]; rfl

@[simp] theorem mag_neg (x : Word) : mag (neg x) = mag x := by
  unfold mag; rw [toNat_neg]; omega

@[simp] theorem val_neg (x : Word) : val (neg x) = -val x := by
  unfold val; rw [sign_neg, mag_neg]; cases sign x <;> simp

@[simp] theorem isFinite_neg (x : Word) : isFinite (neg x) = isFinite x := by simp [isFinite]
@[simp] theorem isNaN_neg (x : Word) : isNaN (neg x) = isNaN x := by simp [isNaN]

theorem isNaN_add (ha : isFinite a = true) (hb : isFinite b = true) : isNaN (add a b) = false := by
  rw [add_finite ha hb]; exact isNaN_round _ _ _
theorem isNaN_sub (ha : isFinite a = true) (hb : isFinite b = true) : isNaN (sub a b) = false :=
  isNaN_add ha (by simpa using hb)
theorem isNaN_mul (ha : isFinite a = true) (hb : isFinite b = true) : isNaN (mul a b) = false := by
  rw [mul_finite ha hb]; exact isNaN_round _ _ _
theorem isNaN_div (ha : isFinite a = true) (hb : isFinite b = true) (h0 : 0 < val b) :
    isNaN (div a b) = false := by
  rw [div_finite ha hb h0]; exact isNaN_round _ _ _

theorem val_add_le (ha : isFinite a = true) (hb : isFinite b = true) (hc : isNaN c = false)
    (h : val a + val b ≤ val c) : val (add a b) ≤ val c := by
  rw [add_finite ha hb]; exact val_round_le Nat.one_pos hc (by simpa using h) _
theorem le_val_add (ha : isFinite a = true) (hb : isFinite b = true) (hc : isNaN c = false)
    (h : val c ≤ val a + val b) : val c ≤ val (add a b) := by
  rw [add_finite ha hb]; exact le_val_round Nat.one_pos hc (by simpa using h) _
theorem val_sub_le (ha : isFinite a = true) (hb : isFinite b = true) (hc : isNaN c = false)
    (h : val a - val b ≤ val c) : val (sub a b) ≤ val c :=
  val_add_le ha (by simpa using hb) hc (by rw [val_neg]; omega)
theorem le_val_sub (ha : isFinite a = true) (hb : isFinite b = true) (hc : isNaN c = false)
    (h : val c ≤ val a - val b) : val c ≤ val (sub a b) :=
  le_val_add ha (by simpa using hb) hc (by rw [val_neg]; omega)
theorem val_mul_le (ha : isFinite a = true) (hb : isFinite b = true) (hc : isNaN c = false)
    (h : val a * val b ≤ val c * 2 ^ 149) : val (mul a b) ≤ val c := by
  rw [mul_finite ha hb]; exact val_round_le (Nat.two_pow_pos _) hc (by push_cast; exact h) _
theorem le_val_mul (ha : isFinite a = true) (hb : isFinite b = true) (hc : isNaN c = false)
    (h : val c * 2 ^ 149 ≤ val a * val b) : val c ≤ val (mul a b) := by
  rw [mul_finite ha hb]; exact le_val_round (Nat.two_pow_pos _) hc (by push_cast; exact h) _
theorem val_div_le (ha : isFinite a = true) (hb : isFinite b = true) (h0 : 0 < val b) (hc : isNaN c = false)
    (h : val a * 2 ^ 149 ≤ val c * val b) : val (div a b) ≤ val c := by
  rw [div_finite ha hb h0]
  exact val_round_le (by omega) hc (by rw [Int.natAbs_of_nonneg (le_of_lt h0)]; exact h) _
theorem le_val_div (ha : isFinite a = true) (hb : isFinite b = true) (h0 : 0 < val b) (hc : isNaN c = false)
    (h : val c * val b ≤ val a * 2 ^ 149) : val c ≤ val (div a b) := by
  rw [div_finite ha hb h0]
  exact le_val_round (by omega) hc (by rw [Int.natAbs_of_nonneg (le_of_lt h0)]; exact h) _

/-- A sum whose exact value lies within two bounds lies within them. -/
theorem within_add (ha : isFinite a = true) (hb : isFinite b = true) (hlo : isNaN lo = false)
    (hhi : isNaN hi = false) (h1 : val lo ≤ val a + val b) (h2 : val a + val b ≤ val hi) :
    within lo hi (add a b) = true :=
  (within_iff _ _ _).mpr ⟨hlo, hhi, isNaN_add ha hb, le_val_add ha hb hlo h1, val_add_le ha hb hhi h2⟩
theorem within_sub (ha : isFinite a = true) (hb : isFinite b = true) (hlo : isNaN lo = false)
    (hhi : isNaN hi = false) (h1 : val lo ≤ val a - val b) (h2 : val a - val b ≤ val hi) :
    within lo hi (sub a b) = true :=
  (within_iff _ _ _).mpr ⟨hlo, hhi, isNaN_sub ha hb, le_val_sub ha hb hlo h1, val_sub_le ha hb hhi h2⟩
theorem within_mul (ha : isFinite a = true) (hb : isFinite b = true) (hlo : isNaN lo = false)
    (hhi : isNaN hi = false) (h1 : val lo * 2 ^ 149 ≤ val a * val b) (h2 : val a * val b ≤ val hi * 2 ^ 149) :
    within lo hi (mul a b) = true :=
  (within_iff _ _ _).mpr ⟨hlo, hhi, isNaN_mul ha hb, le_val_mul ha hb hlo h1, val_mul_le ha hb hhi h2⟩
theorem within_div (ha : isFinite a = true) (hb : isFinite b = true) (h0 : 0 < val b) (hlo : isNaN lo = false)
    (hhi : isNaN hi = false) (h1 : val lo * val b ≤ val a * 2 ^ 149) (h2 : val a * 2 ^ 149 ≤ val hi * val b) :
    within lo hi (div a b) = true :=
  (within_iff _ _ _).mpr ⟨hlo, hhi, isNaN_div ha hb h0, le_val_div ha hb h0 hlo h1, val_div_le ha hb h0 hhi h2⟩

/-- A sum that is a binary32 value is exact. -/
theorem val_add_exact (ha : isFinite a = true) (hb : isFinite b = true) (hc : isNaN c = false)
    (h : val a + val b = val c) : val (add a b) = val c :=
  le_antisymm (val_add_le ha hb hc h.le) (le_val_add ha hb hc h.ge)
theorem val_sub_exact (ha : isFinite a = true) (hb : isFinite b = true) (hc : isNaN c = false)
    (h : val a - val b = val c) : val (sub a b) = val c :=
  le_antisymm (val_sub_le ha hb hc h.le) (le_val_sub ha hb hc h.ge)

end Ops

/-! Clamping (R14, R15). -/

/-- A clamped word that is no NaN lies within the bounds. -/
theorem within_clamp {x lo hi : Word} (hx : isNaN x = false) (hlo : isNaN lo = false) (hhi : isNaN hi = false)
    (h : val lo ≤ val hi) : within lo hi (clamp x lo hi) = true := by
  unfold clamp
  rw [within_iff]
  split
  · exact ⟨hlo, hhi, hlo, le_refl _, h⟩
  · next h1 =>
    rw [Bool.not_eq_true, lt_eq_false hx hlo] at h1
    split
    · exact ⟨hlo, hhi, hhi, h, le_refl _⟩
    · next h2 =>
      rw [Bool.not_eq_true, lt_eq_false hhi hx] at h2
      exact ⟨hlo, hhi, hx, h1, h2⟩

/-- A word within the bounds is its own clamp. -/
theorem clamp_of_within {x lo hi : Word} (h : within lo hi x = true) : clamp x lo hi = x := by
  rw [within_iff] at h
  unfold clamp
  rw [if_neg, if_neg]
  · rw [lt_iff]; intro h'; omega
  · rw [lt_iff]; intro h'; omega

/-- A sanitized word lies within the bounds, whatever the host wrote (R15). -/
theorem within_sanitize (x : Word) {lo hi dflt : Word} (hlo : isNaN lo = false) (hhi : isNaN hi = false)
    (h : val lo ≤ val hi) (hd : within lo hi dflt = true) : within lo hi (sanitize x lo hi dflt) = true := by
  unfold sanitize
  split
  · exact hd
  · next hx => exact within_clamp (by simpa using hx) hlo hhi h

/-! Errors and ties. -/

/-- Rounding a nonnegative value below 2^(24+j) units moves it by at most 2^j / 2 units. -/
theorem val_round_error {n : Int} {den j : Nat} (hd : 0 < den) (h0 : 0 ≤ n)
    (h : n < ((2 ^ (24 + j) * den : Nat) : Int)) (z : Bool) :
    2 * (val (round n den z) * den) ≤ 2 * n + 2 ^ j * den := by
  rw [val_round_of_nonneg den z h0]
  obtain ⟨m, rfl⟩ := Int.eq_ofNat_of_zero_le h0
  have hm : m < 2 ^ (24 + j) * den := by exact_mod_cast h
  have he := (roundMag_error (num := m) hd).1
  have hx : 2 ^ excess m den ≤ 2 ^ j := Nat.pow_le_pow_right (by norm_num) (excess_le hm)
  have h1 : magVal (min (if (m : Int) = 0 then 0 else roundMag (m : Int).natAbs den) infMag) ≤
      magVal (roundMag m den) := by
    apply magVal_le_iff.mpr
    refine (Nat.min_le_left _ _).trans ?_
    split
    · exact Nat.zero_le _
    · simp
  have h2 := Nat.mul_le_mul_right den h1
  have h3 := Nat.mul_le_mul_right den hx
  have h4 : 2 * (magVal (min (if (m : Int) = 0 then 0 else roundMag (m : Int).natAbs den) infMag) * den) ≤
      2 * m + 2 ^ j * den := by omega
  exact_mod_cast h4

/-- The error of a difference that is not negative. -/
theorem val_sub_error {a b : Word} {j : Nat} (ha : isFinite a = true) (hb : isFinite b = true)
    (h0 : 0 ≤ val a - val b) (h : val a - val b < 2 ^ (24 + j)) :
    2 * val (sub a b) ≤ 2 * (val a - val b) + 2 ^ j := by
  have hb' : isFinite (neg b) = true := by simpa using hb
  unfold sub
  rw [add_finite ha hb', val_neg]
  have := val_round_error (n := val a + -val b) (den := 1) (j := j) Nat.one_pos (by omega)
    (by push_cast; omega) (sign a && sign (neg b))
  push_cast at this
  omega

/-- A sum at most halfway above a positive word with an even magnitude rounds to at most that word. -/
theorem val_add_le_mid {a b c : Word} (ha : isFinite a = true) (hb : isFinite b = true)
    (hs : sign c = false) (he : mag c % 2 = 0)
    (h : 2 * (val a + val b) ≤ 2 * val c + ulp (mag c)) : val (add a b) ≤ val c := by
  rw [add_finite ha hb]
  have hc := val_pos_sign hs
  rcases Int.lt_or_le (val a + val b) 0 with hn | hn
  · rw [val_round_of_neg _ _ hn, hc]; omega
  · rw [val_round_of_nonneg _ _ hn, hc]
    rw [hc] at h
    generalize val a + val b = n at *
    obtain ⟨m, rfl⟩ := Int.eq_ofNat_of_zero_le hn
    have h1 : 2 * m ≤ (2 * magVal (mag c) + ulp (mag c)) * 1 := by
      rw [Nat.mul_one]; exact_mod_cast h
    have h2 := roundMag_le_mid Nat.one_pos he h1
    have h3 : magVal (min (if ((m : Nat) : Int) = 0 then 0 else roundMag ((m : Nat) : Int).natAbs 1) infMag) ≤
        magVal (mag c) := by
      apply magVal_le_iff.mpr
      refine (Nat.min_le_left _ _).trans ?_
      split
      · exact Nat.zero_le _
      · simpa using h2
    exact_mod_cast h3

/-- A 24-bit significand scaled by a power of two is a magnitude's value. -/
theorem exists_magVal {m : Nat} (h : m ≤ 2 ^ 24) (k : Nat) : ∃ b, magVal b = m * 2 ^ k := by
  rcases Nat.eq_zero_or_pos m with h0 | h0
  · exact ⟨0, by simp [h0]⟩
  · have hl := Nat.log2_self_le (n := m) (by omega)
    have hu := Nat.lt_log2_self (n := m)
    have hl24 : Nat.log2 m ≤ 24 := by
      by_contra hc
      have : 2 ^ 25 ≤ 2 ^ Nat.log2 m := Nat.pow_le_pow_right (by norm_num) (by omega)
      omega
    rcases Nat.lt_or_ge (Nat.log2 m) 24 with hlt | hge
    · obtain ⟨d, hd⟩ : ∃ d, Nat.log2 m + d = 23 := ⟨23 - Nat.log2 m, by omega⟩
      rcases Nat.lt_or_ge k d with hk | hk
      · refine ⟨0 * 2 ^ 23 + m * 2 ^ k, ?_⟩
        rw [magVal_scaled (.inl rfl), Nat.pow_zero, Nat.mul_one]
        calc m * 2 ^ k ≤ 2 ^ (Nat.log2 m + 1) * 2 ^ k := Nat.mul_le_mul_right _ (Nat.le_of_lt hu)
          _ = 2 ^ (Nat.log2 m + 1 + k) := (pow_add _ _ _).symm
          _ ≤ 2 ^ 24 := Nat.pow_le_pow_right (by norm_num) (by omega)
      · have hs1 : 2 ^ 23 ≤ m * 2 ^ d := by
          calc 2 ^ 23 = 2 ^ Nat.log2 m * 2 ^ d := by rw [← pow_add, hd]
            _ ≤ m * 2 ^ d := Nat.mul_le_mul_right _ hl
        have hs2 : m * 2 ^ d < 2 ^ 24 := by
          calc m * 2 ^ d < 2 ^ (Nat.log2 m + 1) * 2 ^ d := Nat.mul_lt_mul_of_pos_right hu (Nat.two_pow_pos _)
            _ = 2 ^ 24 := by rw [← pow_add, show Nat.log2 m + 1 + d = 24 by omega]
        refine ⟨(k - d) * 2 ^ 23 + m * 2 ^ d, ?_⟩
        rw [magVal_scaled (.inr hs1) (by omega), Nat.mul_assoc, ← pow_add, show d + (k - d) = k by omega]
    · have hn : m = 2 ^ 24 := by
        have : 2 ^ 24 ≤ m := le_trans (Nat.pow_le_pow_right (by norm_num) hge) hl
        omega
      refine ⟨k * 2 ^ 23 + 2 ^ 24, ?_⟩
      rw [magVal_scaled (k := k) (s := 2 ^ 24) (.inr (by omega)) (le_refl _), hn]

/-- A value with a 24-bit significand below infinity is the value of a word, of either sign. -/
theorem exists_word {m : Nat} (h : m ≤ 2 ^ 24) (k : Nat) (hi : m * 2 ^ k < magVal infMag) (s : Bool) :
    ∃ c, isFinite c = true ∧ val c = if s then -((m * 2 ^ k : Nat) : Int) else ((m * 2 ^ k : Nat) : Int) := by
  obtain ⟨b, hb⟩ := exists_magVal h k
  have hlt : b < infMag := magVal_lt_iff.mp (by rw [hb]; exact hi)
  refine ⟨pack s b, ?_, ?_⟩
  · simp [isFinite, Nat.min_eq_left (Nat.le_of_lt hlt)]; exact hlt
  · unfold val
    rw [sign_pack, mag_pack, Nat.min_eq_left (Nat.le_of_lt hlt), hb]

/-! Integers (R14). -/

/-- `int2f` is exact up to 2^24. -/
theorem val_int2f {n : Nat} (h : n ≤ 2 ^ 24) : isFinite (int2f n) = true ∧ val (int2f n) = n * 2 ^ 149 := by
  have hi : n * 2 ^ 149 < magVal infMag := by
    have h1 : magVal infMag = 2 ^ 24 * 2 ^ 253 := by decide
    have h2 : n * 2 ^ 149 ≤ 2 ^ 24 * 2 ^ 149 := Nat.mul_le_mul_right _ h
    have h3 : (2 : Nat) ^ 24 * 2 ^ 149 < 2 ^ 24 * 2 ^ 253 := by norm_num
    exact lt_of_le_of_lt h2 (by rw [h1]; exact h3)
  obtain ⟨c, hc, hv⟩ := exists_word h 149 hi false
  have hnan := isNaN_of_finite hc
  have hv' : val c = (n : Int) * 2 ^ 149 := by rw [hv]; push_cast; rfl
  have hval : val (int2f n) = val c := by
    unfold int2f
    exact le_antisymm (val_round_le Nat.one_pos hnan (by rw [hv']; simp) _)
      (le_val_round Nat.one_pos hnan (by rw [hv']; simp) _)
  refine ⟨?_, hval.trans hv'⟩
  rw [isFinite_iff] at hc ⊢
  rw [hval]
  exact ⟨by unfold int2f; exact isNaN_round _ _ _, hc.2⟩

/-! NaN comes only from NaN, 0/0, inf/inf and the like. -/

theorem isNaN_mul_of_finite {a b : Word} (ha : isNaN a = false) (hb : isFinite b = true) (h0 : mag b ≠ 0) :
    isNaN (mul a b) = false := by
  unfold mul
  simp only [ha, isNaN_of_finite hb, isInf_of_finite hb, Bool.or_self, Bool.or_false, Bool.false_eq_true, if_false]
  split
  · next h =>
    have hm : mag a = infMag := by simpa [isInf] using h
    have : mag a ≠ 0 := by rw [hm]; decide
    simp [this, h0]
  · simp

theorem isNaN_div_of_finite {a b : Word} (ha : isNaN a = false) (hb : isFinite b = true) (h0 : mag b ≠ 0) :
    isNaN (div a b) = false := by
  unfold div
  simp only [ha, isNaN_of_finite hb, isInf_of_finite hb, Bool.or_self, Bool.false_eq_true, if_false]
  split
  · simp
  · simp [h0]

/-! Consecutive words. -/

/-- Above a positive word comes the next word. -/
theorem val_next_le {a b x : Word} (hk : key b = key a + 1) (h : val a < val x) : val b ≤ val x := by
  rw [← key_lt_iff] at h; rw [← key_le_iff]; omega

/-- Below a word comes the word before it. -/
theorem val_le_prev {a b x : Word} (hk : key b = key a + 1) (h : val x < val b) : val x ≤ val a := by
  rw [← key_lt_iff] at h; rw [← key_le_iff]; omega

end Sys2Proof.Machine.F32
end

