-- ==== Sys2Proof/Laws/Exp2.lean ====
section
/-! SUPPORT. EXP2 (spec/00_scope.md R16): the reference function is monotone and exact at the integers in [-10, 10],
the search that makes every other EXP2 is monotone and stays within its bounds, and EXP2 is finite and positive on
[-10, 10]. -/

namespace Sys2Proof.Machine.F32

/-! Rounding is monotone. -/

theorem rne_mono {a a' b : Nat} (hb : 0 < b) (h : a ≤ a') : rne a b ≤ rne a' b := by
  rcases Nat.lt_or_ge (2 * a) ((2 * rne a' b + 1) * b) with hlt | hge
  · exact rne_lt_of_lt hb hlt
  · have he := (rne_error (a := a') hb).2
    have : a = a' := by nlinarith
    rw [this]

theorem excess_mono {a a' den : Nat} (h : a ≤ a') : excess a den ≤ excess a' den := by
  unfold excess
  rw [Nat.log2_eq_log_two, Nat.log2_eq_log_two]
  exact Nat.sub_le_sub_right (Nat.log_mono_right (Nat.div_le_div_right h)) _

theorem roundMag_mono {a a' den : Nat} (hd : 0 < den) (h : a ≤ a') : roundMag a den ≤ roundMag a' den := by
  rcases Nat.lt_or_ge (excess a den) (excess a' den) with hlt | hge
  · have h1 := significand_le (num := a) hd
    have h2 := le_significand (num := a') hd (by omega)
    rw [roundMag_eq, roundMag_eq]
    omega
  · have he : excess a den = excess a' den := Nat.le_antisymm (excess_mono h) hge
    have hs : significand a den ≤ significand a' den := by
      unfold significand
      rw [he]
      exact rne_mono (unit_pos hd) h
    rw [roundMag_eq, roundMag_eq, he]
    omega

/-- A larger nonnegative value rounds to no smaller one. -/
theorem val_round_mono {a a' : Int} {den : Nat} (hd : 0 < den) (h0 : 0 ≤ a) (h : a ≤ a') :
    val (round a den false) ≤ val (round a' den false) := by
  rw [val_round_of_nonneg den false h0, val_round_of_nonneg den false (by omega)]
  have hm := roundMag_mono (a := a.natAbs) (a' := a'.natAbs) hd (by omega)
  refine Int.ofNat_le.mpr (magVal_le_iff.mpr (min_le_min_right _ ?_))
  split
  · exact Nat.zero_le _
  · rwa [if_neg (by omega)]

/-! The reference function. -/

theorem expSeries_mono {t t' : Nat} (ht : t ≤ t') (n : Nat) :
    ∀ {i a a' : Nat}, a ≤ a' → expSeries t n i a ≤ expSeries t' n i a' := by
  induction n with
  | zero => intro i a a' h; exact h
  | succ n ih =>
    intro i a a' h
    exact Nat.add_le_add h (ih (Nat.div_le_div_right (Nat.div_le_div_right (Nat.mul_le_mul h ht))))

theorem le_expSeries (t n : Nat) {i a : Nat} : a ≤ expSeries t n i a := by
  cases n with
  | zero => exact Nat.le_refl _
  | succ n => exact Nat.le_add_right _ _

theorem exp2Frac_ge (f : Nat) : 2 ^ expPlaces ≤ exp2Frac f := by
  unfold exp2Frac
  split
  · exact Nat.le_refl _
  · exact le_expSeries _ _

theorem exp2Frac_mono {f g : Nat} (h : f ≤ g) : exp2Frac f ≤ exp2Frac g := by
  rcases Nat.eq_zero_or_pos f with rfl | hf
  · exact exp2Frac_ge g
  · unfold exp2Frac
    rw [if_neg (by omega), if_neg (by omega)]
    exact expSeries_mono (Nat.div_le_div_right (Nat.mul_le_mul_right _ (Nat.mul_le_mul_right _ h))) _ (Nat.le_refl _)

theorem exp2Frac_le {f : Nat} (h : f < 2 ^ 149) : exp2Frac f ≤ 2 ^ (expPlaces + 1) :=
  (exp2Frac_mono (Nat.le_sub_one_of_lt h)).trans (by decide +kernel)

/-- What the reference function rounds, for an argument from -152 up. -/
def exp2Exact (x : Word) : Nat := exp2Frac (val x % 2 ^ 149).toNat * 2 ^ (floor x + 152).toNat

theorem floor_spec (x : Word) : floor x * 2 ^ 149 + val x % 2 ^ 149 = val x ∧
    0 ≤ val x % 2 ^ 149 ∧ val x % 2 ^ 149 < 2 ^ 149 := by
  have h : (0 : Int) < 2 ^ 149 := by positivity
  exact ⟨by unfold floor; exact Int.ediv_mul_add_emod _ _, Int.emod_nonneg _ h.ne', Int.emod_lt_of_pos _ h⟩

theorem floor_mono {x y : Word} (h : val x ≤ val y) : floor x ≤ floor y :=
  Int.ediv_le_ediv (by positivity) h

theorem exp2Exact_mono {x y : Word} (hx : -152 ≤ floor x) (h : val x ≤ val y) : exp2Exact x ≤ exp2Exact y := by
  obtain ⟨ex, x0, x1⟩ := floor_spec x
  obtain ⟨ey, y0, y1⟩ := floor_spec y
  unfold exp2Exact
  rcases Int.lt_or_eq_of_le (floor_mono h) with hlt | heq
  · have hf : exp2Frac (val x % 2 ^ 149).toNat ≤ 2 ^ (expPlaces + 1) := exp2Frac_le (by
      generalize val x % 2 ^ 149 = f at *
      norm_num at x1 ⊢
      omega)
    calc exp2Frac (val x % 2 ^ 149).toNat * 2 ^ (floor x + 152).toNat
        ≤ 2 ^ (expPlaces + 1) * 2 ^ (floor x + 152).toNat := Nat.mul_le_mul_right _ hf
      _ = 2 ^ expPlaces * 2 ^ ((floor x + 152).toNat + 1) := by ring
      _ ≤ exp2Frac (val y % 2 ^ 149).toNat * 2 ^ (floor y + 152).toNat :=
          Nat.mul_le_mul (exp2Frac_ge _) (Nat.pow_le_pow_right (by norm_num) (by omega))
  · rw [heq] at ex ⊢
    refine Nat.mul_le_mul_right _ (exp2Frac_mono ?_)
    generalize val x % 2 ^ 149 = f at *
    generalize val y % 2 ^ 149 = g at *
    generalize floor y * 2 ^ 149 = q at *
    omega

theorem exp2Reference_eq {x : Word} (h : isNaN x = false) :
    exp2Reference x = if 128 * 2 ^ 149 ≤ val x then pack false infMag
      else if val x < -152 * 2 ^ 149 then pack false 0
      else round (exp2Exact x) (2 ^ (expPlaces + 3)) false := by
  have e1 : val 0x43000000#32 = 128 * 2 ^ 149 := by decide
  have e2 : val 0xC3180000#32 = -152 * 2 ^ 149 := by decide
  have n1 : isNaN 0x43000000#32 = false := by decide
  have n2 : isNaN 0xC3180000#32 = false := by decide
  unfold exp2Reference exp2Exact
  simp only [h, Bool.false_eq_true, if_false, le_iff, lt_iff, n1, n2, e1, e2, true_and]
  push_cast
  rfl

/-- The reference function is monotone (R16). -/
theorem exp2Reference_mono {x y : Word} (h : le x y = true) : le (exp2Reference x) (exp2Reference y) = true := by
  obtain ⟨hx, hy, hv⟩ := (le_iff _ _).mp h
  have hn : ∀ z : Word, isNaN z = false → isNaN (exp2Reference z) = false := fun z hz => by
    rw [exp2Reference_eq hz]
    split
    · decide
    · split
      · decide
      · exact isNaN_round _ _ _
  refine (le_iff _ _).mpr ⟨hn x hx, hn y hy, ?_⟩
  have hp : (0 : Int) < 2 ^ 149 := by positivity
  have v0 : val (pack false 0) = 0 := by decide
  have nonneg : ∀ n : Nat, 0 ≤ val (round n (2 ^ (expPlaces + 3)) false) := fun n => by
    rw [val_round_of_nonneg _ _ (by omega)]; omega
  have leInf : ∀ n : Nat, val (round n (2 ^ (expPlaces + 3)) false) ≤ val (pack false infMag) := fun n => by
    rw [val_round_of_nonneg _ _ (by omega), val_pos_sign (sign_pack _ _), mag_pack, Nat.min_self]
    exact Int.ofNat_le.mpr (magVal_le_iff.mpr (Nat.min_le_right _ _))
  rw [exp2Reference_eq hx, exp2Reference_eq hy]
  split
  · rw [if_pos (by omega)]
  · split
    · rw [v0]
      split
      · decide
      · split
        · rw [v0]
        · exact nonneg _
    · next h1 h2 =>
      split
      · exact leInf _
      · rw [if_neg (by omega)]
        refine val_round_mono (Nat.two_pow_pos _) (by omega) (Int.ofNat_le.mpr (exp2Exact_mono ?_ hv))
        exact (Int.le_ediv_iff_mul_le hp).mpr (by omega)

/-- A word whose value is a small integer is no NaN. -/
theorem isNaN_of_integer {x : Word} {n : Int} (h1 : -10 ≤ n) (h2 : n ≤ 10) (h : val x = n * 2 ^ 149) :
    isNaN x = false := by
  by_contra hs
  have hm : infMag ≤ mag x := by simp only [isNaN, Bool.not_eq_false, decide_eq_true_eq] at hs; omega
  have hv : 2 ^ 200 ≤ magVal (mag x) := le_trans (by decide) (magVal_le_iff.mpr hm)
  unfold val at h
  generalize magVal (mag x) = v at *
  split at h <;> omega

/-- The reference function is exact at the integers in [-10, 10] (R16). -/
theorem exp2Reference_int {x : Word} {n : Int} (h1 : -10 ≤ n) (h2 : n ≤ 10) (h : val x = n * 2 ^ 149) :
    exp2Reference x = pow2 n := by
  have hp : (0 : Int) < 2 ^ 149 := by positivity
  have hf : floor x = n := by unfold floor; rw [h]; exact Int.mul_ediv_cancel _ hp.ne'
  have hr : val x % 2 ^ 149 = 0 := by rw [h]; exact Int.mul_emod_left _ _
  have hx := isNaN_of_integer h1 h2 h
  rw [exp2Reference_eq hx, if_neg (by rw [h]; omega), if_neg (by rw [h]; omega)]
  unfold exp2Exact
  rw [hf, hr]
  clear h hf hr hx
  interval_cases n <;> decide +kernel

/-! Powers of two and the bounds of the search. -/

theorem pow2_ranges {k : Int} (h1 : -10 ≤ k) (h2 : k ≤ 10) : isFinite (pow2 k) = true ∧ 0 < val (pow2 k) := by
  interval_cases k <;> decide

theorem pow2_mono {j k : Int} (h0 : -10 ≤ j) (h1 : j ≤ k) (h2 : k ≤ 10) : val (pow2 j) ≤ val (pow2 k) := by
  have h : ∀ i, -10 ≤ i → i ≤ 10 → pow2 i = pack false ((i + 127).toNat * 2 ^ 23) := fun i _ _ => by
    unfold pow2 pack
    rw [Nat.min_eq_left (by simp only [infMag]; omega)]
    simp
  rw [h j h0 (by omega), h k (by omega) h2, val_pos_sign (sign_pack _ _), val_pos_sign (sign_pack _ _), mag_pack,
    mag_pack]
  exact_mod_cast magVal_le_iff.mpr (min_le_min_right _ (Nat.mul_le_mul_right _ (by omega)))

/-- The least integer not below a value is at least the greatest not above it. -/
theorem floor_le_ceil (x : Word) : floor x ≤ ceil x := by
  unfold floor ceil
  have h : (0 : Int) < 2 ^ 149 := by positivity
  generalize (2 : Int) ^ 149 = one at *
  have h1 := Int.ediv_mul_le (val x) (ne_of_gt h)
  have h2 := Int.ediv_mul_le (-val x) (ne_of_gt h)
  nlinarith

/-- The integers around a word of [-10, 10]. -/
theorem floor_ceil_range {x : Word} (h1 : -10 * 2 ^ 149 ≤ val x) (h2 : val x ≤ 10 * 2 ^ 149) :
    -10 ≤ floor x ∧ floor x ≤ ceil x ∧ ceil x ≤ 10 := by
  have hp : (0 : Int) < 2 ^ 149 := by positivity
  refine ⟨(Int.le_ediv_iff_mul_le hp).mpr h1, floor_le_ceil x, ?_⟩
  have : -10 ≤ (-(val x)) / 2 ^ 149 := (Int.le_ediv_iff_mul_le hp).mpr (by
    generalize (2 : Int) ^ 149 = one at *; omega)
  unfold ceil; omega

/-- The bounds of the search at a word: below -10, above 10, and between. -/
theorem exp2_bounds (x : Word) (hx : isNaN x = false) :
    (val x < -10 * 2 ^ 149 ∧ exp2Low x = pack true infMag ∧ exp2High x = pow2 (-10)) ∨
    (10 * 2 ^ 149 < val x ∧ exp2Low x = pow2 10 ∧ exp2High x = pack false infMag) ∨
    (-10 * 2 ^ 149 ≤ val x ∧ val x ≤ 10 * 2 ^ 149 ∧ exp2Low x = pow2 (floor x) ∧ exp2High x = pow2 (ceil x)) := by
  have e1 : val 0xC1200000#32 = -10 * 2 ^ 149 := by decide
  have e2 : val 0x41200000#32 = 10 * 2 ^ 149 := by decide
  have n1 : isNaN 0xC1200000#32 = false := by decide
  have n2 : isNaN 0x41200000#32 = false := by decide
  unfold exp2Low exp2High
  simp only [lt_iff, hx, n1, n2, e1, e2, true_and]
  generalize val x = v
  by_cases h1 : v < -10 * 2 ^ 149
  · left; simp only [h1, if_true, and_self]
  · by_cases h2 : 10 * 2 ^ 149 < v
    · right; left; simp only [h1, h2, if_true, if_false, and_self]
    · right; right; simp only [h1, h2, if_false, and_true]; omega

/-- The bounds are two numbers in order. -/
theorem exp2Low_le_exp2High {x : Word} (hx : isNaN x = false) : isNaN (exp2Low x) = false ∧
    isNaN (exp2High x) = false ∧ val (exp2Low x) ≤ val (exp2High x) := by
  rcases exp2_bounds x hx with ⟨-, h1, h2⟩ | ⟨-, h1, h2⟩ | ⟨l, u, h1, h2⟩
  · rw [h1, h2]; decide
  · rw [h1, h2]; decide
  · obtain ⟨f1, fc, c1⟩ := floor_ceil_range l u
    rw [h1, h2]
    exact ⟨isNaN_of_finite (pow2_ranges f1 (by omega)).1, isNaN_of_finite (pow2_ranges (by omega) c1).1,
      pow2_mono f1 fc c1⟩

/-! The search. -/

/-- The value found lies within the bounds. -/
theorem within_descend (raw : Word → Word) (k : Int) (depth : Nat) :
    ∀ {m : Int} {lo hi : Word}, isNaN lo = false → isNaN hi = false → val lo ≤ val hi →
      within lo hi (descend raw k depth m lo hi) = true := by
  have hs : ∀ (m : Int) {lo hi : Word}, isNaN lo = false → isNaN hi = false → val lo ≤ val hi →
      within lo hi (sanitize (raw (ofKey m)) lo hi lo) = true := fun m lo hi hl hh h =>
    within_sanitize _ hl hh h ((within_iff _ _ _).mpr ⟨hl, hh, hl, le_refl _, h⟩)
  induction depth with
  | zero => intro m lo hi hl hh h; exact hs m hl hh h
  | succ depth ih =>
    intro m lo hi hl hh h
    obtain ⟨-, -, n, l, u⟩ := (within_iff _ _ _).mp (hs m hl hh h)
    unfold descend
    dsimp only
    split
    · exact hs m hl hh h
    · split
      · obtain ⟨-, -, n', l', u'⟩ := (within_iff _ _ _).mp (ih (m := m - 2 ^ depth) hl n l)
        exact (within_iff _ _ _).mpr ⟨hl, hh, n', l', u'.trans u⟩
      · obtain ⟨-, -, n', l', u'⟩ := (within_iff _ _ _).mp (ih (m := m + 2 ^ depth) n hh u)
        exact (within_iff _ _ _).mpr ⟨hl, hh, n', l.trans l', u'⟩

/-- The value found never falls as the key rises. -/
theorem descend_mono (raw : Word → Word) {k k' : Int} (hk : k ≤ k') (depth : Nat) :
    ∀ {m : Int} {lo hi : Word}, isNaN lo = false → isNaN hi = false → val lo ≤ val hi →
      val (descend raw k depth m lo hi) ≤ val (descend raw k' depth m lo hi) := by
  induction depth with
  | zero => intro m lo hi _ _ _; exact le_refl _
  | succ depth ih =>
    intro m lo hi hl hh h
    obtain ⟨-, -, n, l, u⟩ := (within_iff _ _ _).mp
      (within_sanitize (raw (ofKey m)) hl hh h ((within_iff _ _ _).mpr ⟨hl, hh, hl, le_refl _, h⟩))
    have low := fun q => ((within_iff _ _ _).mp (within_descend raw q depth (m := m - 2 ^ depth) hl n l)).2.2.2.2
    have high := fun q => ((within_iff _ _ _).mp (within_descend raw q depth (m := m + 2 ^ depth) n hh u)).2.2.2.1
    unfold descend
    dsimp only
    split
    · next e =>
      split
      · exact le_refl _
      · rw [if_neg (by omega)]; exact high _
    · split
      · split
        · exact low _
        · split
          · exact ih hl n l
          · exact (low _).trans (high _)
      · rw [if_neg (by omega), if_neg (by omega)]
        exact ih n hh u

/-- A settled EXP2 lies within the bounds of its argument. -/
theorem within_settledExp2 (raw : Word → Word) {x : Word} (hx : isNaN x = false) :
    within (exp2Low x) (exp2High x) (settledExp2 raw x) = true := by
  obtain ⟨n1, n2, h⟩ := exp2Low_le_exp2High hx
  unfold settledExp2
  rw [hx]
  exact within_descend raw _ _ n1 n2 h

/-- On [-10, 10], EXP2 gives a finite positive value (R16). -/
theorem exp2_ranges (c : Exp2Choice) {x : Word} (h : within 0xC1200000#32 0x41200000#32 x = true) :
    isFinite (exp2 c x) = true ∧ 0 < val (exp2 c x) := by
  obtain ⟨-, -, hx, h1, h2⟩ := (within_iff _ _ _).mp h
  have e1 : val 0xC1200000#32 = -10 * 2 ^ 149 := by decide
  have e2 : val 0x41200000#32 = 10 * 2 ^ 149 := by decide
  cases c with
  | reference =>
    have m1 := exp2Reference_mono (x := 0xC1200000#32) (y := x) ((le_iff _ _).mpr ⟨by decide, hx, h1⟩)
    have m2 := exp2Reference_mono (x := x) (y := 0x41200000#32) ((le_iff _ _).mpr ⟨hx, by decide, h2⟩)
    rw [exp2Reference_int (by norm_num) (by norm_num) e1] at m1
    rw [exp2Reference_int (by norm_num) (by norm_num) e2] at m2
    obtain ⟨n1, n, l⟩ := (le_iff _ _).mp m1
    obtain ⟨-, n2, u⟩ := (le_iff _ _).mp m2
    exact ⟨finite_of_within (lo := pow2 (-10)) (hi := pow2 10) (by decide) (by decide)
      ((within_iff _ _ _).mpr ⟨n1, n2, n, l, u⟩), lt_of_lt_of_le (by decide) l⟩
  | free id =>
    have hw := within_settledExp2 (Config.exp2Raw id) hx
    rw [e1] at h1
    rw [e2] at h2
    obtain ⟨f1, fc, c1⟩ := floor_ceil_range h1 h2
    have hb : exp2Low x = pow2 (floor x) ∧ exp2High x = pow2 (ceil x) := by
      rcases exp2_bounds x hx with ⟨hc, -⟩ | ⟨hc, -⟩ | ⟨-, -, hb⟩
      · exact absurd h1 (not_le.mpr hc)
      · exact absurd h2 (not_le.mpr hc)
      · exact hb
    rw [hb.1, hb.2] at hw
    obtain ⟨g1, g2⟩ := pow2_ranges f1 (by omega)
    exact ⟨finite_of_within g1 (pow2_ranges (by omega) c1).1 hw,
      lt_of_lt_of_le g2 ((within_iff _ _ _).mp hw).2.2.2.1⟩

end Sys2Proof.Machine.F32
end

