-- ==== Sys2Proof/Laws/Memory.lean ====
section
/-! SUPPORT. The laws of a buffer: read after write, other places kept, the canonical form kept
(spec/20_memory.md R60 to R67). -/

namespace Sys2Proof.Machine

/-! Bytes. -/

theorem Memory.byte?_put (m : Memory) (a : Nat) (v : Byte) (b : Nat) :
    Memory.byte? (Memory.put m a v) b = if b = a then some v else Memory.byte? m b := by
  induction m with
  | nil => simp [Memory.put, Memory.byte?]
  | cons c rest ih =>
    obtain ⟨k, x⟩ := c
    simp only [Memory.put]
    split
    · simp [Memory.byte?]
    · split
      · next h => subst h; simp only [Memory.byte?]; split <;> rfl
      · next h1 h2 =>
        simp only [Memory.byte?, ih]
        split
        · next h => subst h; simp [Ne.symm h2]
        · rfl

theorem Memory.byte_put (p : Nat → Byte) (m : Memory) (a : Nat) (v : Byte) (b : Nat) :
    Memory.byte p (Memory.put m a v) b = if b = a then v else Memory.byte p m b := by
  simp only [Memory.byte, Memory.byte?_put]
  split <;> rfl

theorem Memory.mem_put {m : Memory} {a : Nat} {v : Byte} {c : Host.Cell} (h : c ∈ Memory.put m a v) :
    c.1 = a ∨ c ∈ m := by
  induction m with
  | nil => simp [Memory.put] at h; exact .inl (by simp [h])
  | cons d rest ih =>
    obtain ⟨k, x⟩ := d
    simp only [Memory.put] at h
    split at h
    · simp only [List.mem_cons] at h ⊢
      rcases h with rfl | h
      · exact .inl rfl
      · exact .inr h
    · split at h
      · simp only [List.mem_cons] at h ⊢
        rcases h with rfl | h
        · exact .inl rfl
        · exact .inr (.inr h)
      · simp only [List.mem_cons] at h ⊢
        rcases h with h | h
        · exact .inr (.inl h)
        · rcases ih h with h | h
          · exact .inl h
          · exact .inr (.inr h)

theorem Memory.put_wf {m : Memory} (h : m.wf) (a : Nat) (v : Byte) : (Memory.put m a v).wf := by
  induction m with
  | nil => simp [Memory.put, Memory.wf]
  | cons c rest ih =>
    obtain ⟨k, x⟩ := c
    simp only [Memory.wf, List.pairwise_cons] at h
    simp only [Memory.put]
    split
    · next hlt =>
      simp only [Memory.wf, List.pairwise_cons, List.mem_cons, forall_eq_or_imp]
      exact ⟨⟨hlt, fun d hd => Nat.lt_trans hlt (h.1 d hd)⟩, h⟩
    · split
      · next heq =>
        subst heq
        simp only [Memory.wf, List.pairwise_cons]
        exact h
      · next h1 h2 =>
        simp only [Memory.wf, List.pairwise_cons]
        refine ⟨fun d hd => ?_, ih h.2⟩
        rcases Memory.mem_put hd with hd | hd
        · show k < d.1
          rw [hd]
          omega
        · exact h.1 d hd

theorem Memory.put_below {m : Memory} {n : Nat} (h : Memory.below n m) {a : Nat} (ha : a < n) (v : Byte) :
    Memory.below n (Memory.put m a v) := fun c hc => by
  rcases Memory.mem_put hc with hc | hc
  · rw [hc]; exact ha
  · exact h c hc

/-! Words. -/

theorem wordOfBytes_byteOfWord (w : Word) :
    wordOfBytes (byteOfWord w 0) (byteOfWord w 1) (byteOfWord w 2) (byteOfWord w 3) = w := by
  simp only [wordOfBytes, byteOfWord]
  ext i hi
  simp only [BitVec.getElem_append, BitVec.getElem_extractLsb']
  simp only [← BitVec.getLsbD_eq_getElem]
  split
  · simp
  · split
    · next h1 h2 => congr 1; omega
    · split
      · next h1 h2 h3 => congr 1; omega
      · next h1 h2 h3 => congr 1; omega

/-- Read after write of a word (R70). -/
theorem Memory.word_putWord (p : Nat → Byte) (m : Memory) (a : Nat) (w : Word) (b : Nat) :
    Memory.word p (Memory.putWord m a w) b = if b = a then w else Memory.word p m b := by
  unfold Memory.word Memory.putWord
  split
  · next h =>
    subst h
    simp only [Memory.byte_put]
    have e1 : ∀ i j : Nat, (4 * b + i = 4 * b + j) = (i = j) := fun i j => by simp
    have e2 : ∀ i : Nat, (4 * b = 4 * b + i) = (i = 0) := fun i => by simp
    have e3 : ∀ i : Nat, (4 * b + i = 4 * b) = (i = 0) := fun i => by simp
    simp only [e1, e2, e3]
    norm_num
    exact wordOfBytes_byteOfWord w
  · next h =>
    simp only [Memory.byte_put]
    repeat rw [if_neg (by omega)]

theorem Memory.putWord_wf {m : Memory} (h : m.wf) (a : Nat) (w : Word) : (Memory.putWord m a w).wf :=
  Memory.put_wf (Memory.put_wf (Memory.put_wf (Memory.put_wf h _ _) _ _) _ _) _ _

theorem Memory.putWord_below {m : Memory} {n : Nat} (h : Memory.below (4 * n) m) {a : Nat} (ha : a < n)
    (w : Word) : Memory.below (4 * n) (Memory.putWord m a w) :=
  Memory.put_below (Memory.put_below (Memory.put_below (Memory.put_below h (by omega) _) (by omega) _) (by omega) _)
    (by omega) _

/-! The buffers of a state. -/

theorem State.ibufWord_writeIbuf (s : State) (a : Nat) (w : Word) (b : Nat) :
    (s.writeIbuf a w).ibufWord b = if b = a then w else s.ibufWord b :=
  Memory.word_putWord _ _ _ _ _

theorem State.obufWord_writeObuf (s : State) (a : Nat) (w : Word) (b : Nat) :
    (s.writeObuf a w).obufWord b = if b = a then w else s.obufWord b :=
  Memory.word_putWord _ _ _ _ _

/-- The words of OBUF depend on nothing but OBUF and the seed. -/
theorem State.obufWord_congr {s t : State} (h : t.obuf = s.obuf) (hp : t.params = s.params) (a : Nat) :
    t.obufWord a = s.obufWord a := by simp [State.obufWord, h, hp]

/-- The words of IBUF depend on nothing but IBUF and the seed. -/
theorem State.ibufWord_congr {s t : State} (h : t.ibuf = s.ibuf) (hp : t.params = s.params) (a : Nat) :
    t.ibufWord a = s.ibufWord a := by simp [State.ibufWord, h, hp]

/-! A response changes no buffer word. -/

@[simp] theorem State.respond_obufWord (s : State) (w : Word) (a : Nat) :
    (s.respond w).obufWord a = s.obufWord a := rfl
@[simp] theorem State.respond_ibufWord (s : State) (w : Word) (a : Nat) :
    (s.respond w).ibufWord a = s.ibufWord a := rfl
@[simp] theorem State.raise_obufWord (s : State) (e : ErrorKind) (a : Nat) :
    (s.raise e).obufWord a = s.obufWord a := rfl
@[simp] theorem State.raise_ibufWord (s : State) (e : ErrorKind) (a : Nat) :
    (s.raise e).ibufWord a = s.ibufWord a := rfl

end Sys2Proof.Machine
end

