-- ==== Sys2Proof/Laws/Ranges.lean ====
section
/-! SUPPORT. Where the block's numeric functions lie (spec/43_slope_generator.md R193's reason, per function): a
phase, a warp, a shape and a filter value in [0, 1], a frequency in [F_EPS, F_MAX], a period in [1, 2^24]. -/

namespace Sys2Proof.Machine

open F32

/-! Constants, in units of 2^-149, relative to the value of 1.0. -/

theorem val_f0 : val Config.f0 = 0 := by decide
theorem two_pow_149 : (2 : Int) ^ 149 = val Config.f1 := by decide
theorem val_f1_pos : 0 < val Config.f1 := by decide
theorem val_f2 : val Config.f2 = 2 * val Config.f1 := by decide
theorem val_fHalf : 2 * val Config.fHalf = val Config.f1 := by decide

theorem isNaN_f0 : isNaN Config.f0 = false := by decide
theorem isNaN_f1 : isNaN Config.f1 = false := by decide
theorem isFinite_f0 : isFinite Config.f0 = true := by decide
theorem isFinite_f1 : isFinite Config.f1 = true := by decide
theorem isFinite_f2 : isFinite Config.f2 = true := by decide
theorem isFinite_fHalf : isFinite Config.fHalf = true := by decide

/-! The four operations, with 1.0's value for 2^149. -/

section Ops
variable {a b lo hi c : Word}

theorem within_mul_one (ha : isFinite a = true) (hb : isFinite b = true) (hlo : isNaN lo = false)
    (hhi : isNaN hi = false) (h1 : val lo * val Config.f1 ≤ val a * val b)
    (h2 : val a * val b ≤ val hi * val Config.f1) : within lo hi (mul a b) = true :=
  within_mul ha hb hlo hhi (by rw [two_pow_149]; exact h1) (by rw [two_pow_149]; exact h2)

theorem within_div_one (ha : isFinite a = true) (hb : isFinite b = true) (h0 : 0 < val b) (hlo : isNaN lo = false)
    (hhi : isNaN hi = false) (h1 : val lo * val b ≤ val a * val Config.f1)
    (h2 : val a * val Config.f1 ≤ val hi * val b) : within lo hi (div a b) = true :=
  within_div ha hb h0 hlo hhi (by rw [two_pow_149]; exact h1) (by rw [two_pow_149]; exact h2)

theorem val_mul_le_one (ha : isFinite a = true) (hb : isFinite b = true) (hc : isNaN c = false)
    (h : val a * val b ≤ val c * val Config.f1) : val (mul a b) ≤ val c :=
  val_mul_le ha hb hc (by rw [two_pow_149]; exact h)

theorem le_val_mul_one (ha : isFinite a = true) (hb : isFinite b = true) (hc : isNaN c = false)
    (h : val c * val Config.f1 ≤ val a * val b) : val c ≤ val (mul a b) :=
  le_val_mul ha hb hc (by rw [two_pow_149]; exact h)

end Ops

/-! The unit interval. -/

theorem unit_iff (x : Word) :
    unitRange x = true ↔ isNaN x = false ∧ 0 ≤ val x ∧ val x ≤ val Config.f1 := by
  unfold unitRange
  rw [within_iff, val_f0]
  simp [isNaN_f0, isNaN_f1]

theorem unit_finite {x : Word} (h : unitRange x = true) : isFinite x = true :=
  finite_of_within isFinite_f0 isFinite_f1 h

theorem unit_f0 : unitRange Config.f0 = true := by decide
theorem unit_f1 : unitRange Config.f1 = true := by decide

theorem unit_clamp {x : Word} (h : isNaN x = false) : unitRange (clamp x Config.f0 Config.f1) = true :=
  within_clamp h isNaN_f0 isNaN_f1 (by rw [val_f0]; exact le_of_lt val_f1_pos)

theorem unit_sanitize (x : Word) : unitRange (sanitizeUnit x) = true :=
  within_sanitize x isNaN_f0 isNaN_f1 (by rw [val_f0]; exact le_of_lt val_f1_pos) (by decide)

theorem unit_mul {a b : Word} (ha : unitRange a = true) (hb : unitRange b = true) :
    unitRange (mul a b) = true := by
  obtain ⟨-, a0, a1⟩ := (unit_iff a).mp ha
  obtain ⟨-, b0, b1⟩ := (unit_iff b).mp hb
  refine within_mul_one (unit_finite ha) (unit_finite hb) isNaN_f0 isNaN_f1 ?_ ?_
  · rw [val_f0, Int.zero_mul]; exact mul_nonneg a0 b0
  · exact mul_le_mul a1 b1 b0 (le_of_lt val_f1_pos)

/-- 1 - x. -/
theorem unit_one_sub {x : Word} (hx : unitRange x = true) : unitRange (sub Config.f1 x) = true := by
  obtain ⟨-, x0, x1⟩ := (unit_iff x).mp hx
  exact within_sub isFinite_f1 (unit_finite hx) isNaN_f0 isNaN_f1 (by rw [val_f0]; omega) (by omega)

theorem unit_fourth {x : Word} (hx : unitRange x = true) : unitRange (fourth x) = true :=
  unit_mul (unit_mul hx hx) (unit_mul hx hx)

/-- [-1, 1]. -/
def absUnit (x : Word) : Bool := within (neg Config.f1) Config.f1 x

theorem absUnit_finite {x : Word} (h : absUnit x = true) : isFinite x = true :=
  finite_of_within (by decide) isFinite_f1 h

theorem absUnit_iff (x : Word) :
    absUnit x = true ↔ isNaN x = false ∧ -val Config.f1 ≤ val x ∧ val x ≤ val Config.f1 := by
  unfold absUnit
  rw [within_iff, val_neg]
  simp [isNaN_f1]

theorem absUnit_sub {a b : Word} (ha : unitRange a = true) (hb : unitRange b = true) :
    absUnit (sub a b) = true := by
  obtain ⟨-, a0, a1⟩ := (unit_iff a).mp ha
  obtain ⟨-, b0, b1⟩ := (unit_iff b).mp hb
  exact within_sub (unit_finite ha) (unit_finite hb) (by simp [isNaN_f1]) isNaN_f1
    (by rw [val_neg]; omega) (by omega)

/-- A product by a word of [0, 1] stays on the same side of zero, no farther from it. -/
theorem val_mul_unit {a d : Word} (ha : unitRange a = true) (hd : isFinite d = true) :
    isNaN (mul a d) = false ∧ (0 ≤ val d → 0 ≤ val (mul a d) ∧ val (mul a d) ≤ val d) ∧
      (val d ≤ 0 → val d ≤ val (mul a d) ∧ val (mul a d) ≤ 0) := by
  obtain ⟨-, a0, a1⟩ := (unit_iff a).mp ha
  have hfa := unit_finite ha
  have hnd := isNaN_of_finite hd
  refine ⟨isNaN_mul hfa hd, fun h => ⟨?_, ?_⟩, fun h => ⟨?_, ?_⟩⟩
  · rw [← val_f0]
    exact le_val_mul_one hfa hd isNaN_f0 (by rw [val_f0, Int.zero_mul]; exact mul_nonneg a0 h)
  · exact val_mul_le_one hfa hd hnd (by nlinarith)
  · exact le_val_mul_one hfa hd hnd (by nlinarith)
  · rw [← val_f0]
    exact val_mul_le_one hfa hd isNaN_f0 (by rw [val_f0, Int.zero_mul]; nlinarith)

theorem finite_mul_unit {a d : Word} (ha : unitRange a = true) (hd : isFinite d = true) :
    isFinite (mul a d) = true := by
  obtain ⟨mn, mp, mm⟩ := val_mul_unit ha hd
  have hfin := (isFinite_iff _).mp hd
  have hpos : (0 : Int) < magVal infMag := by decide
  rw [isFinite_iff]
  generalize ((magVal infMag : Nat) : Int) = big at *
  generalize val (mul a d) = m at *
  rcases Int.le_total 0 (val d) with hs | hs
  · have := mp hs; exact ⟨mn, by omega, by omega⟩
  · have := mm hs; exact ⟨mn, by omega, by omega⟩

/-! The advances (spec/43_slope_generator.md R176, spec/42_ramp_extractor.md R149). -/

/-- [F_EPS, F_MAX]. -/
abbrev freqRange (f : Word) : Bool := within Config.fEps Config.fMax f

theorem freq_unit {f : Word} (h : freqRange f = true) : unitRange f = true := by
  obtain ⟨-, -, hn, h1, h2⟩ := (within_iff _ _ _).mp h
  rw [unit_iff]
  have : 0 < val Config.fEps := by decide
  have : val Config.fMax < val Config.f1 := by decide
  exact ⟨hn, by omega, by omega⟩

theorem unit_sum {a b : Word} (ha : unitRange a = true) (hb : unitRange b = true) :
    within Config.f0 Config.f2 (add a b) = true := by
  obtain ⟨-, a0, a1⟩ := (unit_iff a).mp ha
  obtain ⟨-, b0, b1⟩ := (unit_iff b).mp hb
  exact within_add (unit_finite ha) (unit_finite hb) isNaN_f0 (isNaN_of_finite isFinite_f2)
    (by rw [val_f0]; omega) (by rw [val_f2]; omega)

theorem unit_of_sum_lt {x : Word} (h : within Config.f0 Config.f2 x = true) (h1 : le Config.f1 x = false) :
    unitRange x = true := by
  obtain ⟨-, -, hn, h0, -⟩ := (within_iff _ _ _).mp h
  rw [le_eq_false isNaN_f1 hn] at h1
  rw [val_f0] at h0
  exact (unit_iff _).mpr ⟨hn, h0, le_of_lt h1⟩

theorem unit_of_sum_ge {x : Word} (h : within Config.f0 Config.f2 x = true) (h1 : le Config.f1 x = true) :
    unitRange (sub x Config.f1) = true := by
  obtain ⟨-, -, hn, -, h2⟩ := (within_iff _ _ _).mp h
  rw [le_iff] at h1
  rw [val_f2] at h2
  exact within_sub (finite_of_within isFinite_f0 isFinite_f2 h) isFinite_f1 isNaN_f0 isNaN_f1
    (by rw [val_f0]; omega) (by omega)

theorem unit_wrapAdvance {p f : Word} (hp : unitRange p = true) (hf : freqRange f = true) :
    unitRange (wrapAdvance p f).phase = true := by
  have hs := unit_sum hp (freq_unit hf)
  unfold wrapAdvance
  split
  · next h => exact unit_of_sum_ge hs h
  · next h => exact unit_of_sum_lt hs (by simpa using h)

theorem unit_holdAdvance {p f : Word} (hp : unitRange p = true) (hf : freqRange f = true) :
    unitRange (holdAdvance p f).phase = true := by
  have hs := unit_sum hp (freq_unit hf)
  unfold holdAdvance
  split
  · exact unit_f1
  · next h => exact unit_of_sum_lt hs (by simpa using h)

theorem unit_wrapOnce {x : Word} (h : within Config.f0 Config.f2 x = true) : unitRange (wrapOnce x) = true := by
  unfold wrapOnce
  split
  · next h1 => exact unit_of_sum_ge h h1
  · next h1 => exact unit_of_sum_lt h (by simpa using h1)

/-! The transfer curve (R180 to R182). -/

theorem isNaN_div_pos {a b : Word} (ha : isFinite a = true) (hb : isFinite b = true) (h : 0 < val b) :
    isNaN (div a b) = false := isNaN_div ha hb h

theorem unit_warp {p s : Word} (hp : unitRange p = true) (hs : unitRange s = true) :
    unitRange (warp p s).u = true := by
  obtain ⟨np, p0, p1⟩ := (unit_iff p).mp hp
  obtain ⟨ns, s0, s1⟩ := (unit_iff s).mp hs
  unfold warp
  split
  · exact unit_clamp np
  · next h1 =>
    rw [Bool.not_eq_true, le_eq_false isNaN_f1 ns] at h1
    split
    · next h2 =>
      rw [lt_iff] at h2
      exact unit_clamp (isNaN_div_pos (unit_finite hp) (unit_finite hs) (lt_of_le_of_lt p0 h2.2.2))
    · dsimp only
      refine unit_clamp (isNaN_div_pos (unit_finite (unit_one_sub hp)) (unit_finite (unit_one_sub hs)) ?_)
      have hprev : val s ≤ val 0x3F7FFFFF#32 := val_le_prev (b := Config.f1) (by decide) h1
      have h3 : val 0x33800000#32 = val Config.f1 - val 0x3F7FFFFF#32 := by decide
      have h4 : val 0x33800000#32 ≤ val (sub Config.f1 s) :=
        le_val_sub isFinite_f1 (unit_finite hs) (by decide) (by omega)
      exact lt_of_lt_of_le (by decide) h4

theorem unit_warpOrRest {r : Bool} {p s : Word} (hp : unitRange p = true) (hs : unitRange s = true) :
    unitRange (warpOrRest r p s).u = true := by
  unfold warpOrRest
  split
  · exact unit_warp hp hs
  · exact unit_f0

theorem int_double_nonneg {one x : Int} (h1 : 0 < one) (h : 0 ≤ x) : 0 * one ≤ 2 * one * x := by nlinarith

theorem int_double_le {one half x : Int} (h1 : 0 < one) (hh : 2 * half = one) (h : x < half) :
    2 * one * x ≤ one * one := by nlinarith

theorem int_le_double {one half x : Int} (h1 : 0 < one) (hh : 2 * half = one) (h : half ≤ x) :
    one * one ≤ 2 * one * x := by nlinarith

theorem unit_shapeCurve {u h : Word} (hu : unitRange u = true) (hh : unitRange h = true) :
    unitRange (shapeCurve u h) = true := by
  obtain ⟨nh, h0, h1⟩ := (unit_iff h).mp hh
  have hK := val_f1_pos
  have hH := val_fHalf
  have htwo : isFinite (mul Config.f2 h) = true ∧ val (mul Config.f2 h) ≤ val Config.f2 ∧ 0 ≤ val (mul Config.f2 h) := by
    have hw : within Config.f0 Config.f2 (mul Config.f2 h) = true :=
      within_mul_one isFinite_f2 (unit_finite hh) isNaN_f0 (isNaN_of_finite isFinite_f2)
        (by rw [val_f0, val_f2]; nlinarith) (by rw [val_f2]; nlinarith)
    have hw' := (within_iff _ _ _).mp hw
    rw [val_f0] at hw'
    exact ⟨finite_of_within isFinite_f0 isFinite_f2 hw, hw'.2.2.2.2, hw'.2.2.2.1⟩
  obtain ⟨tf, t1, t0⟩ := htwo
  rw [val_f2] at t1
  have hc := unit_fourth hu
  have hq := unit_one_sub (unit_fourth (unit_one_sub hu))
  unfold shapeCurve
  refine unit_clamp ?_
  split
  · next hlt =>
    have hlt := ((lt_iff _ _).mp hlt).2.2
    have ha : unitRange (mul Config.f2 h) = true :=
      within_mul_one isFinite_f2 (unit_finite hh) isNaN_f0 isNaN_f1
        (by rw [val_f0, val_f2]; exact int_double_nonneg hK h0) (by rw [val_f2]; exact int_double_le hK hH hlt)
    have hd := absUnit_sub hu hc
    exact isNaN_add (unit_finite hc) (finite_mul_unit ha (absUnit_finite hd))
  · next hge =>
    rw [Bool.not_eq_true, lt_eq_false nh (by decide)] at hge
    have hge2 : val Config.f1 ≤ val (mul Config.f2 h) :=
      le_val_mul_one isFinite_f2 (unit_finite hh) isNaN_f1 (by rw [val_f2]; exact int_le_double hK hH hge)
    have ha : unitRange (sub (mul Config.f2 h) Config.f1) = true :=
      within_sub tf isFinite_f1 isNaN_f0 isNaN_f1 (by rw [val_f0]; omega) (by omega)
    have hd := absUnit_sub hq hu
    exact isNaN_add (unit_finite hu) (finite_mul_unit ha (absUnit_finite hd))

/-- The coefficient is no NaN and not negative. -/
theorem smoothCoefficient_nonneg {sigma f : Word} (hs : unitRange sigma = true) (hf : freqRange f = true) :
    isNaN (smoothCoefficient sigma f) = false ∧ 0 ≤ val (smoothCoefficient sigma f) := by
  obtain ⟨ns, s0, s1⟩ := (unit_iff sigma).mp hs
  have hfu := freq_unit hf
  obtain ⟨-, f0, f1⟩ := (unit_iff f).mp hfu
  have hK := val_f1_pos
  unfold smoothCoefficient
  split
  · exact ⟨isNaN_f1, by omega⟩
  · next h =>
    rw [Bool.not_eq_true, le_eq_false ns (by decide)] at h
    have hnext : val 0x3F000001#32 ≤ val sigma := val_next_le (a := Config.fHalf) (by decide) h
    have h2 : val 0x3F800001#32 = 2 * val 0x3F000001#32 := by decide
    have h3 : val 0x3F800001#32 ≤ val (mul Config.f2 sigma) :=
      le_val_mul_one isFinite_f2 (unit_finite hs) (by decide) (by rw [val_f2]; nlinarith)
    have hw : within Config.f0 Config.f2 (mul Config.f2 sigma) = true :=
      within_mul_one isFinite_f2 (unit_finite hs) isNaN_f0 (isNaN_of_finite isFinite_f2)
        (by rw [val_f0, val_f2]; nlinarith) (by rw [val_f2]; nlinarith)
    have h4 : val 0x34000000#32 = val 0x3F800001#32 - val Config.f1 := by decide
    have hwv := (within_iff _ _ _).mp hw
    rw [val_f2] at hwv
    have hden : within 0x34000000#32 Config.f1 (sub (mul Config.f2 sigma) Config.f1) = true :=
      within_sub (finite_of_within isFinite_f0 isFinite_f2 hw) isFinite_f1 (by decide) isNaN_f1
        (by omega) (by omega)
    have hdv := (within_iff _ _ _).mp hden
    have hdf := finite_of_within (by decide) isFinite_f1 hden
    have hpos : 0 < val (sub (mul Config.f2 sigma) Config.f1) := lt_of_lt_of_le (by decide) hdv.2.2.2.1
    have h8 : val Config.smoothK = 8 * val Config.f1 := by decide
    have hn : within Config.f0 Config.smoothK (mul Config.smoothK f) = true :=
      within_mul_one (by decide) (unit_finite hfu) isNaN_f0 (by decide)
        (by rw [val_f0, h8]; nlinarith) (by rw [h8]; nlinarith)
    have hnv := (within_iff _ _ _).mp hn
    rw [val_f0] at hnv
    have hnf := finite_of_within isFinite_f0 (by decide) hn
    refine ⟨isNaN_div hnf hdf hpos, ?_⟩
    rw [← val_f0]
    refine le_val_div hnf hdf hpos isNaN_f0 ?_
    rw [val_f0, Int.zero_mul, two_pow_149]
    exact mul_nonneg hnv.2.2.2.1 (le_of_lt hK)

theorem unit_smoothed {sigma f w y : Word} (hs : unitRange sigma = true) (hf : freqRange f = true)
    (hw : unitRange w = true) (hy : unitRange y = true) : unitRange (smoothed sigma f w y) = true := by
  obtain ⟨cn, c0⟩ := smoothCoefficient_nonneg hs hf
  obtain ⟨-, w0, w1⟩ := (unit_iff w).mp hw
  obtain ⟨ny, y0, y1⟩ := (unit_iff y).mp hy
  unfold smoothed
  split
  · exact hw
  · next h =>
    rw [Bool.not_eq_true, le_eq_false isNaN_f1 cn] at h
    have hcu : unitRange (smoothCoefficient sigma f) = true := (unit_iff _).mpr ⟨cn, c0, le_of_lt h⟩
    have hd := absUnit_sub hw hy
    have hdf := absUnit_finite hd
    obtain ⟨mn, mp, mm⟩ := val_mul_unit hcu hdf
    have hfw := unit_finite hw
    have hfy := unit_finite hy
    rcases Int.le_total (val y) (val w) with hle | hle
    · have hd0 : 0 ≤ val (sub w y) := by
        rw [← val_f0]; exact le_val_sub hfw hfy isNaN_f0 (by rw [val_f0]; omega)
      obtain ⟨m0, m1⟩ := mp hd0
      have hmf := finite_mul_unit hcu hdf
      have hnan := isNaN_add hfy hmf
      have herr := val_sub_error (j := 126) hfw hfy (by omega)
        (lt_of_le_of_lt (b := val Config.f1) (by omega) (by decide))
      have hulp : ((ulp (mag Config.f1) : Nat) : Int) = 2 ^ 126 := by decide
      refine (unit_iff _).mpr ⟨hnan, ?_, ?_⟩
      · exact le_trans y0 (le_val_add hfy hmf ny (by omega))
      · refine val_add_le_mid hfy hmf (by decide) (by decide) ?_
        rw [hulp]
        generalize (2 : Int) ^ 126 = e at *
        omega
    · have hd0 : val (sub w y) ≤ 0 := by
        rw [← val_f0]; exact val_sub_le hfw hfy isNaN_f0 (by rw [val_f0]; omega)
      have hd1 : -val y ≤ val (sub w y) := by
        rw [← val_neg]; exact le_val_sub hfw hfy (by simpa using ny) (by rw [val_neg]; omega)
      obtain ⟨m0, m1⟩ := mm hd0
      have hmf := finite_mul_unit hcu hdf
      refine (unit_iff _).mpr ⟨isNaN_add hfy hmf, ?_, ?_⟩
      · rw [← val_f0]; exact le_val_add hfy hmf isNaN_f0 (by rw [val_f0]; omega)
      · exact le_trans (val_add_le hfy hmf ny (by omega)) y1

end Sys2Proof.Machine
end

