-- ==== Sys2Proof/Laws/Signals.lean ====
section
/-! SUPPORT. The extractor's period and frequency, the free path's frequency, and the channels of a frame
keep within their ranges (spec/42_ramp_extractor.md R150, spec/43_slope_generator.md R173, R183 to R186, R193). -/

namespace Sys2Proof.Machine

open F32

/-! The period filter (R146). -/

theorem val_periodMax : val periodMax = 2 ^ 24 * val Config.f1 := by decide
theorem isFinite_periodMax : isFinite periodMax = true := by decide
theorem isFinite_recsMax : isFinite recsMax = true := by decide

/-- A count of frames as a binary32 (R144, R146). -/
theorem within_meas {n : Nat} (h1 : 1 ≤ n) (h2 : n ≤ Config.cMax) :
    within Config.f1 periodMax (int2f n) = true ∧ val (int2f n) = n * val Config.f1 := by
  obtain ⟨hf, hv⟩ := val_int2f (n := n) h2
  rw [two_pow_149] at hv
  have hK := val_f1_pos
  refine ⟨(within_iff _ _ _).mpr
    ⟨isNaN_f1, isNaN_of_finite isFinite_periodMax, isNaN_of_finite hf, ?_, ?_⟩, hv⟩
  · rw [hv]
    have : (1 : Int) ≤ n := by exact_mod_cast h1
    generalize val Config.f1 = one at *
    nlinarith
  · rw [hv, val_periodMax]
    have : (n : Int) ≤ 2 ^ 24 := by exact_mod_cast h2
    generalize val Config.f1 = one at *
    nlinarith

/-- Between 1 and 2^24, a word is a 24-bit significand at a scale of at most 1. -/
theorem exists_significand {p : Word} (h : within Config.f1 periodMax p = true) :
    ∃ m k : Nat, m ≤ 2 ^ 24 ∧ k ≤ 149 ∧ val p = ((m * 2 ^ k : Nat) : Int) := by
  obtain ⟨-, -, hn, h1, h2⟩ := (within_iff _ _ _).mp h
  have hK := val_f1_pos
  have hs : sign p = false := by
    by_contra hc
    rw [Bool.not_eq_false] at hc
    rw [val_neg_sign hc] at h1
    have h0 : (0 : Int) ≤ magVal (mag p) := Int.natCast_nonneg _
    generalize ((magVal (mag p) : Nat) : Int) = m at *
    generalize val Config.f1 = one at *
    omega
  have hm1 : mag Config.f1 ≤ mag p := by
    rw [val_pos_sign hs, val_pos_sign (show sign Config.f1 = false by decide)] at h1
    exact magVal_le_iff.mp (by exact_mod_cast h1)
  have hm2 : mag p ≤ mag periodMax := by
    rw [val_pos_sign hs, val_pos_sign (show sign periodMax = false by decide)] at h2
    exact magVal_le_iff.mp (by exact_mod_cast h2)
  have e1 : mag Config.f1 = 0x3F800000 := by decide
  have e2 : mag periodMax = 0x4B800000 := by decide
  rw [e1] at hm1
  rw [e2] at hm2
  rw [val_pos_sign hs]
  rcases Nat.lt_or_ge (mag p) 0x4B800000 with hlt | hge
  · refine ⟨2 ^ 23 + mag p % 2 ^ 23, mag p / 2 ^ 23 - 1, by omega, by omega, ?_⟩
    unfold magVal
    rw [if_neg (by omega)]
  · have : mag p = mag periodMax := by omega
    refine ⟨2 ^ 24, 149, le_refl _, le_refl _, ?_⟩
    rw [this]
    decide

/-- Subtracting a period from a smaller whole number of frames is exact. -/
theorem val_sub_period {p : Word} {n : Nat} (hp : within Config.f1 periodMax p = true)
    (h2 : n ≤ Config.cMax) (h : val (int2f n) ≤ val p) :
    val (sub (int2f n) p) = val (int2f n) - val p := by
  obtain ⟨hf, hv⟩ := val_int2f (n := n) h2
  have hpf := finite_of_within isFinite_f1 isFinite_periodMax hp
  obtain ⟨m, k, hm, hk, hpv⟩ := exists_significand hp
  obtain ⟨d, hd⟩ : ∃ d, k + d = 149 := ⟨149 - k, by omega⟩
  have hnn : val (int2f n) = ((n * 2 ^ d * 2 ^ k : Nat) : Int) := by
    rw [hv, Nat.mul_assoc, ← pow_add, Nat.add_comm d k, hd]
    push_cast
    rfl
  have hle : n * 2 ^ d ≤ m := by
    rw [hnn, hpv] at h
    exact Nat.le_of_mul_le_mul_right (by exact_mod_cast h) (Nat.two_pow_pos k)
  have hlt : (m - n * 2 ^ d) * 2 ^ k < magVal infMag := by
    have h3 := ((isFinite_iff p).mp hpf).2.2
    rw [hpv] at h3
    exact lt_of_le_of_lt (Nat.mul_le_mul_right _ (Nat.sub_le _ _)) (by exact_mod_cast h3)
  obtain ⟨c, hc, hcv⟩ := exists_word (m := m - n * 2 ^ d) (by omega) k hlt true
  have he : val (int2f n) - val p = val c := by
    rw [hcv, if_pos rfl, hnn, hpv, Nat.sub_mul, Nat.cast_sub (Nat.mul_le_mul_right _ hle)]
    generalize ((n * 2 ^ d * 2 ^ k : Nat) : Int) = a
    generalize ((m * 2 ^ k : Nat) : Int) = b
    omega
  rw [he]
  exact val_sub_exact hf hpf (isNaN_of_finite hc) he

/-- The filtered period stays in [1, 2^24] (R150). -/
theorem within_filterPeriod {p recs : Word} {n : Nat} (hp : within Config.f1 periodMax p = true)
    (hr : within Config.f0 recsMax recs = true) (h1 : 1 ≤ n) (h2 : n ≤ Config.cMax) :
    within Config.f1 periodMax (filterPeriod p recs (int2f n)) = true := by
  obtain ⟨hm, -⟩ := within_meas h1 h2
  have hexact := val_sub_period hp h2
  generalize int2f n = meas at *
  have hK := val_f1_pos
  have hpf := finite_of_within isFinite_f1 isFinite_periodMax hp
  have hmf := finite_of_within isFinite_f1 isFinite_periodMax hm
  have hrf := finite_of_within isFinite_f0 isFinite_recsMax hr
  obtain ⟨-, npm, np, p1, p2⟩ := (within_iff _ _ _).mp hp
  obtain ⟨-, -, nm, m1, m2⟩ := (within_iff _ _ _).mp hm
  obtain ⟨-, -, nr, r0, r1⟩ := (within_iff _ _ _).mp hr
  rw [val_f0] at r0
  have hrm : val recsMax ≤ val periodMax := by decide
  have h25 : val 0x4C000000#32 = 2 * val periodMax := by decide
  have hs : within meas 0x4C000000#32 (add meas recs) = true :=
    within_add hmf hrf nm (by decide) (by omega) (by rw [h25]; omega)
  have hsf := finite_of_within hmf (by decide) hs
  obtain ⟨-, -, -, s1, -⟩ := (within_iff _ _ _).mp hs
  have ha : unitRange (div meas (add meas recs)) = true :=
    within_div_one hmf hsf (by omega) isNaN_f0 isNaN_f1
      (by rw [val_f0, Int.zero_mul]; exact mul_nonneg (by omega) (by omega))
      (by rw [Int.mul_comm]; exact mul_le_mul_of_nonneg_left s1 (by omega))
  unfold filterPeriod
  have hd : within (neg periodMax) periodMax (sub meas p) = true :=
    within_sub hmf hpf (by simpa using npm) npm (by rw [val_neg]; omega) (by omega)
  have hdf := finite_of_within (by decide) isFinite_periodMax hd
  obtain ⟨-, mp, mm⟩ := val_mul_unit ha hdf
  have hqf := finite_mul_unit ha hdf
  refine (within_iff _ _ _).mpr ⟨isNaN_f1, npm, isNaN_add hpf hqf, ?_, ?_⟩
  · rcases Int.le_total (val meas) (val p) with hle | hle
    · have he := hexact hle
      have := mm (by omega)
      exact le_val_add hpf hqf isNaN_f1 (by omega)
    · have hd0 : 0 ≤ val (sub meas p) := by
        rw [← val_f0]; exact le_val_sub hmf hpf isNaN_f0 (by rw [val_f0]; omega)
      have := mp hd0
      exact le_val_add hpf hqf isNaN_f1 (by omega)
  · rcases Int.le_total (val meas) (val p) with hle | hle
    · have he := hexact hle
      have := mm (by omega)
      exact le_trans (val_add_le hpf hqf np (by omega)) p2
    · have hd0 : 0 ≤ val (sub meas p) := by
        rw [← val_f0]; exact le_val_sub hmf hpf isNaN_f0 (by rw [val_f0]; omega)
      have := mp hd0
      have hlt : val periodMax < 2 ^ (24 + 149) + val Config.f1 := by decide
      have herr := val_sub_error (j := 149) hmf hpf (by omega)
        (by generalize (2 : Int) ^ (24 + 149) = big at *; omega)
      have hulp : ((ulp (mag periodMax) : Nat) : Int) = 2 ^ 150 := by decide
      have h150 : (2 : Int) ^ 149 ≤ 2 ^ 150 := by norm_num
      refine val_add_le_mid hpf hqf (by decide) (by decide) ?_
      rw [hulp]
      generalize (2 : Int) ^ 149 = e at *
      generalize (2 : Int) ^ 150 = e' at *
      omega

/-! The extractor's registers (R144 to R149). -/

namespace ExtRegs

variable {e : ExtRegs} {sub : Nat} {audio ar : Bool} {recs f m : Word} {clk : GateFlag}

theorem cleared_legal : ExtRegs.cleared.Legal where
  phase := by decide
  periodUnknown := fun _ => rfl
  periodKnown := by decide
  count := by decide
  qcount := by decide

theorem countFrame_legal (h : e.Legal) : e.countFrame.Legal :=
  { h with count := Nat.min_le_right _ _ }

theorem one_le_countFrame (e : ExtRegs) : 1 ≤ e.countFrame.count := by
  simp only [countFrame]; exact Nat.le_min.mpr ⟨by omega, by decide⟩

theorem risingEdge_legal (h : e.Legal) (hc : 1 ≤ e.count) (hr : within Config.f0 recsMax recs = true)
    (hs : sub ≤ 16) : (e.risingEdge sub audio ar recs).Legal := by
  obtain ⟨hm, -⟩ := within_meas hc h.count
  unfold risingEdge
  split
  · split
    · next hh =>
      have hfp := within_filterPeriod (h.periodKnown hh) hr hc h.count
      unfold nextPeriod
      dsimp only
      split
      · exact ⟨unit_f0, by simp [hh], fun _ => hfp, Nat.zero_le _, h.qcount⟩
      · split
        · exact ⟨h.phase, by simp [hh], fun _ => hfp, Nat.zero_le _, h.qcount⟩
        · split
          · exact ⟨unit_f0, by simp [hh], fun _ => hfp, Nat.zero_le _, Nat.zero_le _⟩
          · exact ⟨h.phase, by simp [hh], fun _ => hfp, Nat.zero_le _, by dsimp only; omega⟩
    · exact ⟨unit_f0, by simp [firstPeriod], fun _ => hm, Nat.zero_le _, by simp [firstPeriod]⟩
  · exact ⟨unit_f0, h.periodUnknown, h.periodKnown, Nat.zero_le _, by simp [firstEdge]⟩

theorem measure_legal (h : e.Legal) (hr : within Config.f0 recsMax recs = true) (hs : sub ≤ 16) :
    (e.measure sub audio ar recs clk).Legal := by
  unfold measure
  split
  · exact risingEdge_legal (countFrame_legal h) (one_le_countFrame e) hr hs
  · exact countFrame_legal h

/-- The extractor's frequency is in [F_EPS, F_MAX] (R147). -/
theorem freqRange_frequency (h : e.Legal) (h1 : 1 ≤ sub) (h2 : sub ≤ 16) (hm : isFinite m = true) :
    freqRange (e.frequency m sub) = true := by
  unfold frequency
  split
  · next hh =>
    obtain ⟨-, -, np, p1, p2⟩ := (within_iff _ _ _).mp (h.periodKnown hh)
    have hpf := finite_of_within isFinite_f1 isFinite_periodMax (h.periodKnown hh)
    obtain ⟨hsw, hsv⟩ := within_meas h1 (le_trans h2 (by decide))
    have hsf := finite_of_within isFinite_f1 isFinite_periodMax hsw
    have hK := val_f1_pos
    have hbig : val 0x4D800000#32 = 16 * val periodMax := by decide
    have hprod : within Config.f1 0x4D800000#32 (mul e.period (int2f sub)) = true := by
      refine within_mul_one hpf hsf isNaN_f1 (by decide) ?_ ?_
      · rw [hsv]
        have : (1 : Int) ≤ sub := by exact_mod_cast h1
        generalize val Config.f1 = one at *
        exact mul_le_mul p1 (by nlinarith) (by omega) (by omega)
      · rw [hsv, hbig]
        have h3 : (sub : Int) ≤ 16 := by exact_mod_cast h2
        generalize val Config.f1 = one at *
        generalize val periodMax = pm at *
        have := mul_le_mul (a := val e.period) (b := pm) (c := (sub : Int)) (d := 16) p2 h3 (by omega) (by omega)
        nlinarith
    obtain ⟨-, -, -, q1, -⟩ := (within_iff _ _ _).mp hprod
    exact within_clamp (isNaN_div hm (finite_of_within isFinite_f1 (by decide) hprod) (by omega))
      (by decide) (by decide) (by decide)
  · decide

theorem advance_legal (h : e.Legal) (hf : freqRange f = true) : (e.advance ar f).Legal := by
  unfold advance
  split
  · split
    · exact ⟨unit_holdAdvance h.phase hf, h.periodUnknown, h.periodKnown, h.count, h.qcount⟩
    · exact ⟨h.phase, h.periodUnknown, h.periodKnown, h.count, h.qcount⟩
  · split
    · exact ⟨unit_wrapAdvance h.phase hf, h.periodUnknown, h.periodKnown, h.count, h.qcount⟩
    · exact ⟨h.phase, h.periodUnknown, h.periodKnown, h.count, h.qcount⟩

end ExtRegs

/-- Every entry of the ratio table has a finite multiplier and a subdivision from 1 to 16 (R120). -/
theorem ratioTable_ranges (q : Fin 20) :
    isFinite ratioTable[q].m = true ∧ 1 ≤ ratioTable[q].s ∧ ratioTable[q].s ≤ 16 := by
  revert q; decide

/-- A phase source's outputs: the phase in [0, 1] and the frequency in [F_EPS, F_MAX]. -/
structure PhaseOut.Legal (o : PhaseOut) : Prop where
  p : unitRange o.p = true
  f : freqRange o.f = true

theorem xstep_legal {e : ExtRegs} {recs : Word} (q : Fin 20) (audio allowAr : Bool) (clk : GateFlag)
    (h : e.Legal) (hr : within Config.f0 recsMax recs = true) :
    (xstep ratioTable[q].m ratioTable[q].s audio allowAr clk recs e).1.Legal ∧
      (xstep ratioTable[q].m ratioTable[q].s audio allowAr clk recs e).2.Legal := by
  obtain ⟨hm, h1, h2⟩ := ratioTable_ranges q
  have hl := ExtRegs.measure_legal (audio := audio) (ar := allowAr && !audio) (clk := clk) h hr h2
  have hf := ExtRegs.freqRange_frequency hl h1 h2 hm
  exact ⟨⟨hl.phase, hf⟩, ExtRegs.advance_legal hl hf⟩

/-! The free path's frequency (R171 to R173). -/

theorem isFinite_rangeMult (r : FreqRange) : isFinite (rangeMult r) = true := by cases r <;> decide
theorem rangeMult_ne_zero (r : FreqRange) : mag (rangeMult r) ≠ 0 := by cases r <;> decide

/-- The free path's frequency is in [F_EPS, F_MAX], whatever the open parameters are (R173). -/
theorem freqRange_freeFrequency {s : State} (hp : s.params.legal = true)
    (hf : within Config.freqMin Config.freqMax s.par.freq = true)
    (hs : within Config.srMin Config.srMax s.sr = true) : freqRange s.freeFrequency = true := by
  have hpf : isFinite s.params.refHz = true := by
    simp only [OpenParams.legal, Bool.and_eq_true] at hp; exact hp.1
  have hff := finite_of_within (by decide) (by decide) hf
  have hsf := finite_of_within (by decide) (by decide) hs
  obtain ⟨-, -, -, f1, f2⟩ := (within_iff _ _ _).mp hf
  obtain ⟨-, -, -, s1, -⟩ := (within_iff _ _ _).mp hs
  have h12 : 0 < val Config.f12 := by decide
  have e1 : val 0xC1200000#32 * val Config.f12 = val Config.freqMin * val Config.f1 := by decide
  have e2 : val 0x41200000#32 * val Config.f12 = val Config.freqMax * val Config.f1 := by decide
  have hK := val_f1_pos
  have hx : within 0xC1200000#32 0x41200000#32 (div s.par.freq Config.f12) = true :=
    within_div_one hff (by decide) h12 (by decide) (by decide)
      (by rw [e1]; exact mul_le_mul_of_nonneg_right f1 (le_of_lt hK))
      (by rw [e2]; exact mul_le_mul_of_nonneg_right f2 (le_of_lt hK))
  obtain ⟨xf, -⟩ := exp2_ranges s.params.exp2 hx
  have hsr : mag s.sr ≠ 0 := mag_ne_zero_of_val (ne_of_gt (lt_of_lt_of_le (by decide) s1))
  exact within_clamp
    (isNaN_mul_of_finite (isNaN_div_of_finite (isNaN_mul hpf xf) hsf hsr) (isFinite_rangeMult _)
      (rangeMult_ne_zero _))
    (by decide) (by decide) (by decide)

/-! The generator's registers (R174 to R176). -/

namespace GenRegs

variable {g : GenRegs}

theorem cleared_legal : GenRegs.cleared.Legal := ⟨unit_f0, unit_f0⟩

theorem trigger_legal (h : g.Legal) (flag : GateFlag) (mode : RampMode) : (g.trigger flag mode).Legal := by
  unfold trigger
  split
  · cases mode
    · exact h
    · exact ⟨unit_f0, h.y⟩
    · exact ⟨unit_f0, h.y⟩
  · exact h

theorem advance_legal (h : g.Legal) (mode : RampMode) {f : Word} (hf : freqRange f = true) :
    (g.advance mode f).Legal := by
  unfold advance
  split
  · split
    · exact ⟨unit_holdAdvance h.phase hf, h.y⟩
    · exact ⟨h.phase, h.y⟩
  · exact ⟨unit_wrapAdvance h.phase hf, h.y⟩

end GenRegs

/-! The channels (R183 to R186, R193). -/

/-- What makes the channels of a frame finite. -/
structure FrameValues.Legal (v : FrameValues) : Prop where
  o : v.o.Legal
  u : unitRange v.warp.u = true
  y : unitRange v.y = true
  sh : unitRange v.sh = true
  slope : unitRange v.slope = true
  sr : within Config.srMin Config.srMax v.sr = true

/-- All four channels are finite. -/
def Channels.Finite (c : Channels) : Prop :=
  isFinite c.ch0 = true ∧ isFinite c.ch1 = true ∧ isFinite c.ch2 = true ∧ isFinite c.ch3 = true

theorem isFinite_gateLevel (b : Bool) : isFinite (gateLevel b) = true := by cases b <;> decide

theorem channelMap_finite {v : FrameValues} (h : v.Legal) (mode : OutMode) : (channelMap mode v).Finite := by
  have hd := absUnit_finite (absUnit_sub h.y h.sh)
  have hK := val_f1_pos
  cases mode with
  | gates =>
    exact ⟨isFinite_gateLevel _, isFinite_gateLevel _, isFinite_gateLevel _, isFinite_gateLevel _⟩
  | amplitude =>
    obtain ⟨-, y0, y1⟩ := (unit_iff _).mp h.y
    have h2 : within Config.f0 Config.f2 (mul Config.f2 v.y) = true :=
      within_mul_one isFinite_f2 (unit_finite h.y) isNaN_f0 (isNaN_of_finite isFinite_f2)
        (by rw [val_f0, val_f2]; exact int_double_nonneg hK y0)
        (by rw [val_f2]; exact mul_le_mul_of_nonneg_left y1 (by omega))
    obtain ⟨-, -, -, z0, z1⟩ := (within_iff _ _ _).mp h2
    rw [val_f0] at z0
    rw [val_f2] at z1
    have h3 : absUnit (sub (mul Config.f2 v.y) Config.f1) = true :=
      within_sub (finite_of_within isFinite_f0 isFinite_f2 h2) isFinite_f1 (by decide) isNaN_f1
        (by rw [val_neg]; omega) (by omega)
    simp only [channelMap, amplitudeChannels, Channels.Finite]
    exact ⟨unit_finite h.y, unit_finite (unit_one_sub h.y), absUnit_finite h3, hd⟩
  | slopePhase =>
    have hw := unit_wrapOnce (unit_sum h.o.p h.sh)
    exact ⟨unit_finite h.o.p, unit_finite h.u, unit_finite hw, unit_finite (unit_warpOrRest hw h.slope)⟩
  | frequency =>
    have hfu := freq_unit h.o.f
    obtain ⟨-, f0, f1⟩ := (unit_iff _).mp hfu
    obtain ⟨-, -, -, s0, s1⟩ := (within_iff _ _ _).mp h.sr
    have hs0 : 0 ≤ val v.sr := le_trans (by decide) s0
    have hsf := finite_of_within (by decide) (by decide) h.sr
    have hm : within Config.f0 Config.srMax (mul v.o.f v.sr) = true :=
      within_mul_one (unit_finite hfu) hsf isNaN_f0 (by decide)
        (by rw [val_f0, Int.zero_mul]; exact mul_nonneg f0 hs0)
        (by rw [Int.mul_comm (val Config.srMax)]; exact mul_le_mul f1 s1 hs0 (le_of_lt hK))
    exact ⟨unit_finite hfu, finite_of_within isFinite_f0 (by decide) hm, unit_finite h.y, hd⟩

/-- The transfer curve's values, from legal registers and a legal phase source. -/
theorem frameValues_legal {s : State} {o : PhaseOut} (hp : s.par.Legal) (hy : unitRange s.gen.y = true)
    (hs : within Config.srMin Config.srMax s.sr = true) (ho : o.Legal) : (s.frameValues o).Legal where
  o := ho
  u := unit_warpOrRest ho.p hp.slope
  y := unit_smoothed hp.smooth ho.f (unit_shapeCurve (unit_warpOrRest ho.p hp.slope) hp.shape) hy
  sh := hp.shift
  slope := hp.slope
  sr := hs

/-! The host's values (R230, R231, R140). -/

theorem write_legal {p : ParamRegs} (h : p.Legal) (r : ParamReg) (x : Word) : (p.write r x).Legal := by
  cases r
  · exact { h with freq := within_sanitize x (by decide) (by decide) (by decide) (by decide) }
  · exact { h with slope := unit_sanitize x }
  · exact { h with shape := unit_sanitize x }
  · exact { h with smooth := unit_sanitize x }
  · exact { h with shift := unit_sanitize x }
  · exact { h with ratioIn := unit_sanitize x }

theorem within_recoverySamples {tr sr : Word} (ht : within Config.f0 Config.trMax tr = true)
    (hs : within Config.srMin Config.srMax sr = true) :
    within Config.f0 recsMax (recoverySamples tr sr) = true := by
  obtain ⟨-, -, -, t0, t1⟩ := (within_iff _ _ _).mp ht
  obtain ⟨-, -, -, s0, s1⟩ := (within_iff _ _ _).mp hs
  rw [val_f0] at t0
  have hs0 : 0 ≤ val sr := le_trans (by decide) s0
  have e : val recsMax * val Config.f1 = val Config.trMax * val Config.srMax := by decide
  exact within_mul_one (finite_of_within isFinite_f0 (by decide) ht) (finite_of_within (by decide) (by decide) hs)
    isNaN_f0 (by decide) (by rw [val_f0, Int.zero_mul]; exact mul_nonneg t0 hs0)
    (by rw [e]; exact mul_le_mul t1 s1 hs0 (by decide))

end Sys2Proof.Machine
end

