-- ==== Sys2Proof/Laws/State.lean ====
section
/-! SUPPORT. One lemma per field per named update of State, true by unfolding. -/

namespace Sys2Proof.Machine

variable (s : State)

/-! `respond`. -/

@[simp] theorem State.respond_params (w : Word) : (s.respond w).params = s.params := rfl
@[simp] theorem State.respond_status (w : Word) : (s.respond w).status = s.status := rfl
@[simp] theorem State.respond_par (w : Word) : (s.respond w).par = s.par := rfl
@[simp] theorem State.respond_omode (w : Word) : (s.respond w).omode = s.omode := rfl
@[simp] theorem State.respond_rmode (w : Word) : (s.respond w).rmode = s.rmode := rfl
@[simp] theorem State.respond_range (w : Word) : (s.respond w).range = s.range := rfl
@[simp] theorem State.respond_sr (w : Word) : (s.respond w).sr = s.sr := rfl
@[simp] theorem State.respond_bs (w : Word) : (s.respond w).bs = s.bs := rfl
@[simp] theorem State.respond_clkConn (w : Word) : (s.respond w).clkConn = s.clkConn := rfl
@[simp] theorem State.respond_tr (w : Word) : (s.respond w).tr = s.tr := rfl
@[simp] theorem State.respond_mustReset (w : Word) : (s.respond w).mustReset = s.mustReset := rfl
@[simp] theorem State.respond_prevOm (w : Word) : (s.respond w).prevOm = s.prevOm := rfl
@[simp] theorem State.respond_gen (w : Word) : (s.respond w).gen = s.gen := rfl
@[simp] theorem State.respond_trigFlag (w : Word) : (s.respond w).trigFlag = s.trigFlag := rfl
@[simp] theorem State.respond_clkFlag (w : Word) : (s.respond w).clkFlag = s.clkFlag := rfl
@[simp] theorem State.respond_fEff (w : Word) : (s.respond w).fEff = s.fEff := rfl
@[simp] theorem State.respond_ext (w : Word) : (s.respond w).ext = s.ext := rfl
@[simp] theorem State.respond_xRecs (w : Word) : (s.respond w).xRecs = s.xRecs := rfl
@[simp] theorem State.respond_qState (w : Word) : (s.respond w).qState = s.qState := rfl
@[simp] theorem State.respond_ibuf (w : Word) : (s.respond w).ibuf = s.ibuf := rfl
@[simp] theorem State.respond_obuf (w : Word) : (s.respond w).obuf = s.obuf := rfl
@[simp] theorem State.respond_pending (w : Word) : (s.respond w).pending = s.pending := rfl
@[simp] theorem State.respond_responses (w : Word) : (s.respond w).responses = { rdata := w, err := false } :: s.responses := rfl

/-! `raise`. -/

@[simp] theorem State.raise_params (e : ErrorKind) : (s.raise e).params = s.params := rfl
@[simp] theorem State.raise_status (e : ErrorKind) : (s.raise e).status = s.status ||| e.bit := rfl
@[simp] theorem State.raise_par (e : ErrorKind) : (s.raise e).par = s.par := rfl
@[simp] theorem State.raise_omode (e : ErrorKind) : (s.raise e).omode = s.omode := rfl
@[simp] theorem State.raise_rmode (e : ErrorKind) : (s.raise e).rmode = s.rmode := rfl
@[simp] theorem State.raise_range (e : ErrorKind) : (s.raise e).range = s.range := rfl
@[simp] theorem State.raise_sr (e : ErrorKind) : (s.raise e).sr = s.sr := rfl
@[simp] theorem State.raise_bs (e : ErrorKind) : (s.raise e).bs = s.bs := rfl
@[simp] theorem State.raise_clkConn (e : ErrorKind) : (s.raise e).clkConn = s.clkConn := rfl
@[simp] theorem State.raise_tr (e : ErrorKind) : (s.raise e).tr = s.tr := rfl
@[simp] theorem State.raise_mustReset (e : ErrorKind) : (s.raise e).mustReset = s.mustReset := rfl
@[simp] theorem State.raise_prevOm (e : ErrorKind) : (s.raise e).prevOm = s.prevOm := rfl
@[simp] theorem State.raise_gen (e : ErrorKind) : (s.raise e).gen = s.gen := rfl
@[simp] theorem State.raise_trigFlag (e : ErrorKind) : (s.raise e).trigFlag = s.trigFlag := rfl
@[simp] theorem State.raise_clkFlag (e : ErrorKind) : (s.raise e).clkFlag = s.clkFlag := rfl
@[simp] theorem State.raise_fEff (e : ErrorKind) : (s.raise e).fEff = s.fEff := rfl
@[simp] theorem State.raise_ext (e : ErrorKind) : (s.raise e).ext = s.ext := rfl
@[simp] theorem State.raise_xRecs (e : ErrorKind) : (s.raise e).xRecs = s.xRecs := rfl
@[simp] theorem State.raise_qState (e : ErrorKind) : (s.raise e).qState = s.qState := rfl
@[simp] theorem State.raise_ibuf (e : ErrorKind) : (s.raise e).ibuf = s.ibuf := rfl
@[simp] theorem State.raise_obuf (e : ErrorKind) : (s.raise e).obuf = s.obuf := rfl
@[simp] theorem State.raise_pending (e : ErrorKind) : (s.raise e).pending = s.pending := rfl
@[simp] theorem State.raise_responses (e : ErrorKind) : (s.raise e).responses = { rdata := 0#32, err := true } :: s.responses := rfl

/-! `writeIbuf`. -/

@[simp] theorem State.writeIbuf_params (a : Nat) (w : Word) : (s.writeIbuf a w).params = s.params := rfl
@[simp] theorem State.writeIbuf_status (a : Nat) (w : Word) : (s.writeIbuf a w).status = s.status := rfl
@[simp] theorem State.writeIbuf_par (a : Nat) (w : Word) : (s.writeIbuf a w).par = s.par := rfl
@[simp] theorem State.writeIbuf_omode (a : Nat) (w : Word) : (s.writeIbuf a w).omode = s.omode := rfl
@[simp] theorem State.writeIbuf_rmode (a : Nat) (w : Word) : (s.writeIbuf a w).rmode = s.rmode := rfl
@[simp] theorem State.writeIbuf_range (a : Nat) (w : Word) : (s.writeIbuf a w).range = s.range := rfl
@[simp] theorem State.writeIbuf_sr (a : Nat) (w : Word) : (s.writeIbuf a w).sr = s.sr := rfl
@[simp] theorem State.writeIbuf_bs (a : Nat) (w : Word) : (s.writeIbuf a w).bs = s.bs := rfl
@[simp] theorem State.writeIbuf_clkConn (a : Nat) (w : Word) : (s.writeIbuf a w).clkConn = s.clkConn := rfl
@[simp] theorem State.writeIbuf_tr (a : Nat) (w : Word) : (s.writeIbuf a w).tr = s.tr := rfl
@[simp] theorem State.writeIbuf_mustReset (a : Nat) (w : Word) : (s.writeIbuf a w).mustReset = s.mustReset := rfl
@[simp] theorem State.writeIbuf_prevOm (a : Nat) (w : Word) : (s.writeIbuf a w).prevOm = s.prevOm := rfl
@[simp] theorem State.writeIbuf_gen (a : Nat) (w : Word) : (s.writeIbuf a w).gen = s.gen := rfl
@[simp] theorem State.writeIbuf_trigFlag (a : Nat) (w : Word) : (s.writeIbuf a w).trigFlag = s.trigFlag := rfl
@[simp] theorem State.writeIbuf_clkFlag (a : Nat) (w : Word) : (s.writeIbuf a w).clkFlag = s.clkFlag := rfl
@[simp] theorem State.writeIbuf_fEff (a : Nat) (w : Word) : (s.writeIbuf a w).fEff = s.fEff := rfl
@[simp] theorem State.writeIbuf_ext (a : Nat) (w : Word) : (s.writeIbuf a w).ext = s.ext := rfl
@[simp] theorem State.writeIbuf_xRecs (a : Nat) (w : Word) : (s.writeIbuf a w).xRecs = s.xRecs := rfl
@[simp] theorem State.writeIbuf_qState (a : Nat) (w : Word) : (s.writeIbuf a w).qState = s.qState := rfl
@[simp] theorem State.writeIbuf_ibuf (a : Nat) (w : Word) : (s.writeIbuf a w).ibuf = Memory.putWord s.ibuf a w := rfl
@[simp] theorem State.writeIbuf_obuf (a : Nat) (w : Word) : (s.writeIbuf a w).obuf = s.obuf := rfl
@[simp] theorem State.writeIbuf_pending (a : Nat) (w : Word) : (s.writeIbuf a w).pending = s.pending := rfl
@[simp] theorem State.writeIbuf_responses (a : Nat) (w : Word) : (s.writeIbuf a w).responses = s.responses := rfl

/-! `writeObuf`. -/

@[simp] theorem State.writeObuf_params (a : Nat) (w : Word) : (s.writeObuf a w).params = s.params := rfl
@[simp] theorem State.writeObuf_status (a : Nat) (w : Word) : (s.writeObuf a w).status = s.status := rfl
@[simp] theorem State.writeObuf_par (a : Nat) (w : Word) : (s.writeObuf a w).par = s.par := rfl
@[simp] theorem State.writeObuf_omode (a : Nat) (w : Word) : (s.writeObuf a w).omode = s.omode := rfl
@[simp] theorem State.writeObuf_rmode (a : Nat) (w : Word) : (s.writeObuf a w).rmode = s.rmode := rfl
@[simp] theorem State.writeObuf_range (a : Nat) (w : Word) : (s.writeObuf a w).range = s.range := rfl
@[simp] theorem State.writeObuf_sr (a : Nat) (w : Word) : (s.writeObuf a w).sr = s.sr := rfl
@[simp] theorem State.writeObuf_bs (a : Nat) (w : Word) : (s.writeObuf a w).bs = s.bs := rfl
@[simp] theorem State.writeObuf_clkConn (a : Nat) (w : Word) : (s.writeObuf a w).clkConn = s.clkConn := rfl
@[simp] theorem State.writeObuf_tr (a : Nat) (w : Word) : (s.writeObuf a w).tr = s.tr := rfl
@[simp] theorem State.writeObuf_mustReset (a : Nat) (w : Word) : (s.writeObuf a w).mustReset = s.mustReset := rfl
@[simp] theorem State.writeObuf_prevOm (a : Nat) (w : Word) : (s.writeObuf a w).prevOm = s.prevOm := rfl
@[simp] theorem State.writeObuf_gen (a : Nat) (w : Word) : (s.writeObuf a w).gen = s.gen := rfl
@[simp] theorem State.writeObuf_trigFlag (a : Nat) (w : Word) : (s.writeObuf a w).trigFlag = s.trigFlag := rfl
@[simp] theorem State.writeObuf_clkFlag (a : Nat) (w : Word) : (s.writeObuf a w).clkFlag = s.clkFlag := rfl
@[simp] theorem State.writeObuf_fEff (a : Nat) (w : Word) : (s.writeObuf a w).fEff = s.fEff := rfl
@[simp] theorem State.writeObuf_ext (a : Nat) (w : Word) : (s.writeObuf a w).ext = s.ext := rfl
@[simp] theorem State.writeObuf_xRecs (a : Nat) (w : Word) : (s.writeObuf a w).xRecs = s.xRecs := rfl
@[simp] theorem State.writeObuf_qState (a : Nat) (w : Word) : (s.writeObuf a w).qState = s.qState := rfl
@[simp] theorem State.writeObuf_ibuf (a : Nat) (w : Word) : (s.writeObuf a w).ibuf = s.ibuf := rfl
@[simp] theorem State.writeObuf_obuf (a : Nat) (w : Word) : (s.writeObuf a w).obuf = Memory.putWord s.obuf a w := rfl
@[simp] theorem State.writeObuf_pending (a : Nat) (w : Word) : (s.writeObuf a w).pending = s.pending := rfl
@[simp] theorem State.writeObuf_responses (a : Nat) (w : Word) : (s.writeObuf a w).responses = s.responses := rfl

/-! `xreset`. -/

@[simp] theorem State.xreset_params : (s.xreset).params = s.params := rfl
@[simp] theorem State.xreset_status : (s.xreset).status = s.status := rfl
@[simp] theorem State.xreset_par : (s.xreset).par = s.par := rfl
@[simp] theorem State.xreset_omode : (s.xreset).omode = s.omode := rfl
@[simp] theorem State.xreset_rmode : (s.xreset).rmode = s.rmode := rfl
@[simp] theorem State.xreset_range : (s.xreset).range = s.range := rfl
@[simp] theorem State.xreset_sr : (s.xreset).sr = s.sr := rfl
@[simp] theorem State.xreset_bs : (s.xreset).bs = s.bs := rfl
@[simp] theorem State.xreset_clkConn : (s.xreset).clkConn = s.clkConn := rfl
@[simp] theorem State.xreset_tr : (s.xreset).tr = s.tr := rfl
@[simp] theorem State.xreset_mustReset : (s.xreset).mustReset = s.mustReset := rfl
@[simp] theorem State.xreset_prevOm : (s.xreset).prevOm = s.prevOm := rfl
@[simp] theorem State.xreset_gen : (s.xreset).gen = s.gen := rfl
@[simp] theorem State.xreset_trigFlag : (s.xreset).trigFlag = s.trigFlag := rfl
@[simp] theorem State.xreset_clkFlag : (s.xreset).clkFlag = s.clkFlag := rfl
@[simp] theorem State.xreset_fEff : (s.xreset).fEff = s.fEff := rfl
@[simp] theorem State.xreset_ext : (s.xreset).ext = ExtRegs.cleared := rfl
@[simp] theorem State.xreset_xRecs : (s.xreset).xRecs = s.xRecs := rfl
@[simp] theorem State.xreset_qState : (s.xreset).qState = s.qState := rfl
@[simp] theorem State.xreset_ibuf : (s.xreset).ibuf = s.ibuf := rfl
@[simp] theorem State.xreset_obuf : (s.xreset).obuf = s.obuf := rfl
@[simp] theorem State.xreset_pending : (s.xreset).pending = s.pending := rfl
@[simp] theorem State.xreset_responses : (s.xreset).responses = s.responses := rfl

/-! `grst`. -/

@[simp] theorem State.grst_params : (s.grst).params = s.params := rfl
@[simp] theorem State.grst_status : (s.grst).status = s.status := rfl
@[simp] theorem State.grst_par : (s.grst).par = s.par := rfl
@[simp] theorem State.grst_omode : (s.grst).omode = s.omode := rfl
@[simp] theorem State.grst_rmode : (s.grst).rmode = s.rmode := rfl
@[simp] theorem State.grst_range : (s.grst).range = s.range := rfl
@[simp] theorem State.grst_sr : (s.grst).sr = s.sr := rfl
@[simp] theorem State.grst_bs : (s.grst).bs = s.bs := rfl
@[simp] theorem State.grst_clkConn : (s.grst).clkConn = s.clkConn := rfl
@[simp] theorem State.grst_tr : (s.grst).tr = s.tr := rfl
@[simp] theorem State.grst_mustReset : (s.grst).mustReset = s.mustReset := rfl
@[simp] theorem State.grst_prevOm : (s.grst).prevOm = s.prevOm := rfl
@[simp] theorem State.grst_gen : (s.grst).gen = GenRegs.cleared := rfl
@[simp] theorem State.grst_trigFlag : (s.grst).trigFlag = s.trigFlag := rfl
@[simp] theorem State.grst_clkFlag : (s.grst).clkFlag = s.clkFlag := rfl
@[simp] theorem State.grst_fEff : (s.grst).fEff = s.fEff := rfl
@[simp] theorem State.grst_ext : (s.grst).ext = s.ext := rfl
@[simp] theorem State.grst_xRecs : (s.grst).xRecs = s.xRecs := rfl
@[simp] theorem State.grst_qState : (s.grst).qState = s.qState := rfl
@[simp] theorem State.grst_ibuf : (s.grst).ibuf = s.ibuf := rfl
@[simp] theorem State.grst_obuf : (s.grst).obuf = s.obuf := rfl
@[simp] theorem State.grst_pending : (s.grst).pending = s.pending := rfl
@[simp] theorem State.grst_responses : (s.grst).responses = s.responses := rfl

/-! `detectEdges`. -/

@[simp] theorem State.detectEdges_params (n : Nat) : (s.detectEdges n).params = s.params := rfl
@[simp] theorem State.detectEdges_status (n : Nat) : (s.detectEdges n).status = s.status := rfl
@[simp] theorem State.detectEdges_par (n : Nat) : (s.detectEdges n).par = s.par := rfl
@[simp] theorem State.detectEdges_omode (n : Nat) : (s.detectEdges n).omode = s.omode := rfl
@[simp] theorem State.detectEdges_rmode (n : Nat) : (s.detectEdges n).rmode = s.rmode := rfl
@[simp] theorem State.detectEdges_range (n : Nat) : (s.detectEdges n).range = s.range := rfl
@[simp] theorem State.detectEdges_sr (n : Nat) : (s.detectEdges n).sr = s.sr := rfl
@[simp] theorem State.detectEdges_bs (n : Nat) : (s.detectEdges n).bs = s.bs := rfl
@[simp] theorem State.detectEdges_clkConn (n : Nat) : (s.detectEdges n).clkConn = s.clkConn := rfl
@[simp] theorem State.detectEdges_tr (n : Nat) : (s.detectEdges n).tr = s.tr := rfl
@[simp] theorem State.detectEdges_mustReset (n : Nat) : (s.detectEdges n).mustReset = s.mustReset := rfl
@[simp] theorem State.detectEdges_prevOm (n : Nat) : (s.detectEdges n).prevOm = s.prevOm := rfl
@[simp] theorem State.detectEdges_gen (n : Nat) : (s.detectEdges n).gen = s.gen := rfl
@[simp] theorem State.detectEdges_trigFlag (n : Nat) : (s.detectEdges n).trigFlag = edge s.trigFlag (level (s.ibufWord (2 * n))) := rfl
@[simp] theorem State.detectEdges_clkFlag (n : Nat) : (s.detectEdges n).clkFlag = edge s.clkFlag (level (s.ibufWord (2 * n + 1))) := rfl
@[simp] theorem State.detectEdges_fEff (n : Nat) : (s.detectEdges n).fEff = s.fEff := rfl
@[simp] theorem State.detectEdges_ext (n : Nat) : (s.detectEdges n).ext = s.ext := rfl
@[simp] theorem State.detectEdges_xRecs (n : Nat) : (s.detectEdges n).xRecs = s.xRecs := rfl
@[simp] theorem State.detectEdges_qState (n : Nat) : (s.detectEdges n).qState = s.qState := rfl
@[simp] theorem State.detectEdges_ibuf (n : Nat) : (s.detectEdges n).ibuf = s.ibuf := rfl
@[simp] theorem State.detectEdges_obuf (n : Nat) : (s.detectEdges n).obuf = s.obuf := rfl
@[simp] theorem State.detectEdges_pending (n : Nat) : (s.detectEdges n).pending = s.pending := rfl
@[simp] theorem State.detectEdges_responses (n : Nat) : (s.detectEdges n).responses = s.responses := rfl

/-! `hardwareReset`: registers as `State.reset`, the rest kept. -/

@[simp] theorem State.hardwareReset_params : (s.hardwareReset).params = s.params := rfl
@[simp] theorem State.hardwareReset_status : (s.hardwareReset).status = State.reset.status := rfl
@[simp] theorem State.hardwareReset_par : (s.hardwareReset).par = State.reset.par := rfl
@[simp] theorem State.hardwareReset_omode : (s.hardwareReset).omode = State.reset.omode := rfl
@[simp] theorem State.hardwareReset_rmode : (s.hardwareReset).rmode = State.reset.rmode := rfl
@[simp] theorem State.hardwareReset_range : (s.hardwareReset).range = State.reset.range := rfl
@[simp] theorem State.hardwareReset_sr : (s.hardwareReset).sr = State.reset.sr := rfl
@[simp] theorem State.hardwareReset_bs : (s.hardwareReset).bs = State.reset.bs := rfl
@[simp] theorem State.hardwareReset_clkConn : (s.hardwareReset).clkConn = State.reset.clkConn := rfl
@[simp] theorem State.hardwareReset_tr : (s.hardwareReset).tr = State.reset.tr := rfl
@[simp] theorem State.hardwareReset_mustReset : (s.hardwareReset).mustReset = State.reset.mustReset := rfl
@[simp] theorem State.hardwareReset_prevOm : (s.hardwareReset).prevOm = State.reset.prevOm := rfl
@[simp] theorem State.hardwareReset_gen : (s.hardwareReset).gen = State.reset.gen := rfl
@[simp] theorem State.hardwareReset_trigFlag : (s.hardwareReset).trigFlag = State.reset.trigFlag := rfl
@[simp] theorem State.hardwareReset_clkFlag : (s.hardwareReset).clkFlag = State.reset.clkFlag := rfl
@[simp] theorem State.hardwareReset_fEff : (s.hardwareReset).fEff = State.reset.fEff := rfl
@[simp] theorem State.hardwareReset_ext : (s.hardwareReset).ext = State.reset.ext := rfl
@[simp] theorem State.hardwareReset_xRecs : (s.hardwareReset).xRecs = State.reset.xRecs := rfl
@[simp] theorem State.hardwareReset_qState : (s.hardwareReset).qState = State.reset.qState := rfl
@[simp] theorem State.hardwareReset_ibuf : (s.hardwareReset).ibuf = s.ibuf := rfl
@[simp] theorem State.hardwareReset_obuf : (s.hardwareReset).obuf = s.obuf := rfl
@[simp] theorem State.hardwareReset_pending : (s.hardwareReset).pending = s.pending := rfl
@[simp] theorem State.hardwareReset_responses : (s.hardwareReset).responses = s.responses := rfl

/-! `modeChange` and `takeMustReset`: what each may change. -/

@[simp] theorem State.modeChange_params : (s.modeChange).params = s.params := by
  unfold State.modeChange; split <;> rfl
@[simp] theorem State.modeChange_status : (s.modeChange).status = s.status := by
  unfold State.modeChange; split <;> rfl
@[simp] theorem State.modeChange_par : (s.modeChange).par = s.par := by
  unfold State.modeChange; split <;> rfl
@[simp] theorem State.modeChange_omode : (s.modeChange).omode = s.omode := by
  unfold State.modeChange; split <;> rfl
@[simp] theorem State.modeChange_rmode : (s.modeChange).rmode = s.rmode := by
  unfold State.modeChange; split <;> rfl
@[simp] theorem State.modeChange_range : (s.modeChange).range = s.range := by
  unfold State.modeChange; split <;> rfl
@[simp] theorem State.modeChange_sr : (s.modeChange).sr = s.sr := by
  unfold State.modeChange; split <;> rfl
@[simp] theorem State.modeChange_bs : (s.modeChange).bs = s.bs := by
  unfold State.modeChange; split <;> rfl
@[simp] theorem State.modeChange_clkConn : (s.modeChange).clkConn = s.clkConn := by
  unfold State.modeChange; split <;> rfl
@[simp] theorem State.modeChange_tr : (s.modeChange).tr = s.tr := by
  unfold State.modeChange; split <;> rfl
@[simp] theorem State.modeChange_mustReset : (s.modeChange).mustReset = s.mustReset := by
  unfold State.modeChange; split <;> rfl
@[simp] theorem State.modeChange_trigFlag : (s.modeChange).trigFlag = s.trigFlag := by
  unfold State.modeChange; split <;> rfl
@[simp] theorem State.modeChange_clkFlag : (s.modeChange).clkFlag = s.clkFlag := by
  unfold State.modeChange; split <;> rfl
@[simp] theorem State.modeChange_fEff : (s.modeChange).fEff = s.fEff := by
  unfold State.modeChange; split <;> rfl
@[simp] theorem State.modeChange_ext : (s.modeChange).ext = s.ext := by
  unfold State.modeChange; split <;> rfl
@[simp] theorem State.modeChange_xRecs : (s.modeChange).xRecs = s.xRecs := by
  unfold State.modeChange; split <;> rfl
@[simp] theorem State.modeChange_qState : (s.modeChange).qState = s.qState := by
  unfold State.modeChange; split <;> rfl
@[simp] theorem State.modeChange_ibuf : (s.modeChange).ibuf = s.ibuf := by
  unfold State.modeChange; split <;> rfl
@[simp] theorem State.modeChange_obuf : (s.modeChange).obuf = s.obuf := by
  unfold State.modeChange; split <;> rfl
@[simp] theorem State.modeChange_pending : (s.modeChange).pending = s.pending := by
  unfold State.modeChange; split <;> rfl
@[simp] theorem State.modeChange_responses : (s.modeChange).responses = s.responses := by
  unfold State.modeChange; split <;> rfl
@[simp] theorem State.modeChange_prevOm : (s.modeChange).prevOm = s.omode := by
  unfold State.modeChange; split
  · rfl
  · next h => exact (not_not.mp h).symm
theorem State.modeChange_gen :
    (s.modeChange).gen = if s.omode ≠ s.prevOm then GenRegs.cleared else s.gen := by
  unfold State.modeChange; split <;> rfl

@[simp] theorem State.takeMustReset_params : (s.takeMustReset).params = s.params := by
  unfold State.takeMustReset; split <;> rfl
@[simp] theorem State.takeMustReset_status : (s.takeMustReset).status = s.status := by
  unfold State.takeMustReset; split <;> rfl
@[simp] theorem State.takeMustReset_par : (s.takeMustReset).par = s.par := by
  unfold State.takeMustReset; split <;> rfl
@[simp] theorem State.takeMustReset_omode : (s.takeMustReset).omode = s.omode := by
  unfold State.takeMustReset; split <;> rfl
@[simp] theorem State.takeMustReset_rmode : (s.takeMustReset).rmode = s.rmode := by
  unfold State.takeMustReset; split <;> rfl
@[simp] theorem State.takeMustReset_range : (s.takeMustReset).range = s.range := by
  unfold State.takeMustReset; split <;> rfl
@[simp] theorem State.takeMustReset_sr : (s.takeMustReset).sr = s.sr := by
  unfold State.takeMustReset; split <;> rfl
@[simp] theorem State.takeMustReset_bs : (s.takeMustReset).bs = s.bs := by
  unfold State.takeMustReset; split <;> rfl
@[simp] theorem State.takeMustReset_clkConn : (s.takeMustReset).clkConn = s.clkConn := by
  unfold State.takeMustReset; split <;> rfl
@[simp] theorem State.takeMustReset_tr : (s.takeMustReset).tr = s.tr := by
  unfold State.takeMustReset; split <;> rfl
@[simp] theorem State.takeMustReset_prevOm : (s.takeMustReset).prevOm = s.prevOm := by
  unfold State.takeMustReset; split <;> rfl
@[simp] theorem State.takeMustReset_gen : (s.takeMustReset).gen = s.gen := by
  unfold State.takeMustReset; split <;> rfl
@[simp] theorem State.takeMustReset_trigFlag : (s.takeMustReset).trigFlag = s.trigFlag := by
  unfold State.takeMustReset; split <;> rfl
@[simp] theorem State.takeMustReset_clkFlag : (s.takeMustReset).clkFlag = s.clkFlag := by
  unfold State.takeMustReset; split <;> rfl
@[simp] theorem State.takeMustReset_fEff : (s.takeMustReset).fEff = s.fEff := by
  unfold State.takeMustReset; split <;> rfl
@[simp] theorem State.takeMustReset_xRecs : (s.takeMustReset).xRecs = s.xRecs := by
  unfold State.takeMustReset; split <;> rfl
@[simp] theorem State.takeMustReset_qState : (s.takeMustReset).qState = s.qState := by
  unfold State.takeMustReset; split <;> rfl
@[simp] theorem State.takeMustReset_ibuf : (s.takeMustReset).ibuf = s.ibuf := by
  unfold State.takeMustReset; split <;> rfl
@[simp] theorem State.takeMustReset_obuf : (s.takeMustReset).obuf = s.obuf := by
  unfold State.takeMustReset; split <;> rfl
@[simp] theorem State.takeMustReset_pending : (s.takeMustReset).pending = s.pending := by
  unfold State.takeMustReset; split <;> rfl
@[simp] theorem State.takeMustReset_responses : (s.takeMustReset).responses = s.responses := by
  unfold State.takeMustReset; split <;> rfl
@[simp] theorem State.takeMustReset_mustReset : (s.takeMustReset).mustReset = false := by
  unfold State.takeMustReset; split
  · rfl
  · next h => simpa using h
theorem State.takeMustReset_ext :
    (s.takeMustReset).ext = if s.mustReset then ExtRegs.cleared else s.ext := by
  unfold State.takeMustReset; split <;> rfl

/-! The phase source: what it may change (spec/43_slope_generator.md R174 to R176, R188). -/

@[simp] theorem State.phaseSource_params : (s.phaseSource).2.params = s.params := by
  unfold State.phaseSource; split <;> simp [State.clockedPath, State.freePath]
@[simp] theorem State.phaseSource_status : (s.phaseSource).2.status = s.status := by
  unfold State.phaseSource; split <;> simp [State.clockedPath, State.freePath]
@[simp] theorem State.phaseSource_par : (s.phaseSource).2.par = s.par := by
  unfold State.phaseSource; split <;> simp [State.clockedPath, State.freePath]
@[simp] theorem State.phaseSource_omode : (s.phaseSource).2.omode = s.omode := by
  unfold State.phaseSource; split <;> simp [State.clockedPath, State.freePath]
@[simp] theorem State.phaseSource_rmode : (s.phaseSource).2.rmode = s.rmode := by
  unfold State.phaseSource; split <;> simp [State.clockedPath, State.freePath]
@[simp] theorem State.phaseSource_range : (s.phaseSource).2.range = s.range := by
  unfold State.phaseSource; split <;> simp [State.clockedPath, State.freePath]
@[simp] theorem State.phaseSource_sr : (s.phaseSource).2.sr = s.sr := by
  unfold State.phaseSource; split <;> simp [State.clockedPath, State.freePath]
@[simp] theorem State.phaseSource_bs : (s.phaseSource).2.bs = s.bs := by
  unfold State.phaseSource; split <;> simp [State.clockedPath, State.freePath]
@[simp] theorem State.phaseSource_clkConn : (s.phaseSource).2.clkConn = s.clkConn := by
  unfold State.phaseSource; split <;> simp [State.clockedPath, State.freePath]
@[simp] theorem State.phaseSource_tr : (s.phaseSource).2.tr = s.tr := by
  unfold State.phaseSource; split <;> simp [State.clockedPath, State.freePath]
@[simp] theorem State.phaseSource_prevOm : (s.phaseSource).2.prevOm = s.prevOm := by
  unfold State.phaseSource; split <;> simp [State.clockedPath, State.freePath]
@[simp] theorem State.phaseSource_trigFlag : (s.phaseSource).2.trigFlag = s.trigFlag := by
  unfold State.phaseSource; split <;> simp [State.clockedPath, State.freePath]
@[simp] theorem State.phaseSource_clkFlag : (s.phaseSource).2.clkFlag = s.clkFlag := by
  unfold State.phaseSource; split <;> simp [State.clockedPath, State.freePath]
@[simp] theorem State.phaseSource_fEff : (s.phaseSource).2.fEff = s.fEff := by
  unfold State.phaseSource; split <;> simp [State.clockedPath, State.freePath]
@[simp] theorem State.phaseSource_xRecs : (s.phaseSource).2.xRecs = s.xRecs := by
  unfold State.phaseSource; split <;> simp [State.clockedPath, State.freePath]
@[simp] theorem State.phaseSource_ibuf : (s.phaseSource).2.ibuf = s.ibuf := by
  unfold State.phaseSource; split <;> simp [State.clockedPath, State.freePath]
@[simp] theorem State.phaseSource_obuf : (s.phaseSource).2.obuf = s.obuf := by
  unfold State.phaseSource; split <;> simp [State.clockedPath, State.freePath]
@[simp] theorem State.phaseSource_pending : (s.phaseSource).2.pending = s.pending := by
  unfold State.phaseSource; split <;> simp [State.clockedPath, State.freePath]
@[simp] theorem State.phaseSource_responses : (s.phaseSource).2.responses = s.responses := by
  unfold State.phaseSource; split <;> simp [State.clockedPath, State.freePath]

/-! `writeFrame` and `finishFrame`. -/

@[simp] theorem State.writeFrame_params (n : Nat) (c : Channels) : (s.writeFrame n c).params = s.params := by simp [State.writeFrame]
@[simp] theorem State.writeFrame_status (n : Nat) (c : Channels) : (s.writeFrame n c).status = s.status := by simp [State.writeFrame]
@[simp] theorem State.writeFrame_par (n : Nat) (c : Channels) : (s.writeFrame n c).par = s.par := by simp [State.writeFrame]
@[simp] theorem State.writeFrame_omode (n : Nat) (c : Channels) : (s.writeFrame n c).omode = s.omode := by simp [State.writeFrame]
@[simp] theorem State.writeFrame_rmode (n : Nat) (c : Channels) : (s.writeFrame n c).rmode = s.rmode := by simp [State.writeFrame]
@[simp] theorem State.writeFrame_range (n : Nat) (c : Channels) : (s.writeFrame n c).range = s.range := by simp [State.writeFrame]
@[simp] theorem State.writeFrame_sr (n : Nat) (c : Channels) : (s.writeFrame n c).sr = s.sr := by simp [State.writeFrame]
@[simp] theorem State.writeFrame_bs (n : Nat) (c : Channels) : (s.writeFrame n c).bs = s.bs := by simp [State.writeFrame]
@[simp] theorem State.writeFrame_clkConn (n : Nat) (c : Channels) : (s.writeFrame n c).clkConn = s.clkConn := by simp [State.writeFrame]
@[simp] theorem State.writeFrame_tr (n : Nat) (c : Channels) : (s.writeFrame n c).tr = s.tr := by simp [State.writeFrame]
@[simp] theorem State.writeFrame_mustReset (n : Nat) (c : Channels) : (s.writeFrame n c).mustReset = s.mustReset := by simp [State.writeFrame]
@[simp] theorem State.writeFrame_prevOm (n : Nat) (c : Channels) : (s.writeFrame n c).prevOm = s.prevOm := by simp [State.writeFrame]
@[simp] theorem State.writeFrame_gen (n : Nat) (c : Channels) : (s.writeFrame n c).gen = s.gen := by simp [State.writeFrame]
@[simp] theorem State.writeFrame_trigFlag (n : Nat) (c : Channels) : (s.writeFrame n c).trigFlag = s.trigFlag := by simp [State.writeFrame]
@[simp] theorem State.writeFrame_clkFlag (n : Nat) (c : Channels) : (s.writeFrame n c).clkFlag = s.clkFlag := by simp [State.writeFrame]
@[simp] theorem State.writeFrame_fEff (n : Nat) (c : Channels) : (s.writeFrame n c).fEff = s.fEff := by simp [State.writeFrame]
@[simp] theorem State.writeFrame_ext (n : Nat) (c : Channels) : (s.writeFrame n c).ext = s.ext := by simp [State.writeFrame]
@[simp] theorem State.writeFrame_xRecs (n : Nat) (c : Channels) : (s.writeFrame n c).xRecs = s.xRecs := by simp [State.writeFrame]
@[simp] theorem State.writeFrame_qState (n : Nat) (c : Channels) : (s.writeFrame n c).qState = s.qState := by simp [State.writeFrame]
@[simp] theorem State.writeFrame_ibuf (n : Nat) (c : Channels) : (s.writeFrame n c).ibuf = s.ibuf := by simp [State.writeFrame]
@[simp] theorem State.writeFrame_pending (n : Nat) (c : Channels) : (s.writeFrame n c).pending = s.pending := by simp [State.writeFrame]
@[simp] theorem State.writeFrame_responses (n : Nat) (c : Channels) : (s.writeFrame n c).responses = s.responses := by simp [State.writeFrame]
@[simp] theorem State.finishFrame_params (n : Nat) (o : PhaseOut) : (s.finishFrame n o).params = s.params := by simp [State.finishFrame]
@[simp] theorem State.finishFrame_status (n : Nat) (o : PhaseOut) : (s.finishFrame n o).status = s.status := by simp [State.finishFrame]
@[simp] theorem State.finishFrame_par (n : Nat) (o : PhaseOut) : (s.finishFrame n o).par = s.par := by simp [State.finishFrame]
@[simp] theorem State.finishFrame_omode (n : Nat) (o : PhaseOut) : (s.finishFrame n o).omode = s.omode := by simp [State.finishFrame]
@[simp] theorem State.finishFrame_rmode (n : Nat) (o : PhaseOut) : (s.finishFrame n o).rmode = s.rmode := by simp [State.finishFrame]
@[simp] theorem State.finishFrame_range (n : Nat) (o : PhaseOut) : (s.finishFrame n o).range = s.range := by simp [State.finishFrame]
@[simp] theorem State.finishFrame_sr (n : Nat) (o : PhaseOut) : (s.finishFrame n o).sr = s.sr := by simp [State.finishFrame]
@[simp] theorem State.finishFrame_bs (n : Nat) (o : PhaseOut) : (s.finishFrame n o).bs = s.bs := by simp [State.finishFrame]
@[simp] theorem State.finishFrame_clkConn (n : Nat) (o : PhaseOut) : (s.finishFrame n o).clkConn = s.clkConn := by simp [State.finishFrame]
@[simp] theorem State.finishFrame_tr (n : Nat) (o : PhaseOut) : (s.finishFrame n o).tr = s.tr := by simp [State.finishFrame]
@[simp] theorem State.finishFrame_mustReset (n : Nat) (o : PhaseOut) : (s.finishFrame n o).mustReset = s.mustReset := by simp [State.finishFrame]
@[simp] theorem State.finishFrame_prevOm (n : Nat) (o : PhaseOut) : (s.finishFrame n o).prevOm = s.prevOm := by simp [State.finishFrame]
@[simp] theorem State.finishFrame_trigFlag (n : Nat) (o : PhaseOut) : (s.finishFrame n o).trigFlag = s.trigFlag := by simp [State.finishFrame]
@[simp] theorem State.finishFrame_clkFlag (n : Nat) (o : PhaseOut) : (s.finishFrame n o).clkFlag = s.clkFlag := by simp [State.finishFrame]
@[simp] theorem State.finishFrame_ext (n : Nat) (o : PhaseOut) : (s.finishFrame n o).ext = s.ext := by simp [State.finishFrame]
@[simp] theorem State.finishFrame_xRecs (n : Nat) (o : PhaseOut) : (s.finishFrame n o).xRecs = s.xRecs := by simp [State.finishFrame]
@[simp] theorem State.finishFrame_qState (n : Nat) (o : PhaseOut) : (s.finishFrame n o).qState = s.qState := by simp [State.finishFrame]
@[simp] theorem State.finishFrame_ibuf (n : Nat) (o : PhaseOut) : (s.finishFrame n o).ibuf = s.ibuf := by simp [State.finishFrame]
@[simp] theorem State.finishFrame_pending (n : Nat) (o : PhaseOut) : (s.finishFrame n o).pending = s.pending := by simp [State.finishFrame]
@[simp] theorem State.finishFrame_responses (n : Nat) (o : PhaseOut) : (s.finishFrame n o).responses = s.responses := by simp [State.finishFrame]
@[simp] theorem State.finishFrame_fEff (n : Nat) (o : PhaseOut) : (s.finishFrame n o).fEff = o.f := by simp [State.finishFrame]
@[simp] theorem State.finishFrame_gen (n : Nat) (o : PhaseOut) :
    (s.finishFrame n o).gen = { s.gen with y := (s.frameValues o).y } := by simp [State.finishFrame]

/-! A frame: what it leaves alone (spec/43_slope_generator.md R190, "State written"). -/

@[simp] theorem State.frame_params (n : Nat) : (s.frame n).params = s.params := by simp [State.frame]
@[simp] theorem State.frames_params (count first : Nat) : (s.frames count first).params = s.params := by
  induction count generalizing s first with
  | zero => rfl
  | succ k ih => simp [State.frames, ih]
@[simp] theorem State.frame_status (n : Nat) : (s.frame n).status = s.status := by simp [State.frame]
@[simp] theorem State.frames_status (count first : Nat) : (s.frames count first).status = s.status := by
  induction count generalizing s first with
  | zero => rfl
  | succ k ih => simp [State.frames, ih]
@[simp] theorem State.frame_par (n : Nat) : (s.frame n).par = s.par := by simp [State.frame]
@[simp] theorem State.frames_par (count first : Nat) : (s.frames count first).par = s.par := by
  induction count generalizing s first with
  | zero => rfl
  | succ k ih => simp [State.frames, ih]
@[simp] theorem State.frame_omode (n : Nat) : (s.frame n).omode = s.omode := by simp [State.frame]
@[simp] theorem State.frames_omode (count first : Nat) : (s.frames count first).omode = s.omode := by
  induction count generalizing s first with
  | zero => rfl
  | succ k ih => simp [State.frames, ih]
@[simp] theorem State.frame_rmode (n : Nat) : (s.frame n).rmode = s.rmode := by simp [State.frame]
@[simp] theorem State.frames_rmode (count first : Nat) : (s.frames count first).rmode = s.rmode := by
  induction count generalizing s first with
  | zero => rfl
  | succ k ih => simp [State.frames, ih]
@[simp] theorem State.frame_range (n : Nat) : (s.frame n).range = s.range := by simp [State.frame]
@[simp] theorem State.frames_range (count first : Nat) : (s.frames count first).range = s.range := by
  induction count generalizing s first with
  | zero => rfl
  | succ k ih => simp [State.frames, ih]
@[simp] theorem State.frame_sr (n : Nat) : (s.frame n).sr = s.sr := by simp [State.frame]
@[simp] theorem State.frames_sr (count first : Nat) : (s.frames count first).sr = s.sr := by
  induction count generalizing s first with
  | zero => rfl
  | succ k ih => simp [State.frames, ih]
@[simp] theorem State.frame_bs (n : Nat) : (s.frame n).bs = s.bs := by simp [State.frame]
@[simp] theorem State.frames_bs (count first : Nat) : (s.frames count first).bs = s.bs := by
  induction count generalizing s first with
  | zero => rfl
  | succ k ih => simp [State.frames, ih]
@[simp] theorem State.frame_clkConn (n : Nat) : (s.frame n).clkConn = s.clkConn := by simp [State.frame]
@[simp] theorem State.frames_clkConn (count first : Nat) : (s.frames count first).clkConn = s.clkConn := by
  induction count generalizing s first with
  | zero => rfl
  | succ k ih => simp [State.frames, ih]
@[simp] theorem State.frame_tr (n : Nat) : (s.frame n).tr = s.tr := by simp [State.frame]
@[simp] theorem State.frames_tr (count first : Nat) : (s.frames count first).tr = s.tr := by
  induction count generalizing s first with
  | zero => rfl
  | succ k ih => simp [State.frames, ih]
@[simp] theorem State.frame_xRecs (n : Nat) : (s.frame n).xRecs = s.xRecs := by simp [State.frame]
@[simp] theorem State.frames_xRecs (count first : Nat) : (s.frames count first).xRecs = s.xRecs := by
  induction count generalizing s first with
  | zero => rfl
  | succ k ih => simp [State.frames, ih]
@[simp] theorem State.frame_ibuf (n : Nat) : (s.frame n).ibuf = s.ibuf := by simp [State.frame]
@[simp] theorem State.frames_ibuf (count first : Nat) : (s.frames count first).ibuf = s.ibuf := by
  induction count generalizing s first with
  | zero => rfl
  | succ k ih => simp [State.frames, ih]
@[simp] theorem State.frame_pending (n : Nat) : (s.frame n).pending = s.pending := by simp [State.frame]
@[simp] theorem State.frames_pending (count first : Nat) : (s.frames count first).pending = s.pending := by
  induction count generalizing s first with
  | zero => rfl
  | succ k ih => simp [State.frames, ih]
@[simp] theorem State.frame_responses (n : Nat) : (s.frame n).responses = s.responses := by simp [State.frame]
@[simp] theorem State.frames_responses (count first : Nat) : (s.frames count first).responses = s.responses := by
  induction count generalizing s first with
  | zero => rfl
  | succ k ih => simp [State.frames, ih]
@[simp] theorem State.frame_prevOm (n : Nat) : (s.frame n).prevOm = s.omode := by simp [State.frame]
@[simp] theorem State.frame_trigFlag (n : Nat) :
    (s.frame n).trigFlag = edge s.trigFlag (level (s.ibufWord (2 * n))) := by
  simp [State.frame, State.ibufWord]
@[simp] theorem State.frame_clkFlag (n : Nat) :
    (s.frame n).clkFlag = edge s.clkFlag (level (s.ibufWord (2 * n + 1))) := by
  simp [State.frame, State.ibufWord]

end Sys2Proof.Machine
end

