-- ==== Sys2Proof/Laws/Frame.lean ====
section
/-! SUPPORT. What one frame does to a legal state (spec/43_slope_generator.md R190): each part of the frame keeps
the state legal, and the four words it writes are its four channels. -/

namespace Sys2Proof.Machine

open F32

theorem ParamRegs.atReset_legal : ParamRegs.atReset.Legal :=
  ⟨by decide, by decide, by decide, by decide, by decide, by decide⟩

namespace State

variable {s : State} {n : Nat}

theorem grst_legal (h : s.Legal) : s.grst.Legal := { h with gen := GenRegs.cleared_legal }

theorem xreset_legal (h : s.Legal) : s.xreset.Legal := { h with ext := ExtRegs.cleared_legal }

theorem respond_legal (h : s.Legal) (w : Word) : (s.respond w).Legal := { h with }

theorem raise_legal (h : s.Legal) (e : ErrorKind) : (s.raise e).Legal := { h with }

theorem writeIbuf_legal (h : s.Legal) {a : Nat} (ha : a < Config.ibufWords) (w : Word) :
    (s.writeIbuf a w).Legal :=
  { h with
    ibufWf := Memory.putWord_wf h.ibufWf a w
    ibufBelow := Memory.putWord_below h.ibufBelow ha w }

theorem writeObuf_legal (h : s.Legal) {a : Nat} (ha : a < Config.obufWords) (w : Word) :
    (s.writeObuf a w).Legal :=
  { h with
    obufWf := Memory.putWord_wf h.obufWf a w
    obufBelow := Memory.putWord_below h.obufBelow ha w }

theorem modeChange_legal (h : s.Legal) : s.modeChange.Legal := by
  unfold modeChange
  split
  · exact { grst_legal h with }
  · exact h

theorem detectEdges_legal (h : s.Legal) (n : Nat) : (s.detectEdges n).Legal := { h with }

theorem takeMustReset_legal (h : s.Legal) : s.takeMustReset.Legal := by
  unfold takeMustReset
  split
  · exact { xreset_legal h with }
  · exact h

theorem freePath_legal (h : s.Legal) : s.freePath.1.Legal ∧ s.freePath.2.Legal := by
  have hf := freqRange_freeFrequency h.params h.par.freq h.sr
  have hg := GenRegs.trigger_legal h.gen s.trigFlag s.rmode
  exact ⟨⟨hg.phase, hf⟩, { h with gen := GenRegs.advance_legal hg s.rmode hf }⟩

theorem clockedPath_legal (h : s.Legal) : s.clockedPath.1.Legal ∧ s.clockedPath.2.Legal := by
  have h1 := takeMustReset_legal h
  obtain ⟨ho, he⟩ := xstep_legal (quantIndex s.takeMustReset.qState s.takeMustReset.par.ratioIn)
    (decide (s.takeMustReset.range = .highAudio)) (decide (s.takeMustReset.rmode = .ar)) s.takeMustReset.clkFlag
    h1.ext h1.xRecs
  exact ⟨ho, { h1 with ext := he, gen := ⟨he.phase, h1.gen.y⟩ }⟩

theorem phaseSource_legal (h : s.Legal) : s.phaseSource.1.Legal ∧ s.phaseSource.2.Legal := by
  unfold phaseSource
  split
  · exact clockedPath_legal h
  · exact freePath_legal h

theorem writeFrame_legal (h : s.Legal) (hn : n < Config.blockMax) (c : Channels) : (s.writeFrame n c).Legal := by
  have h3 : 4 * n + 3 < 4096 := by
    have : n < 1024 := hn
    omega
  have h2 : 4 * n + 2 < 4096 := by omega
  have h1 : 4 * n + 1 < 4096 := by omega
  have h0 : 4 * n < 4096 := by omega
  exact writeObuf_legal (writeObuf_legal (writeObuf_legal (writeObuf_legal h h0 _) h1 _) h2 _) h3 _

/-- The four words of a frame are its channels (R187). -/
theorem obufWord_writeFrame (s : State) (n : Nat) (c : Channels) (a : Nat) :
    (s.writeFrame n c).obufWord a =
      if a = 4 * n then c.ch0 else if a = 4 * n + 1 then c.ch1 else if a = 4 * n + 2 then c.ch2
      else if a = 4 * n + 3 then c.ch3 else s.obufWord a := by
  unfold writeFrame
  simp only [State.obufWord_writeObuf]
  repeat' split
  all_goals first | rfl | omega

theorem finishFrame_legal (h : s.Legal) (hn : n < Config.blockMax) {o : PhaseOut} (ho : o.Legal) :
    (s.finishFrame n o).Legal ∧ (s.finishFrame n o).frameFinite n := by
  have hv := frameValues_legal h.par h.gen.y h.sr ho
  have hf : legalFEff o.f = true := by
    simp only [legalFEff, Bool.or_eq_true]
    exact .inr ho.f
  have hs : State.Legal { s with fEff := o.f, gen := { s.gen with y := (s.frameValues o).y } } :=
    { params := h.params, par := h.par, sr := h.sr, bs := h.bs, tr := h.tr, gen := ⟨h.gen.phase, hv.y⟩, fEff := hf,
      ext := h.ext, xRecs := h.xRecs, ibufWf := h.ibufWf, ibufBelow := h.ibufBelow, obufWf := h.obufWf,
      obufBelow := h.obufBelow }
  refine ⟨writeFrame_legal hs hn _, ?_⟩
  · obtain ⟨h0, h1, h2, h3⟩ := channelMap_finite hv s.omode
    intro k hk
    unfold finishFrame
    rw [obufWord_writeFrame]
    interval_cases k
    · simpa using h0
    · simpa using h1
    · simpa using h2
    · simpa using h3

/-- A frame keeps a legal state legal, and what it writes is finite. -/
theorem frame_legal (h : s.Legal) (hn : n < Config.blockMax) :
    (s.frame n).Legal ∧ (s.frame n).frameFinite n := by
  obtain ⟨ho, hs⟩ := phaseSource_legal (detectEdges_legal (modeChange_legal h) n)
  exact finishFrame_legal hs hn ho

/-- A frame writes no word of OBUF but its own four (R64, R187). -/
theorem obufWord_frame (s : State) (n : Nat) {a : Nat} (ha : a < 4 * n ∨ 4 * n + 3 < a) :
    (s.frame n).obufWord a = s.obufWord a := by
  unfold frame finishFrame
  rw [obufWord_writeFrame, if_neg (by omega), if_neg (by omega), if_neg (by omega), if_neg (by omega)]
  exact State.obufWord_congr (by simp) (by simp) a

theorem frames_legal (count first : Nat) (h : s.Legal) (hn : first + count ≤ Config.blockMax) :
    (s.frames count first).Legal := by
  induction count generalizing s first with
  | zero => exact h
  | succ k ih => exact ih (first + 1) (frame_legal h (by omega)).1 (by omega)

/-- The frames of a block write no word outside their own (R64). -/
theorem obufWord_frames (s : State) (count first : Nat) {a : Nat} (ha : a < 4 * first ∨ 4 * (first + count) ≤ a) :
    (s.frames count first).obufWord a = s.obufWord a := by
  induction count generalizing s first with
  | zero => rfl
  | succ k ih => rw [frames, ih _ _ (by omega), obufWord_frame s first (by omega)]

/-- Frames one after another (R191, R196). -/
theorem frames_add (s : State) (a b first : Nat) :
    s.frames (a + b) first = (s.frames a first).frames b (first + a) := by
  induction a generalizing s first with
  | zero => simp [frames]
  | succ k ih =>
    rw [Nat.succ_add]
    simp only [frames]
    rw [ih, Nat.add_assoc, Nat.add_comm 1 k]

theorem reset_legal_buffers : State.reset.ibuf.wf ∧ State.reset.obuf.wf := ⟨List.Pairwise.nil, List.Pairwise.nil⟩

/-- Hardware reset keeps a legal state legal (R290). -/
theorem hardwareReset_legal (h : s.Legal) : s.hardwareReset.Legal where
  params := h.params
  par := ParamRegs.atReset_legal
  sr := (by decide : within Config.srMin Config.srMax Config.srDefault = true)
  bs := (by decide : 1 ≤ Config.bsDefault ∧ Config.bsDefault ≤ Config.blockMax)
  tr := (by decide : within Config.f0 Config.trMax Config.trDefault = true)
  gen := GenRegs.cleared_legal
  fEff := (by decide : legalFEff Config.f0 = true)
  ext := ExtRegs.cleared_legal
  xRecs := (by decide : within Config.f0 recsMax Config.xRecsDefault = true)
  ibufWf := h.ibufWf
  ibufBelow := h.ibufBelow
  obufWf := h.obufWf
  obufBelow := h.obufBelow

end State

end Sys2Proof.Machine
end

