-- ==== Sys2Proof/Laws/Paths.lean ====
section
/-! SUPPORT. What the two phase sources and a frame leave in the registers, field by field (spec/42_ramp_extractor.md
R144 to R149, spec/43_slope_generator.md R174 to R176, R188 to R190). -/

namespace Sys2Proof.Machine

/-! The commands. -/

theorem exec_step_next {n : Nat} (h : n < Config.blockMax) (s : State) :
    exec (.step n) s = .next ((s.frame n).respond 0#32) := by
  simp only [exec, execStep]
  rw [if_neg (Nat.not_le.mpr h)]

theorem exec_render_next (s : State) :
    exec (.render s.bs) s = .next ((s.frames s.bs 0).respond 0#32) := by
  simp only [exec, execRender]
  rw [if_neg (fun h => h rfl)]

/-! The advances. -/

section Advances
variable (p f : Word)

@[simp] theorem wrapAdvance_phase : (wrapAdvance p f).phase =
    if F32.le Config.f1 (F32.add p f) then F32.sub (F32.add p f) Config.f1 else F32.add p f := by
  unfold wrapAdvance; split <;> rfl
@[simp] theorem wrapAdvance_eocp : (wrapAdvance p f).eocp = F32.le Config.f1 (F32.add p f) := by
  unfold wrapAdvance; split <;> simp_all
@[simp] theorem holdAdvance_phase : (holdAdvance p f).phase =
    if F32.le Config.f1 (F32.add p f) then Config.f1 else F32.add p f := by
  unfold holdAdvance; split <;> rfl
@[simp] theorem holdAdvance_eocp : (holdAdvance p f).eocp = F32.le Config.f1 (F32.add p f) := by
  unfold holdAdvance; split <;> simp_all
@[simp] theorem holdAdvance_goesOn : (holdAdvance p f).goesOn = !F32.le Config.f1 (F32.add p f) := by
  unfold holdAdvance; split <;> simp_all

end Advances

/-! The extractor. -/

namespace ExtRegs

variable {e : ExtRegs} {ar audio : Bool} {f recs : Word} {sub : Nat} {clk : GateFlag}

@[simp] theorem advance_hasp : (e.advance ar f).hasp = e.hasp := by
  unfold advance; (repeat' split) <;> rfl
@[simp] theorem advance_period : (e.advance ar f).period = e.period := by
  unfold advance; (repeat' split) <;> rfl
@[simp] theorem advance_count : (e.advance ar f).count = e.count := by
  unfold advance; (repeat' split) <;> rfl
@[simp] theorem advance_edge : (e.advance ar f).edge = e.edge := by
  unfold advance; (repeat' split) <;> rfl
@[simp] theorem advance_qcount : (e.advance ar f).qcount = e.qcount := by
  unfold advance; (repeat' split) <;> rfl

theorem measure_of_not_rising (h : clk ≠ .rising) : e.measure sub audio ar recs clk = e.countFrame := by
  unfold measure; rw [if_neg h]

theorem measure_of_rising (h : clk = .rising) :
    e.measure sub audio ar recs clk = e.countFrame.risingEdge sub audio ar recs := by
  unfold measure; rw [if_pos h]

/-- The first edge of a reset extractor (R145). -/
theorem risingEdge_first (h : e.edge = false) :
    e.risingEdge sub audio ar recs = { e.firstEdge ar with count := 0 } := by
  unfold risingEdge; simp [h]

/-- The first interval (R146). -/
theorem risingEdge_firstPeriod (h1 : e.edge = true) (h2 : e.hasp = false) :
    e.risingEdge sub audio ar recs = { e.firstPeriod ar with count := 0 } := by
  unfold risingEdge; simp [h1, h2]

/-- A later interval (R146). -/
theorem risingEdge_nextPeriod (h1 : e.edge = true) (h2 : e.hasp = true) :
    e.risingEdge sub audio ar recs = { e.nextPeriod sub audio ar recs with count := 0 } := by
  unfold risingEdge; simp [h1, h2]

/-- The one-shot's running bit after an edge. -/
theorem measure_active :
    (e.measure sub audio ar recs clk).active = (e.active || (ar && decide (clk = .rising))) := by
  by_cases h : clk = .rising
  · rw [measure_of_rising h]
    unfold risingEdge nextPeriod firstPeriod firstEdge countFrame
    cases ar <;> simp [h] <;> (repeat' split) <;> rfl
  · rw [measure_of_not_rising h]
    simp [h, countFrame]

/-- The end-of-cycle bit after an edge: a one-shot restart clears it. -/
theorem measure_eocp :
    (e.measure sub audio ar recs clk).eocp = (e.eocp && !(ar && decide (clk = .rising))) := by
  by_cases h : clk = .rising
  · rw [measure_of_rising h]
    unfold risingEdge nextPeriod firstPeriod firstEdge countFrame
    cases ar <;> simp [h] <;> (repeat' split) <;> rfl
  · rw [measure_of_not_rising h]
    simp [h, countFrame]

end ExtRegs

/-! The free path. -/

namespace GenRegs

variable (g : GenRegs) (flag : GateFlag) (mode : RampMode) (f : Word)

theorem trigger_phase :
    (g.trigger flag mode).phase = if flag = .rising ∧ mode ≠ .looping then Config.f0 else g.phase := by
  unfold trigger; cases flag <;> cases mode <;> simp

theorem trigger_eocp :
    (g.trigger flag mode).eocp = if flag = .rising ∧ mode ≠ .looping then false else g.eocp := by
  unfold trigger; cases flag <;> cases mode <;> simp

theorem trigger_active :
    (g.trigger flag mode).active = if flag = .rising ∧ mode = .ar then true else g.active := by
  unfold trigger; cases flag <;> cases mode <;> simp

@[simp] theorem trigger_y : (g.trigger flag mode).y = g.y := by
  unfold trigger; cases flag <;> cases mode <;> simp

@[simp] theorem advance_y : (g.advance mode f).y = g.y := by
  unfold advance; (repeat' split) <;> rfl

end GenRegs

/-! A frame. -/

namespace State

variable (s : State) (n : Nat)

theorem modeChange_of_eq {s : State} (h : s.omode = s.prevOm) : s.modeChange = s := by
  unfold modeChange; rw [if_neg (fun hne => hne h)]

theorem modeChange_of_ne {s : State} (h : s.omode ≠ s.prevOm) :
    s.modeChange = { s with prevOm := s.omode, gen := GenRegs.cleared } := by
  unfold modeChange; rw [if_pos h]; rfl

theorem phaseSource_free {s : State} (h : s.clkConn = false) : s.phaseSource = s.freePath := by
  unfold phaseSource; rw [if_neg (by simp [h])]

theorem phaseSource_clocked {s : State} (h : s.clkConn = true) : s.phaseSource = s.clockedPath := by
  unfold phaseSource; rw [if_pos h]

theorem freePath_out :
    s.freePath.1 = (s.gen.trigger s.trigFlag s.rmode).outputs s.rmode s.freeFrequency := rfl

theorem freePath_gen :
    s.freePath.2.gen = (s.gen.trigger s.trigFlag s.rmode).advance s.rmode s.freeFrequency := rfl

/-- The free path's frequency depends on parameters and modes alone. -/
theorem freeFrequency_congr {s t : State} (h1 : t.params = s.params) (h2 : t.par = s.par) (h3 : t.sr = s.sr)
    (h4 : t.range = s.range) : t.freeFrequency = s.freeFrequency := by
  simp only [freeFrequency, h1, h2, h3, h4]

theorem frame_freeFrequency : (s.modeChange.detectEdges n).freeFrequency = s.freeFrequency :=
  freeFrequency_congr (by simp) (by simp) (by simp) (by simp)

theorem frame_fEff : (s.frame n).fEff = ((s.modeChange.detectEdges n).phaseSource).1.f := by
  unfold frame; rw [finishFrame_fEff]

/-- G_PHASE, G_ACTIVE and G_EOCP after a frame are the phase source's; G_Y is the frame's y. -/
theorem frame_gen :
    (s.frame n).gen =
      { ((s.modeChange.detectEdges n).phaseSource).2.gen with
        y := (((s.modeChange.detectEdges n).phaseSource).2.frameValues
          ((s.modeChange.detectEdges n).phaseSource).1).y } := by
  unfold frame; rw [finishFrame_gen]

/-- A phase source keeps G_Y. -/
theorem phaseSource_y : s.phaseSource.2.gen.y = s.gen.y := by
  unfold phaseSource
  split
  · simp [clockedPath]
  · simp [freePath]

/-- The values the channel map reads in a frame (R180 to R186). -/
theorem frame_values :
    (s.modeChange.detectEdges n).phaseSource.2.frameValues (s.modeChange.detectEdges n).phaseSource.1 =
      { o := (s.modeChange.detectEdges n).phaseSource.1
        warp := warpOrRest (s.modeChange.detectEdges n).phaseSource.1.running
          (s.modeChange.detectEdges n).phaseSource.1.p s.par.slope
        y := (s.frame n).gen.y
        sh := s.par.shift
        slope := s.par.slope
        sr := s.sr } := by
  rw [frame_gen]
  unfold frameValues
  simp only [phaseSource_par, detectEdges_par, modeChange_par, phaseSource_sr, detectEdges_sr, modeChange_sr]

/-- The four words of a frame (R187). -/
theorem frame_channels :
    let c := channelMap s.omode ((s.modeChange.detectEdges n).phaseSource.2.frameValues
      (s.modeChange.detectEdges n).phaseSource.1)
    (s.frame n).obufWord (4 * n) = c.ch0 ∧ (s.frame n).obufWord (4 * n + 1) = c.ch1 ∧
      (s.frame n).obufWord (4 * n + 2) = c.ch2 ∧ (s.frame n).obufWord (4 * n + 3) = c.ch3 := by
  have h : (s.modeChange.detectEdges n).phaseSource.2.omode = s.omode := by simp
  unfold frame finishFrame
  refine ⟨?_, ?_, ?_, ?_⟩ <;> rw [obufWord_writeFrame, h]
  · rw [if_pos rfl]
  · rw [if_neg (by omega), if_pos rfl]
  · rw [if_neg (by omega), if_neg (by omega), if_pos rfl]
  · rw [if_neg (by omega), if_neg (by omega), if_neg (by omega), if_pos rfl]

/-- G_Y of a frame (R180 to R182): from the last G_Y, or from +0.0 after a mode-change reset. -/
theorem frame_y :
    (s.frame n).gen.y =
      smoothed s.par.smooth (s.modeChange.detectEdges n).phaseSource.1.f
        (shapeCurve (warpOrRest (s.modeChange.detectEdges n).phaseSource.1.running
          (s.modeChange.detectEdges n).phaseSource.1.p s.par.slope).u s.par.shape)
        (if s.omode = s.prevOm then s.gen.y else Config.f0) := by
  have hy : (s.modeChange.detectEdges n).gen.y = if s.omode = s.prevOm then s.gen.y else Config.f0 := by
    by_cases h : s.omode = s.prevOm
    · rw [if_pos h, modeChange_of_eq h]; rfl
    · rw [if_neg h, modeChange_of_ne h]; rfl
  rw [frame_gen]
  unfold frameValues
  simp only [phaseSource_par, detectEdges_par, modeChange_par, phaseSource_y, hy]

theorem frame_ext : (s.frame n).ext = ((s.modeChange.detectEdges n).phaseSource).2.ext := by
  simp [frame, finishFrame]
theorem frame_qState : (s.frame n).qState = ((s.modeChange.detectEdges n).phaseSource).2.qState := by
  simp [frame, finishFrame]
theorem frame_mustReset :
    (s.frame n).mustReset = ((s.modeChange.detectEdges n).phaseSource).2.mustReset := by
  simp [frame, finishFrame]

/-- The clocked path of a frame, from the state before it (R188). -/
theorem clockedPath_frame :
    ((s.modeChange.detectEdges n).clockedPath).1 =
        (xstep ratioTable[quantIndex s.qState s.par.ratioIn].m ratioTable[quantIndex s.qState s.par.ratioIn].s
          (decide (s.range = .highAudio)) (decide (s.rmode = .ar))
          (edge s.clkFlag (level (s.ibufWord (2 * n + 1)))) s.xRecs
          (if s.mustReset then ExtRegs.cleared else s.ext)).1 ∧
      ((s.modeChange.detectEdges n).clockedPath).2.ext =
        (xstep ratioTable[quantIndex s.qState s.par.ratioIn].m ratioTable[quantIndex s.qState s.par.ratioIn].s
          (decide (s.range = .highAudio)) (decide (s.rmode = .ar))
          (edge s.clkFlag (level (s.ibufWord (2 * n + 1)))) s.xRecs
          (if s.mustReset then ExtRegs.cleared else s.ext)).2 := by
  have hq : (s.modeChange.detectEdges n).takeMustReset.qState = s.qState := by simp
  have hr : (s.modeChange.detectEdges n).takeMustReset.par = s.par := by simp
  have hg : (s.modeChange.detectEdges n).takeMustReset.range = s.range := by simp
  have hm : (s.modeChange.detectEdges n).takeMustReset.rmode = s.rmode := by simp
  have hx : (s.modeChange.detectEdges n).takeMustReset.xRecs = s.xRecs := by simp
  have he : (s.modeChange.detectEdges n).takeMustReset.ext = if s.mustReset then ExtRegs.cleared else s.ext := by
    rw [takeMustReset_ext]; simp
  have hc : (s.modeChange.detectEdges n).takeMustReset.clkFlag =
      edge s.clkFlag (level (s.ibufWord (2 * n + 1))) := by
    rw [takeMustReset_clkFlag]
    show edge s.modeChange.clkFlag (level (s.modeChange.ibufWord (2 * n + 1))) = _
    rw [modeChange_clkFlag, State.ibufWord_congr (s := s) (by simp) (by simp)]
  unfold clockedPath
  simp only [hq, hr, hg, hm, hx, he, hc, and_self]

theorem clockedPath_rest :
    s.clockedPath.2.gen.phase = s.clockedPath.2.ext.phase ∧ s.clockedPath.2.gen.eocp = s.clockedPath.2.ext.eocp ∧
      s.clockedPath.2.gen.active = s.clockedPath.2.ext.active ∧ s.clockedPath.2.mustReset = false ∧
      s.clockedPath.2.qState = some (quantIndex s.qState s.par.ratioIn) := by
  unfold clockedPath
  simp

/-! No frame reads the responses. -/

/-- The state with other responses. -/
def withResponses (r : List Response) : State := { s with responses := r }

variable (r : List Response)

theorem withResponses_modeChange : (s.withResponses r).modeChange = s.modeChange.withResponses r := by
  unfold modeChange
  show (if s.omode ≠ s.prevOm then _ else _) = _
  split <;> rfl

theorem withResponses_takeMustReset : (s.withResponses r).takeMustReset = s.takeMustReset.withResponses r := by
  unfold takeMustReset
  show (if s.mustReset then _ else _) = _
  split <;> rfl

theorem withResponses_phaseSource :
    (s.withResponses r).phaseSource = (s.phaseSource.1, s.phaseSource.2.withResponses r) := by
  unfold phaseSource
  show (if s.clkConn then _ else _) = _
  split
  · unfold clockedPath
    simp only [withResponses_takeMustReset]
    rfl
  · rfl

theorem withResponses_writeObuf (a : Nat) (w : Word) :
    (s.withResponses r).writeObuf a w = (s.writeObuf a w).withResponses r := rfl

theorem withResponses_writeFrame (c : Channels) :
    (s.withResponses r).writeFrame n c = (s.writeFrame n c).withResponses r := by
  simp only [writeFrame, withResponses_writeObuf]

theorem withResponses_finishFrame (o : PhaseOut) :
    (s.withResponses r).finishFrame n o = (s.finishFrame n o).withResponses r := by
  unfold finishFrame
  rw [show (s.withResponses r).frameValues o = s.frameValues o from rfl, ← withResponses_writeFrame]
  rfl

/-- A frame does the same whatever responses were given before it. -/
theorem withResponses_frame : (s.withResponses r).frame n = (s.frame n).withResponses r := by
  unfold frame
  rw [withResponses_modeChange, show (s.modeChange.withResponses r).detectEdges n =
    (s.modeChange.detectEdges n).withResponses r from rfl, withResponses_phaseSource]
  exact withResponses_finishFrame _ _ _ _

theorem withResponses_frames (count first : Nat) :
    (s.withResponses r).frames count first = (s.frames count first).withResponses r := by
  induction count generalizing s first with
  | zero => rfl
  | succ k ih => simp only [frames, withResponses_frame, ih]

end State

end Sys2Proof.Machine
end

