-- ==== Sys2Proof/Laws/PerInstr.lean ====
section
/-! SUPPORT. What is said of every command, one lemma per constructor of Instr. TableLayout: the encoder lays a
well-formed command out as its row of spec/opcode_table.json says, fixed bits and operand fields alike. -/

namespace Sys2Proof.Laws.TableLayout

/-- A field of a command word, bits hi to lo, and what it holds. -/
structure Field where
  hi : Nat
  lo : Nat
  value : Nat
  deriving DecidableEq, Repr

/-- The row of spec/opcode_table.json: its fixed fields, then its operand fields. -/
def layout : Instr → List Field
  | .nop => [⟨31, 0, 0⟩]
  | .wrp reg _ => [⟨15, 0, 0⟩, ⟨31, 24, 1⟩, ⟨23, 16, reg⟩]
  | .setom mode => [⟨31, 16, 512⟩, ⟨15, 0, mode⟩]
  | .setrm mode => [⟨31, 16, 768⟩, ⟨15, 0, mode⟩]
  | .setrg range => [⟨31, 16, 1024⟩, ⟨15, 0, range⟩]
  | .clkc connected => [⟨31, 1, 41943040⟩, ⟨0, 0, connected.toNat⟩]
  | .init _ => [⟨31, 0, 134217728⟩]
  | .srate _ => [⟨31, 0, 150994944⟩]
  | .bsize size => [⟨31, 16, 2560⟩, ⟨15, 0, size⟩]
  | .xinit _ => [⟨31, 0, 184549376⟩]
  | .grst => [⟨31, 0, 201326592⟩]
  | .xrst => [⟨31, 0, 218103808⟩]
  | .qrst => [⟨31, 0, 234881024⟩]
  | .clrst mask => [⟨31, 5, 7864320⟩, ⟨4, 0, mask.toNat⟩]
  | .step frame => [⟨31, 16, 4096⟩, ⟨15, 0, frame⟩]
  | .render size => [⟨31, 16, 4352⟩, ⟨15, 0, size⟩]
  | .gedet prev cur => [⟨31, 3, 67108864⟩, ⟨1, 0, prev.code⟩, ⟨2, 2, cur.toNat⟩]
  | .quant _ => [⟨31, 0, 553648128⟩]
  | .wrin addr _ => [⟨31, 16, 12288⟩, ⟨15, 0, addr⟩]
  | .rdout addr => [⟨31, 16, 12544⟩, ⟨15, 0, addr⟩]
  | .rdreg reg => [⟨15, 0, 0⟩, ⟨31, 24, 50⟩, ⟨23, 16, reg⟩]

/-- Every field of the row reads back from the encoded command word. -/
def Statement (i : Instr) : Prop :=
  i.wellFormed = true →
    ∀ f ∈ layout i, (encode i).1.toNat / 2 ^ f.lo % 2 ^ (f.hi + 1 - f.lo) = f.value

theorem nop : Statement .nop := fun _ => by
  show ∀ f ∈ ([⟨31, 0, 0⟩] : List Field),
    (commandWord 0 0 0).toNat / 2 ^ f.lo % 2 ^ (f.hi + 1 - f.lo) = f.value
  decide

theorem wrp (reg : Nat) (wdata : Word) : Statement (.wrp reg wdata) := fun h => by
  have hs := Instr.selOperand_lt h
  have hi := Instr.immOperand_lt h
  rw [toNat_encode h]
  simp only [layout, Instr.opcode, Opcode.code, Instr.selOperand, Instr.immOperand, List.forall_mem_cons, List.not_mem_nil,
    false_implies, implies_true, and_true] at *
  omega

theorem setom (mode : Nat) : Statement (.setom mode) := fun h => by
  have hs := Instr.selOperand_lt h
  have hi := Instr.immOperand_lt h
  rw [toNat_encode h]
  simp only [layout, Instr.opcode, Opcode.code, Instr.selOperand, Instr.immOperand, List.forall_mem_cons, List.not_mem_nil,
    false_implies, implies_true, and_true] at *
  omega

theorem setrm (mode : Nat) : Statement (.setrm mode) := fun h => by
  have hs := Instr.selOperand_lt h
  have hi := Instr.immOperand_lt h
  rw [toNat_encode h]
  simp only [layout, Instr.opcode, Opcode.code, Instr.selOperand, Instr.immOperand, List.forall_mem_cons, List.not_mem_nil,
    false_implies, implies_true, and_true] at *
  omega

theorem setrg (range : Nat) : Statement (.setrg range) := fun h => by
  have hs := Instr.selOperand_lt h
  have hi := Instr.immOperand_lt h
  rw [toNat_encode h]
  simp only [layout, Instr.opcode, Opcode.code, Instr.selOperand, Instr.immOperand, List.forall_mem_cons, List.not_mem_nil,
    false_implies, implies_true, and_true] at *
  omega

theorem clkc (connected : Bool) : Statement (.clkc connected) := by
  cases connected <;> (unfold Statement; decide)

theorem init (wdata : Word) : Statement (.init wdata) := fun _ => by
  show ∀ f ∈ ([⟨31, 0, 134217728⟩] : List Field),
    (commandWord 8 0 0).toNat / 2 ^ f.lo % 2 ^ (f.hi + 1 - f.lo) = f.value
  decide

theorem srate (wdata : Word) : Statement (.srate wdata) := fun _ => by
  show ∀ f ∈ ([⟨31, 0, 150994944⟩] : List Field),
    (commandWord 9 0 0).toNat / 2 ^ f.lo % 2 ^ (f.hi + 1 - f.lo) = f.value
  decide

theorem bsize (size : Nat) : Statement (.bsize size) := fun h => by
  have hs := Instr.selOperand_lt h
  have hi := Instr.immOperand_lt h
  rw [toNat_encode h]
  simp only [layout, Instr.opcode, Opcode.code, Instr.selOperand, Instr.immOperand, List.forall_mem_cons, List.not_mem_nil,
    false_implies, implies_true, and_true] at *
  omega

theorem xinit (wdata : Word) : Statement (.xinit wdata) := fun _ => by
  show ∀ f ∈ ([⟨31, 0, 184549376⟩] : List Field),
    (commandWord 11 0 0).toNat / 2 ^ f.lo % 2 ^ (f.hi + 1 - f.lo) = f.value
  decide

theorem grst : Statement .grst := fun _ => by
  show ∀ f ∈ ([⟨31, 0, 201326592⟩] : List Field),
    (commandWord 12 0 0).toNat / 2 ^ f.lo % 2 ^ (f.hi + 1 - f.lo) = f.value
  decide

theorem xrst : Statement .xrst := fun _ => by
  show ∀ f ∈ ([⟨31, 0, 218103808⟩] : List Field),
    (commandWord 13 0 0).toNat / 2 ^ f.lo % 2 ^ (f.hi + 1 - f.lo) = f.value
  decide

theorem qrst : Statement .qrst := fun _ => by
  show ∀ f ∈ ([⟨31, 0, 234881024⟩] : List Field),
    (commandWord 14 0 0).toNat / 2 ^ f.lo % 2 ^ (f.hi + 1 - f.lo) = f.value
  decide

theorem clrst (mask : BitVec 5) : Statement (.clrst mask) := fun h => by
  rw [toNat_encode h]
  have := mask.isLt
  simp only [layout, Instr.opcode, Opcode.code, Instr.selOperand, Instr.immOperand, List.forall_mem_cons, List.not_mem_nil,
    false_implies, implies_true, and_true] at *
  omega

theorem step (frame : Nat) : Statement (.step frame) := fun h => by
  have hs := Instr.selOperand_lt h
  have hi := Instr.immOperand_lt h
  rw [toNat_encode h]
  simp only [layout, Instr.opcode, Opcode.code, Instr.selOperand, Instr.immOperand, List.forall_mem_cons, List.not_mem_nil,
    false_implies, implies_true, and_true] at *
  omega

theorem render (size : Nat) : Statement (.render size) := fun h => by
  have hs := Instr.selOperand_lt h
  have hi := Instr.immOperand_lt h
  rw [toNat_encode h]
  simp only [layout, Instr.opcode, Opcode.code, Instr.selOperand, Instr.immOperand, List.forall_mem_cons, List.not_mem_nil,
    false_implies, implies_true, and_true] at *
  omega

theorem gedet (prev : GateFlag) (cur : Bool) : Statement (.gedet prev cur) := by
  cases prev <;> cases cur <;> (unfold Statement; decide)

theorem quant (wdata : Word) : Statement (.quant wdata) := fun _ => by
  show ∀ f ∈ ([⟨31, 0, 553648128⟩] : List Field),
    (commandWord 33 0 0).toNat / 2 ^ f.lo % 2 ^ (f.hi + 1 - f.lo) = f.value
  decide

theorem wrin (addr : Nat) (wdata : Word) : Statement (.wrin addr wdata) := fun h => by
  have hs := Instr.selOperand_lt h
  have hi := Instr.immOperand_lt h
  rw [toNat_encode h]
  simp only [layout, Instr.opcode, Opcode.code, Instr.selOperand, Instr.immOperand, List.forall_mem_cons, List.not_mem_nil,
    false_implies, implies_true, and_true] at *
  omega

theorem rdout (addr : Nat) : Statement (.rdout addr) := fun h => by
  have hs := Instr.selOperand_lt h
  have hi := Instr.immOperand_lt h
  rw [toNat_encode h]
  simp only [layout, Instr.opcode, Opcode.code, Instr.selOperand, Instr.immOperand, List.forall_mem_cons, List.not_mem_nil,
    false_implies, implies_true, and_true] at *
  omega

theorem rdreg (reg : Nat) : Statement (.rdreg reg) := fun h => by
  have hs := Instr.selOperand_lt h
  have hi := Instr.immOperand_lt h
  rw [toNat_encode h]
  simp only [layout, Instr.opcode, Opcode.code, Instr.selOperand, Instr.immOperand, List.forall_mem_cons, List.not_mem_nil,
    false_implies, implies_true, and_true] at *
  omega

end Sys2Proof.Laws.TableLayout
end

