-- ==== Sys2Proof/Laws/Step.lean ====
section
/-! SUPPORT. What a command word does, by its opcode (spec/30_encoding.md R86, R87), and what a step does. -/

namespace Sys2Proof

/-- A word of an opcode decodes by R86's two remaining checks. -/
theorem decode_of_opField {cmd : Word} {o : Opcode} (h : opField cmd = o.code) (w : Word) :
    decode cmd w =
      if selField cmd ≠ 0 ∧ o.usesSel = false then .error (.selNotZero (selField cmd))
      else if 2 ^ o.immBits ≤ immField cmd then .error (.immNotZero (immField cmd))
      else .ok (o.build (selField cmd) (immField cmd) w) := by
  simp only [decode, h, Opcode.ofCode_code]

/-- A word of no opcode is refused. -/
theorem decode_of_reserved {cmd : Word} (h : Opcode.ofCode (opField cmd) = none) (w : Word) :
    decode cmd w = .error (.reservedOpcode (opField cmd)) := by
  simp only [decode, h]

/-- A decoded word is of some opcode, and its fields passed both checks. -/
theorem decode_ok {cmd w : Word} {i : Instr} (h : decode cmd w = .ok i) :
    ∃ o : Opcode, opField cmd = o.code ∧ (selField cmd = 0 ∨ o.usesSel = true) ∧ immField cmd < 2 ^ o.immBits ∧
      i = o.build (selField cmd) (immField cmd) w := by
  unfold decode at h
  split at h
  · cases h
  · next o ho =>
    split at h
    · cases h
    · next h1 =>
      split at h
      · cases h
      · next h2 =>
        cases h
        exact ⟨o, (Opcode.code_of_ofCode ho).symm, by
          rcases Nat.eq_zero_or_pos (selField cmd) with h0 | h0
          · exact .inl h0
          · right
            by_contra hc
            exact h1 ⟨by omega, by simpa using hc⟩, by omega, rfl⟩

/-- The 21 opcodes are the bytes that are not reserved (R87). -/
theorem ofCode_eq_none_iff {n : Nat} (h : n < 256) : Opcode.ofCode n = none ↔
    n = 0x06 ∨ n = 0x07 ∨ (0x12 ≤ n ∧ n ≤ 0x1F) ∨ (0x22 ≤ n ∧ n ≤ 0x2F) ∨ 0x33 ≤ n := by
  revert n
  decide +kernel

namespace Machine

theorem runCommand_ok {cmd w : Word} {i : Instr} (h : decode cmd w = .ok i) (s : State) :
    runCommand cmd w s = exec i s := by simp only [runCommand, h]

theorem runCommand_error {cmd w : Word} {e : DecodeError} (h : decode cmd w = .error e) (s : State) :
    runCommand cmd w s = .next (s.raise .illegal) := by simp only [runCommand, h]

theorem step_command {s : State} {cmd w : Word} {rest : List HostInput}
    (h : s.pending = .command cmd w :: rest) : step s = runCommand cmd w { s with pending := rest } := by
  simp only [step, takeInput, h]

theorem step_hardwareReset {s : State} {rest : List HostInput} (h : s.pending = .hardwareReset :: rest) :
    step s = .next (State.hardwareReset { s with pending := rest }) := by
  simp only [step, takeInput, h]

theorem step_idle {s : State} (h : s.pending = []) : step s = .next s := by
  simp only [step, takeInput, h]

end Machine

end Sys2Proof
end

