-- ==== Sys2Proof/Machine/Asm.lean ====
section
/-! DEFINITION. The assembler of spec/30_encoding.md R89 and its pseudo-instructions (R90): one line of source to
the commands it stands for, or none where the assembler rejects the line. The host's tool, no part of the block; the
literal forms R89 leaves open are in log entry 17. -/

namespace Sys2Proof.Asm

open Sys2Proof.Machine

/-! Text. -/

def isSpace (c : Char) : Bool := c == ' ' || c == '\t' || c == '\r'

/-- Without the spaces at both ends. -/
def trim (l : List Char) : List Char := ((l.dropWhile isSpace).reverse.dropWhile isSpace).reverse

/-- The pieces between separators. -/
def splitAt (sep : Char) : List Char → List (List Char)
  | [] => [[]]
  | c :: rest =>
    if c == sep then [] :: splitAt sep rest
    else
      match splitAt sep rest with
      | [] => [[c]]
      | p :: ps => (c :: p) :: ps

/-- `;` starts a comment (R89). -/
def stripComment (l : List Char) : List Char := trim (l.takeWhile (· != ';'))

def isText (l : List Char) (s : String) : Bool := String.ofList l == s

/-! Numbers. -/

/-- The value of a digit, either case of a hexadecimal one. -/
def digit (base : Nat) (c : Char) : Option Nat :=
  let n := c.toNat
  let v := if 48 ≤ n ∧ n ≤ 57 then n - 48
    else if 65 ≤ n ∧ n ≤ 70 then n - 55
    else if 97 ≤ n ∧ n ≤ 102 then n - 87
    else base
  if v < base then some v else none

/-- The value of a run of digits, after `acc`. -/
def digits (base : Nat) : (acc : Nat) → List Char → Option Nat
  | acc, [] => some acc
  | acc, c :: rest => (digit base c).bind (fun d => digits base (acc * base + d) rest)

/-- An unsigned integer, decimal or 0x hexadecimal. -/
def number (l : List Char) : Option Nat :=
  match l with
  | [] => none
  | '0' :: 'x' :: d :: rest => digits 16 0 (d :: rest)
  | d :: rest => digits 10 0 (d :: rest)

/-- `<n>`, 0 to 65535 (R89). -/
def imm (l : List Char) : Option Nat := (number l).filter (· < 65536)

/-- `0` or `1`. -/
def bit (l : List Char) : Option Bool := ((number l).filter (· < 2)).map (· == 1)

/-- A sign and the rest. -/
def sign (l : List Char) : Bool × List Char :=
  match l with
  | '-' :: rest => (true, rest)
  | '+' :: rest => (false, rest)
  | rest => (false, rest)

/-- An exponent: whether it is negative, and its size; none written is 0. -/
def exponent (l : List (List Char)) : Option (Bool × Nat) :=
  match l with
  | [] => some (false, 0)
  | [e] =>
    match sign e with
    | (_, []) => none
    | (neg, d :: rest) => (digits 10 0 (d :: rest)).map (fun n => (neg, n))
  | _ => none

/-- A mantissa: its digits as an integer, and how many stand after the point. -/
def mantissa (base : Nat) (l : List Char) : Option (Nat × Nat) :=
  match splitAt '.' l with
  | [[]] => none
  | [whole] => (digits base 0 whole).map (fun n => (n, 0))
  | [whole, frac] =>
    if whole.isEmpty && frac.isEmpty then none
    else (digits base 0 (whole ++ frac)).map (fun n => (n, frac.length))
  | _ => none

/-- `m * scale^e / point^places` with a sign, as the binary32 nearest it, ties to even (R89). -/
def nearest (neg : Bool) (m point places scale : Nat) (e : Bool × Nat) : Word :=
  let num : Nat := m * (if e.1 then 1 else scale ^ e.2) * 2 ^ 149
  let den : Nat := point ^ places * (if e.1 then scale ^ e.2 else 1)
  F32.round (if neg then -(num : Int) else num) den neg

/-- A mantissa and exponent split at the exponent letter, in a base. -/
def literal (base scale : Nat) (letter : Char) (neg : Bool) (l : List Char) : Option Word :=
  match splitAt letter l with
  | [] => none
  | m :: e =>
    (mantissa base m).bind (fun mp => (exponent e).map (fun x => nearest neg mp.1 base mp.2 scale x))

/-- `<float>`: 0x and exactly eight hexadecimal digits for raw bits, else a hexadecimal or a decimal floating
literal (R89). -/
def float (l : List Char) : Option Word :=
  match l with
  | ['0', 'x', a, b, c, d, e, f, g, h] =>
    match digits 16 0 [a, b, c, d, e, f, g, h] with
    | some n => some (BitVec.ofNat 32 n)
    | none => literal 16 2 'p' false [a, b, c, d, e, f, g, h]
  | _ =>
    match sign l with
    | (neg, '0' :: 'x' :: rest) => literal 16 2 'p' neg rest
    | (neg, rest) => literal 10 10 'e' neg rest

/-! Names. -/

/-- The number a name has in a table. -/
def named (table : List (String × Nat)) (l : List Char) : Option Nat :=
  (table.find? (fun e => isText l e.1)).map (·.2)

/-- The names WRP takes (R89). -/
def paramNames : List (String × Nat) :=
  [("FREQ", 0x01), ("SLOPE", 0x02), ("SHAPE", 0x03), ("SMOOTH", 0x04), ("SHIFT", 0x05), ("RATIO_IN", 0x06)]

/-- The register names of spec/10_state.md R24. -/
def regNames : List (String × Nat) :=
  paramNames
    ++ [("STATUS", 0x00), ("OMODE", 0x07), ("RMODE", 0x08), ("RANGE", 0x09), ("SR", 0x0A), ("BS", 0x0B)]
    ++ [("CLKCONN", 0x0C), ("TR", 0x0D), ("MUST_RESET", 0x0E), ("PREV_OM", 0x0F), ("G_PHASE", 0x10)]
    ++ [("G_ACTIVE", 0x11), ("G_EOCP", 0x12), ("G_Y", 0x13), ("TRIG_FLAG", 0x14), ("CLK_FLAG", 0x15)]
    ++ [("F_EFF", 0x16), ("X_PHASE", 0x18), ("X_PERIOD", 0x19), ("X_COUNT", 0x1A), ("X_EDGE", 0x1B)]
    ++ [("X_HASP", 0x1C), ("X_ACTIVE", 0x1D), ("X_EOCP", 0x1E), ("X_QCOUNT", 0x1F), ("X_RECS", 0x20)]
    ++ [("Q_STATE", 0x21)]

def omodeNames : List (String × Nat) :=
  [("GATES", 1), ("AMPLITUDE", 2), ("SLOPE_PHASE", 3), ("FREQUENCY", 4), ("LAST", 5)]
def rmodeNames : List (String × Nat) := [("LOOPING", 0), ("AR", 1), ("LOOP_SYNC", 2)]
def rangeNames : List (String × Nat) := [("SUB_AUDIO", 0), ("AUDIO", 1), ("HIGH_AUDIO", 2)]
def flagNames : List (String × Nat) := [("LOW", 0), ("HIGH", 1), ("FALLING", 2), ("RISING", 3)]

/-- `<reg>`: a name of the table or a number that fits SEL (R89; the number's range is log entry 19, DESIGN CHOICE). -/
def reg (table : List (String × Nat)) (l : List Char) : Option Nat :=
  (named table l).or ((number l).filter (· < 256))

/-- A mode name or its code (R89). -/
def mode (table : List (String × Nat)) (l : List Char) : Option Nat := (named table l).or (imm l)

/-- A gate flag by name (R89). -/
def flag (l : List Char) : Option GateFlag := (named flagNames l).map GateFlag.ofCode

/-! Lines. -/

/-- What the host issues for a command: the command word and the data word. -/
abbrev Issue := Word × Word

/-- One command. -/
def one (i : Option Instr) : Option (List Issue) := i.map (fun i => [encode i])

/-- An expanded immediate, rejected above 65535 (R90). -/
def expanded (n : Nat) (f : Nat → Instr) : Option (List Issue) := if n < 65536 then some [encode (f n)] else none

/-- The commands of a mnemonic without operands (R89, R90). -/
def nullary (m : List Char) : Option (List Issue) :=
  if isText m "NOP" then some [encode .nop]
  else if isText m "GRST" then some [encode .grst]
  else if isText m "XRST" then some [encode .xrst]
  else if isText m "QRST" then some [encode .qrst]
  else if isText m "RESETALL" then some [encode .grst, encode .xrst, encode .qrst]
  else if isText m "CLRALL" then some [encode (.clrst 0x1F#5)]
  else if isText m "RECONNECT" then some [encode (.clkc false), encode (.clkc true)]
  else none

/-- CLRST's operand goes into IMM as it stands (R89); the block raises ILLEGAL on one above 0x1F (R239). -/
def clrst (l : List Char) : Option (List Issue) := (imm l).map (fun n => [(commandWord 0x0F 0 n, 0#32)])

/-- The commands of a mnemonic with one operand (R89). -/
def unary (m a : List Char) : Option (List Issue) :=
  if isText m "SETOM" then one ((mode omodeNames a).map .setom)
  else if isText m "SETRM" then one ((mode rmodeNames a).map .setrm)
  else if isText m "SETRG" then one ((mode rangeNames a).map .setrg)
  else if isText m "CLKC" then one ((bit a).map .clkc)
  else if isText m "INIT" then one ((float a).map .init)
  else if isText m "SRATE" then one ((float a).map .srate)
  else if isText m "BSIZE" then one ((imm a).map .bsize)
  else if isText m "XINIT" then one ((float a).map .xinit)
  else if isText m "CLRST" then clrst a
  else if isText m "STEP" then one ((imm a).map .step)
  else if isText m "RENDER" then one ((imm a).map .render)
  else if isText m "QUANT" then one ((float a).map .quant)
  else if isText m "RDOUT" then one ((imm a).map .rdout)
  else if isText m "RDREG" then one ((reg regNames a).map .rdreg)
  else none

/-- The commands of a mnemonic with two operands (R89, R90). RDCH's `<k>` may be any integer 0 to 65535 while 4n+k
fits IMM, and a register number is one that fits SEL: R89 and R90 give neither a range (log entry 19, DESIGN CHOICE). -/
def binary (m a b : List Char) : Option (List Issue) :=
  if isText m "WRP" then one ((reg paramNames a).bind (fun r => (float b).map (.wrp r)))
  else if isText m "GEDET" then one ((flag a).bind (fun f => (bit b).map (.gedet f)))
  else if isText m "WRIN" then one ((imm a).bind (fun n => (float b).map (.wrin n)))
  else if isText m "WRTRIG" then
    (imm a).bind (fun n => (float b).bind (fun w => expanded (2 * n) (fun x => .wrin x w)))
  else if isText m "WRCLK" then
    (imm a).bind (fun n => (float b).bind (fun w => expanded (2 * n + 1) (fun x => .wrin x w)))
  else if isText m "RDCH" then (imm a).bind (fun n => (imm b).bind (fun k => expanded (4 * n + k) .rdout))
  else none

/-- The operands after a mnemonic, separated by commas. -/
def operands (l : List Char) : List (List Char) :=
  match trim l with
  | [] => []
  | c :: rest => (splitAt ',' (c :: rest)).map trim

/-- One line: what to issue for it, none for a line the assembler rejects, no command for a blank line. -/
def line (l : List Char) : Option (List Issue) :=
  let body := stripComment l
  let m := body.takeWhile (fun c => !isSpace c)
  match m, operands (body.dropWhile (fun c => !isSpace c)) with
  | [], _ => some []
  | m, [] => nullary m
  | m, [a] => unary m a
  | m, [a, b] => binary m a b
  | _, _ => none

/-- A source text, one command per line. -/
def source (s : String) : Option (List Issue) :=
  ((splitAt '\n' s.toList).mapM line).map List.flatten

end Sys2Proof.Asm
end

