-- ==== Sys2Proof/Tests/Slice0.lean ====
section
/-! SUPPORT. Tests of the model, with expected values from spec/95_test_vectors.md, the rules' own examples or hand
calculation, and a witness for the hypotheses of every statement. -/

namespace Sys2Proof.Tests

open Sys2Proof.Machine Sys2Proof.Statements

set_option Elab.async false  -- one theorem at a time: a thread for each outgrows the memory limit

/-! Well-formedness: each check refuses an operand one above its field. -/

theorem test_ill_formed_wrp : (Instr.wrp 256 0#32).wellFormed = false := by decide
theorem test_ill_formed_setom : (Instr.setom 65536).wellFormed = false := by decide
theorem test_ill_formed_setrm : (Instr.setrm 65536).wellFormed = false := by decide
theorem test_ill_formed_setrg : (Instr.setrg 65536).wellFormed = false := by decide
theorem test_ill_formed_bsize : (Instr.bsize 65536).wellFormed = false := by decide
theorem test_ill_formed_step : (Instr.step 65536).wellFormed = false := by decide
theorem test_ill_formed_render : (Instr.render 65536).wellFormed = false := by decide
theorem test_ill_formed_wrin : (Instr.wrin 65536 0#32).wellFormed = false := by decide
theorem test_ill_formed_rdout : (Instr.rdout 65536).wellFormed = false := by decide
theorem test_ill_formed_rdreg : (Instr.rdreg 256).wellFormed = false := by decide

/-! Decoding: the word of every command written out bit by bit, OP then SEL then IMM (spec/30_encoding.md R82,
R85). -/

theorem test_decode_nop : decode 0b00000000_00000000_0000000000000000#32 0#32 = .ok .nop := by decide
theorem test_decode_wrp : decode 0b00000001_00000110_0000000000000000#32 0x3F000000#32
    = .ok (.wrp 6 0x3F000000#32) := by decide
theorem test_decode_setom : decode 0b00000010_00000000_0000000000000101#32 0#32 = .ok (.setom 5) := by decide
theorem test_decode_setrm : decode 0b00000011_00000000_1000000000000001#32 0#32 = .ok (.setrm 32769) := by decide
theorem test_decode_setrg : decode 0b00000100_00000000_0000000000000010#32 0#32 = .ok (.setrg 2) := by decide
theorem test_decode_clkc : decode 0b00000101_00000000_0000000000000001#32 0#32 = .ok (.clkc true) := by decide
theorem test_decode_init : decode 0b00001000_00000000_0000000000000000#32 0x472C4400#32
    = .ok (.init 0x472C4400#32) := by decide
theorem test_decode_srate : decode 0b00001001_00000000_0000000000000000#32 0x47BB8000#32
    = .ok (.srate 0x47BB8000#32) := by decide
theorem test_decode_bsize : decode 0b00001010_00000000_0000010000000000#32 0#32 = .ok (.bsize 1024) := by decide
theorem test_decode_xinit : decode 0b00001011_00000000_0000000000000000#32 0x3DCCCCCD#32
    = .ok (.xinit 0x3DCCCCCD#32) := by decide
theorem test_decode_grst : decode 0b00001100_00000000_0000000000000000#32 0#32 = .ok .grst := by decide
theorem test_decode_xrst : decode 0b00001101_00000000_0000000000000000#32 0#32 = .ok .xrst := by decide
theorem test_decode_qrst : decode 0b00001110_00000000_0000000000000000#32 0#32 = .ok .qrst := by decide
theorem test_decode_clrst : decode 0b00001111_00000000_0000000000010010#32 0#32
    = .ok (.clrst 0b10010#5) := by decide
theorem test_decode_step : decode 0b00010000_00000000_0000001111111111#32 0#32 = .ok (.step 1023) := by decide
theorem test_decode_render : decode 0b00010001_00000000_0000000001000000#32 0#32 = .ok (.render 64) := by decide
theorem test_decode_gedet : decode 0b00100000_00000000_0000000000000110#32 0#32
    = .ok (.gedet .falling true) := by decide
theorem test_decode_quant : decode 0b00100001_00000000_0000000000000000#32 0x3E800000#32
    = .ok (.quant 0x3E800000#32) := by decide
theorem test_decode_wrin : decode 0b00110000_00000000_0000011111111111#32 0x3F800000#32
    = .ok (.wrin 2047 0x3F800000#32) := by decide
theorem test_decode_rdout : decode 0b00110001_00000000_0000111111111111#32 0#32 = .ok (.rdout 4095) := by decide
theorem test_decode_rdreg : decode 0b00110010_00100001_0000000000000000#32 0#32 = .ok (.rdreg 0x21) := by decide

theorem test_reserved_opcodes : (decode 0x06000000#32 0#32).toOption = none ∧
    (decode 0x12000000#32 0#32).toOption = none ∧ (decode 0xFF000000#32 0#32).toOption = none := by decide
theorem test_field_out_of_use : decode 0x10010000#32 0#32 = .error (.selNotZero 1) ∧
    decode 0x00000001#32 0#32 = .error (.immNotZero 1) ∧ decode 0x05000002#32 0#32 = .error (.immNotZero 2) ∧
    decode 0x0F000020#32 0#32 = .error (.immNotZero 32) ∧ decode 0x20000008#32 0#32 = .error (.immNotZero 8) := by
  decide
/-- Eight bytes of a serial link, little-endian (R65): WRP SLOPE, 0.25, then one byte more. -/
theorem test_decode_bytes :
    decodeBytes [0x00#8, 0x00#8, 0x02#8, 0x01#8, 0x00#8, 0x00#8, 0x80#8, 0x3E#8, 0xAA#8]
      = .command (.wrp 2 0x3E800000#32) [0xAA#8] := by decide
theorem test_decode_bytes_short : decodeBytes [0x00#8, 0x00#8, 0x02#8] = .truncated := by decide
/-- The opcode table's word of CLRST with its mask field all ones. -/
theorem test_decode_table_word : decodeTableWord 32 0x0F00001F = some (.clrst 0x1F#5) := by decide

/-! The assembler (R89, R90, R91). -/

theorem test_assemble_wrp :
    Asm.source "WRP SLOPE, 0.25 ; a comment" = some [(0x01020000#32, 0x3E800000#32)] := by decide +kernel
theorem test_assemble_decimal : Asm.source "XINIT 0.1" = some [(0x0B000000#32, 0x3DCCCCCD#32)] := by decide +kernel
theorem test_assemble_pseudo :
    Asm.source "WRCLK 2, 1.0\nRDCH 1, 3\nRESETALL" =
      some [(0x30000005#32, 0x3F800000#32), (0x31000007#32, 0#32), (0x0C000000#32, 0#32), (0x0D000000#32, 0#32),
        (0x0E000000#32, 0#32)] := by decide +kernel
theorem test_assemble_rejects : Asm.source "WRTRIG 32768, 1.0" = none ∧ Asm.source "WRP OMODE, 1.0" = none := by
  decide +kernel

/-! Arithmetic (R13, R14): ties to even, overflow, subnormals, the sign of zero. -/

/-- 1 + 2^-24 is a tie and stays 1; 1 + 3 * 2^-24 is a tie and goes up to the even significand. -/
theorem test_add_ties : F32.add 0x3F800000#32 0x33800000#32 = 0x3F800000#32 ∧
    F32.add 0x3F800001#32 0x33800000#32 = 0x3F800002#32 := by decide +kernel
theorem test_mul_overflow_and_subnormal : F32.mul 0x7F7FFFFF#32 0x40000000#32 = 0x7F800000#32 ∧
    F32.mul 0x00800000#32 0x3F000000#32 = 0x00400000#32 := by decide +kernel
theorem test_div_third : F32.div 0x3F800000#32 0x40400000#32 = 0x3EAAAAAB#32 := by decide +kernel
theorem test_zero_signs : F32.sub 0x3F800000#32 0x3F800000#32 = 0x00000000#32 ∧
    F32.le 0x00000000#32 0x80000000#32 = true ∧ F32.lt 0x80000000#32 0x00000000#32 = false := by decide +kernel
/-- 2^(1/12) is 0x3F879C7D. -/
theorem test_exp2_semitone : F32.exp2Reference (F32.div 0x3F800000#32 0x41400000#32) = 0x3F879C7D#32 := by
  decide +kernel

/-- A raw value of 0.0 is lifted to the least R16 allows: 2 at 1.5, 2^-10 at -10.0, 2^10 from 10.0 up. -/
theorem test_settled_exp2 : F32.settledExp2 (fun _ => 0x00000000#32) 0x3FC00000#32 = 0x40000000#32 ∧
    F32.settledExp2 (fun _ => 0x00000000#32) 0xC1200000#32 = 0x3A800000#32 ∧
    F32.settledExp2 (fun _ => 0x00000000#32) 0x7F800000#32 = 0x44800000#32 := by decide +kernel

/-- Every entry of the ratio table as R120 writes it: m as the number it is, and s. -/
theorem test_ratio_table : (ratioTable.toList.map fun r => (F32.val r.m / 2 ^ 149, r.s)) =
    [(1, 16), (1, 8), (1, 6), (1, 4), (1, 3), (1, 2), (2, 3), (3, 4), (4, 5), (1, 1)] ++
    [(1, 1), (5, 4), (4, 3), (3, 2), (2, 1), (3, 1), (4, 1), (6, 1), (8, 1), (16, 1)] := by decide +kernel

/-! One step of each command on a small state. -/

/-- Whether an outcome is a next state with a property. -/
def nextIs (o : Host.Outcome State Fault Refusal) (p : State → Bool) : Bool :=
  match o with
  | .next t => p t
  | .fault _ => false
  | .refused _ => false

/-- REF_HZ = 6000, both inputs of frame 0 at 0.0. -/
def quiet : State :=
  { State.reset with
    params := { State.reset.params with refHz := 0x45BB8000#32 }
    ibuf := Memory.putWord (Memory.putWord [] 0 0x00000000#32) 1 0x00000000#32 }

/-- The trigger input of frame 0 at 1.0. -/
def triggerHigh : State := quiet.writeIbuf 0 0x3F800000#32

/-- The clock input of frame 0 at 1.0, the clock connected, AMPLITUDE, no filtering of the period. -/
def clockHigh : State :=
  { quiet.writeIbuf 1 0x3F800000#32 with clkConn := true, mustReset := true, xRecs := 0x00000000#32 }

/-- R238's example. -/
theorem test_nop : nextIs (runCommand 0x00000000#32 0#32 State.reset)
    (fun t => t.responses == [⟨0#32, false⟩]) = true := by decide
/-- R230's examples: SHAPE gets a NaN, FREQ 200.0. -/
theorem test_wrp_nan : nextIs (exec (.wrp 3 0x7FC00000#32) State.reset)
    (fun t => t.par.shape == 0x3F000000#32) = true := by decide
theorem test_wrp_clamps : nextIs (exec (.wrp 1 0x43480000#32) State.reset)
    (fun t => t.par.freq == 0x42F00000#32) = true := by decide
theorem test_setom_last : nextIs (exec (.setom 5) { State.reset with omode := .frequency })
    (fun t => t.omode == .gates && t.prevOm == .gates) = true := by decide
theorem test_setrm_default : nextIs (exec (.setrm 3) { State.reset with rmode := .ar })
    (fun t => t.rmode == .looping) = true := by decide
theorem test_setrg_default : nextIs (exec (.setrg 3) { State.reset with range := .highAudio })
    (fun t => t.range == .audio) = true := by decide
theorem test_clkc_connects : nextIs (exec (.clkc true) State.reset)
    (fun t => t.clkConn && t.mustReset) = true := by decide
theorem test_clkc_disconnects : nextIs (exec (.clkc false) { State.reset with clkConn := true })
    (fun t => !t.clkConn && !t.mustReset) = true := by decide
/-- R237's example: INIT 44100.0 gives X_RECS = 4410.0. -/
theorem test_init : nextIs (exec (.init 0x472C4400#32) { State.reset with bs := 32, status := 0b10000#5 })
    (fun t => t.sr == 0x472C4400#32 && t.xRecs == 0x4589D000#32 && t.bs == 64 && t.status == 0#5) = true := by
  decide +kernel
/-- R231's example: SRATE 96000.0 gives X_RECS = 9600.0. -/
theorem test_srate : nextIs (exec (.srate 0x47BB8000#32) State.reset)
    (fun t => t.sr == 0x47BB8000#32 && t.xRecs == 0x46160000#32 && t.mustReset) = true := by decide +kernel
theorem test_srate_infinite : nextIs (exec (.srate 0x7F800000#32) State.reset)
    (fun t => t.sr == 0x473B8000#32 && t.status == 0b00100#5) = true := by decide +kernel
theorem test_bsize : nextIs (exec (.bsize 32) State.reset) (fun t => t.bs == 32 && t.mustReset) = true := by decide
/-- R140's example, and a negative time. -/
theorem test_xinit : nextIs (exec (.xinit 0x3DCCCCCD#32) State.reset)
    (fun t => t.tr == 0x3DCCCCCD#32 && t.xRecs == 0x45960000#32) = true := by decide +kernel
theorem test_xinit_negative : nextIs (exec (.xinit 0xBDCCCCCD#32) State.reset)
    (fun t => t.status == 0b00100#5 && t.responses == [⟨0#32, true⟩]) = true := by decide +kernel
theorem test_grst : nextIs (exec .grst
      { State.reset with gen := ⟨0x3F000000#32, true, true, 0x3F000000#32⟩, trigFlag := .high })
    (fun t => t.gen == ⟨0#32, false, false, 0#32⟩ && t.trigFlag == .high) = true := by decide
theorem test_xrst : nextIs (exec .xrst
      { State.reset with ext := ⟨0x3F000000#32, 0x41000000#32, 5, true, true, true, true, 3⟩, clkFlag := .high })
    (fun t => t.ext == ⟨0#32, 0#32, 0, false, false, false, false, 0⟩ && t.clkFlag == .high) = true := by decide
theorem test_qrst : nextIs (exec .qrst { State.reset with qState := some 4 })
    (fun t => t.qState == none) = true := by decide
theorem test_clrst : nextIs (exec (.clrst 0b01010#5) { State.reset with status := 0b11110#5 })
    (fun t => t.status == 0b10100#5) = true := by decide
/-- R190's example: STEP 0 from reset with REF_HZ = 6000 and quiet inputs. -/
theorem test_step : nextIs (exec (.step 0) quiet)
    (fun t => t.obufWord 0 == 0x3F800000#32 && t.obufWord 1 == 0#32 && t.obufWord 2 == 0#32 &&
      t.obufWord 3 == 0#32 && t.gen.phase == 0x3E000000#32) = true := by decide +kernel
/-- A first clock edge: X_EDGE = 1, the phase held, F_EFF = F_EPS (spec/95_test_vectors.md 3.4.1, frame 0). -/
theorem test_step_clocked : nextIs (exec (.step 0) clockHigh)
    (fun t => t.ext.edge && !t.ext.hasp && t.fEff == 0x33800000#32 && !t.mustReset && t.qState == some 10 &&
      t.clkFlag == .rising) = true := by decide +kernel
/-- A block of one frame is that frame (R191). -/
theorem test_render : nextIs (exec (.render 1) { quiet with bs := 1 })
    (fun t => t.obufWord 0 == 0x3F800000#32 && t.gen.phase == 0x3E000000#32) = true := by decide +kernel
theorem test_render_mismatch : nextIs (exec (.render 32) State.reset)
    (fun t => t.status == 0b10000#5 && t.obuf == []) = true := by decide
/-- R103's and R91's examples. -/
theorem test_gedet_falling : nextIs (exec (.gedet .high false) State.reset)
    (fun t => t.responses == [⟨2#32, false⟩]) = true := by decide
theorem test_gedet_rising : nextIs (exec (.gedet .falling true) State.reset)
    (fun t => t.responses == [⟨3#32, false⟩]) = true := by decide
/-- R124's example, and R125's: at v = 3.4 the state 4 keeps 4. -/
theorem test_quant : nextIs (exec (.quant 0x3E800000#32) State.reset)
    (fun t => t.qState == some 5 && t.responses == [⟨5#32, false⟩]) = true := by decide +kernel
theorem test_quant_holds : nextIs (exec (.quant 0x3E373E5D#32) { State.reset with qState := some 4 })
    (fun t => t.qState == some 4) = true := by decide +kernel
theorem test_wrin : nextIs (exec (.wrin 5 0x3F800000#32) State.reset)
    (fun t => t.ibufWord 5 == 0x3F800000#32) = true := by decide +kernel
theorem test_wrin_outside : nextIs (exec (.wrin 2048 0x3F800000#32) State.reset)
    (fun t => t.ibuf == [] && t.status == 0b01000#5) = true := by decide
theorem test_rdout : nextIs (exec (.rdout 7) (State.reset.writeObuf 7 0x3EAAAAAB#32))
    (fun t => t.responses == [⟨0x3EAAAAAB#32, false⟩]) = true := by decide +kernel
/-- R242's examples. -/
theorem test_rdreg_sr : nextIs (exec (.rdreg 0x0A) State.reset)
    (fun t => t.responses == [⟨0x473B8000#32, false⟩]) = true := by decide
theorem test_rdreg_none : nextIs (exec (.rdreg 0x21) State.reset)
    (fun t => t.responses == [⟨0xFFFFFFFF#32, false⟩]) = true := by decide
/-- withFetchWord issues the word, and a step runs it. -/
theorem test_fetch_word : nextIs (step (State.reset.withFetchWord 32 0x0A000020)) (fun t => t.bs == 32) = true := by
  decide

/-! Witnesses: a state and operands that meet the hypotheses of each statement. -/

theorem witness_step_runs_decoded_command :
    (State.reset.withFetchWord 32 0x0C000000).pending = .command 0x0C000000#32 0#32 :: [] ∧
      decode 0x0C000000#32 0#32 = .ok .grst := by decide

theorem witness_step_refuses_illegal_word :
    (State.reset.withFetchWord 32 0x06000000).pending = .command 0x06000000#32 0#32 :: [] ∧
      illegal 0x06000000#32 := ⟨by decide, .inl (.inl (by decide))⟩

/-- Each way to be illegal, at its least value, and a legal word. -/
theorem witness_illegal_words :
    illegal 0x33000000#32 ∧ illegal 0x00010000#32 ∧ illegal 0x01000001#32 ∧ illegal 0x05000002#32 ∧
      illegal 0x0F000020#32 ∧ illegal 0x20000008#32 ∧ ¬ illegal 0x32FF0000#32 := by
  refine ⟨.inl ?_, .inr (.inl ?_), .inr (.inr (.inl ?_)), .inr (.inr (.inr (.inl ?_))),
    .inr (.inr (.inr (.inr (.inl ?_)))), .inr (.inr (.inr (.inr (.inr ?_)))), ?_⟩
  · unfold reserved; decide
  all_goals first | decide | (unfold illegal reserved; decide)

theorem witness_decode_of_encode :
    (Instr.wrp 255 0xFFFFFFFF#32).wellFormed = true ∧ (Instr.step 65535).wellFormed = true := by decide

theorem witness_encode_of_decode :
    decode 0x30000005#32 1#32 = .ok (.wrin 5 1#32) ∧ op 0x30000005#32 ∈ [0x01, 0x08, 0x09, 0x0B, 0x21, 0x30] ∧
      decode 0x31000005#32 1#32 = .ok (.rdout 5) ∧ op 0x31000005#32 ∉ [0x01, 0x08, 0x09, 0x0B, 0x21, 0x30] := by
  decide

theorem witness_idle_step : State.reset.pending = [] := by decide

theorem witness_reset_values : (0x20, 0x45960000#32) ∈ resetValues ∧ ¬ rateRefused 0x00000001#32 := by
  refine ⟨by decide, ?_⟩
  unfold rateRefused; decide

theorem witness_reset_input :
    ({ State.reset with pending := [.hardwareReset] } : State).pending = .hardwareReset :: [] := by decide

/-- A legal state that is not the reset state: BS at its upper bound, FREQ at its lower, a known period. -/
def legalState : State :=
  { State.reset with
    bs := 1024
    par := { ParamRegs.atReset with freq := 0xC2F00000#32, slope := 0x80000000#32 }
    ext := { ExtRegs.cleared with period := 0x4B800000#32, hasp := true, count := 16777216, qcount := 15 }
    fEff := 0x33800000#32
    ibuf := [(0, 1#8), (8191, 2#8)] }

theorem witness_legal : legalState.Legal where
  params := by decide +kernel
  par := ⟨by decide, by decide, by decide, by decide, by decide, by decide⟩
  sr := by decide
  bs := by decide
  tr := by decide
  gen := ⟨by decide, by decide⟩
  fEff := by decide
  ext := ⟨by decide, by decide, fun _ => by decide, by decide, by decide⟩
  xRecs := by decide
  ibufWf := by decide
  ibufBelow := by decide
  obufWf := by decide
  obufBelow := by decide

theorem witness_step_keeps_legal : legalState.Legal ∧ step legalState = .next legalState :=
  ⟨witness_legal, rfl⟩

theorem witness_status_and_response : op 0x08000000#32 = 0x08 ∧ op 0x0F000000#32 = 0x0F ∧
    op 0x10000000#32 ≠ 0x08 ∧ op 0x10000000#32 ≠ 0x0F := by decide

theorem witness_error_causes :
    State.reset.status = 0#5 ∧ exec (.wrp 0 0#32) State.reset = .next (raised .badIndex State.reset) ∧
      exec (.rdreg 0x17) State.reset = .next (raised .badIndex State.reset) ∧
      exec (.bsize 1025) State.reset = .next (raised .badArg State.reset) ∧
      exec (.step 1024) State.reset = .next (raised .badAddr State.reset) ∧
      exec (.render 63) State.reset = .next (raised .blockMismatch State.reset) := ⟨rfl, rfl, rfl, rfl, rfl, rfl⟩

theorem witness_register_writers : ∃ t, exec (.setom 2) State.reset = .next t ∧ t.omode ≠ State.reset.omode :=
  ⟨_, rfl, by decide⟩

theorem witness_buffer_writers : ∃ t, exec .nop State.reset = .next t ∧ Instr.nop.opcode ≠ .wrin ∧
    Instr.nop.opcode ∉ [Opcode.step, .render] := ⟨_, rfl, by decide, by decide⟩

/-- Words of each opcode that run, and words of each that do not. -/
theorem witness_words_lifecycle :
    (op 0x00000000#32 = 0x00 ∧ sel 0x00000000#32 = 0 ∧ imm 0x00000000#32 = 0 ∧ imm 0x00000001#32 = 1) ∧
    (op 0x08000000#32 = 0x08 ∧ sel 0x08010000#32 = 1) ∧ (op 0x09000000#32 = 0x09 ∧ imm 0x0900FFFF#32 = 65535) ∧
    (op 0x0A000400#32 = 0x0A ∧ imm 0x0A000400#32 = 1024) ∧ (op 0x0B000000#32 = 0x0B ∧ sel 0x0BFF0000#32 = 255) ∧
    (op 0x0C000000#32 = 0x0C ∧ imm 0x0C000001#32 = 1) ∧ (op 0x0D000000#32 = 0x0D ∧ imm 0x0D000001#32 = 1) ∧
    (op 0x0E000000#32 = 0x0E ∧ imm 0x0E000001#32 = 1) ∧ (op 0x0F00001F#32 = 0x0F ∧ imm 0x0F000020#32 = 32) := by
  decide
theorem witness_words_others :
    (op 0x01060000#32 = 0x01 ∧ sel 0x01060000#32 = 6 ∧ imm 0x01060001#32 = 1) ∧
    (op 0x02000005#32 = 0x02 ∧ sel 0x02010005#32 = 1) ∧ (op 0x03000002#32 = 0x03 ∧ sel 0x03010002#32 = 1) ∧
    (op 0x04000002#32 = 0x04 ∧ sel 0x04010002#32 = 1) ∧ (op 0x05000001#32 = 0x05 ∧ imm 0x05000002#32 = 2) ∧
    (op 0x10000000#32 = 0x10 ∧ sel 0x10010000#32 = 1) ∧ (op 0x11000040#32 = 0x11 ∧ sel 0x11010040#32 = 1) ∧
    (op 0x20000007#32 = 0x20 ∧ imm 0x20000007#32 = 7) ∧ (op 0x21000000#32 = 0x21 ∧ imm 0x21000001#32 = 1) ∧
    (op 0x30000000#32 = 0x30 ∧ sel 0x30010000#32 = 1) ∧ (op 0x31000000#32 = 0x31 ∧ sel 0x31010000#32 = 1) ∧
    (op 0x32210000#32 = 0x32 ∧ imm 0x32210001#32 = 1) := by decide

/-- The ends of WRP's range, and the numbers just outside it. -/
theorem witness_wrp : nextIs (exec (.wrp 1 0#32) State.reset) (fun t => t.status == 0#5) = true ∧
    nextIs (exec (.wrp 6 0#32) State.reset) (fun t => t.status == 0#5) = true ∧
    nextIs (exec (.wrp 7 0#32) State.reset) (fun t => t.status == 0b00010#5) = true := by decide

/-- Rates: the least positive word is accepted; a zero, an infinity and a NaN are refused. -/
theorem witness_rates : ¬ rateRefused 0x00000001#32 ∧ rateRefused 0x80000000#32 ∧ rateRefused 0x7F800000#32 ∧
    rateRefused 0x7FC00000#32 := by
  unfold rateRefused; decide

theorem witness_bsize : (1 ≤ 1 ∧ 1 ≤ 1024) ∧ (1 ≤ 1024 ∧ 1024 ≤ 1024) ∧ (0 < 1 ∨ 1024 < 0) ∧
    (1025 < 1 ∨ 1024 < 1025) := by decide

/-- Recovery times: -0.0 and +infinity are accepted; a NaN and the greatest negative word are refused. -/
theorem witness_xinit : (F32.isNaN 0x80000000#32 = false ∧ F32.lt 0x80000000#32 0x00000000#32 = false) ∧
    (F32.isNaN 0x7F800000#32 = false ∧ F32.lt 0x7F800000#32 0x00000000#32 = false) ∧
    F32.isNaN 0x7FC00000#32 = true ∧ F32.lt 0x80000001#32 0x00000000#32 = true := by decide

theorem witness_buffer_addresses : (2047 < 2048 ∧ 2048 ≤ 2048) ∧ (4095 < 4096 ∧ 4096 ≤ 4096) ∧
    (1023 < 1024 ∧ 1024 ≤ 1024) := by decide

theorem witness_rdreg : (0x00, 0#32) ∈ registers State.reset ∧ (0x21, 0xFFFFFFFF#32) ∈ registers State.reset ∧
    (0x21 < 0x22 ∧ 0x21 ≠ 0x17) ∧ (0x22 = 0x17 ∨ 0x22 ≤ 0x22) := by decide

theorem witness_step_frame : 1023 < 1024 ∧ quiet.clkConn = false ∧ clockHigh.clkConn = true := by decide

theorem witness_edge_flags : F32.isNaN 0x7FC00000#32 = true ∧ level 0x3F7FFFFF#32 = false := by decide

/-- The free path, triggered and not, in each ramp mode; at rest and running in AR. -/
theorem witness_free_path :
    (quiet.clkConn = false ∧ quiet.omode = quiet.prevOm ∧ quiet.rmode ≠ .ar) ∧
    ({ quiet with rmode := .ar }.rmode = .ar ∧ { quiet with rmode := .ar }.gen.active = false) ∧
    triggered { quiet with rmode := .ar } 0 = false ∧ triggered triggerHigh 0 = true ∧
    triggerHigh.omode = triggerHigh.prevOm ∧ triggerHigh.clkConn = false := by decide +kernel

theorem witness_channels : ∀ m ∈ [OutMode.gates, .amplitude, .slopePhase, .frequency],
    ({ legalState with omode := m } : State).omode = m := by decide

/-- A legal state in every output mode. -/
theorem witness_channels_legal (m : OutMode) : ({ legalState with omode := m } : State).Legal :=
  { witness_legal with }

theorem witness_mode_change : (0 < 1024 ∧ ({ quiet with omode := .amplitude } : State).omode ≠
      ({ quiet with omode := .amplitude } : State).prevOm) ∧ ∃ t, exec (.setom 2) quiet = .next t :=
  ⟨by decide, _, rfl⟩

/-- Extractor registers before the first edge, before the first interval and after it. -/
theorem witness_extractor :
    ExtRegs.cleared.edge = false ∧
    ({ ExtRegs.cleared with edge := true } : ExtRegs).hasp = false ∧
    ({ ExtRegs.cleared with edge := true, hasp := true, qcount := 15 } : ExtRegs).hasp = true ∧
    (true && !false) = true ∧ 16 ≤ 15 + 1 ∧ 14 + 1 < 16 := by decide

/-- The advance: period known or not, one-shot or not, running or not. -/
theorem witness_extractor_advances :
    (xstep 0x3F800000#32 1 false false .low 0#32 ExtRegs.cleared).2.hasp = false ∧
    (xstep 0x3F800000#32 1 false true .low 0#32
      { ExtRegs.cleared with edge := true, hasp := true, period := 0x41000000#32 }).2.hasp = true ∧
    (xstep 0x3F800000#32 1 false true .rising 0#32
      { ExtRegs.cleared with edge := true, hasp := true, period := 0x41000000#32, count := 7 }).2.active = true := by
  decide +kernel

theorem witness_extractor_safety : legalState.ext.Legal ∧ F32.within 0x00000000#32 0x4AEA6000#32 0x4AEA6000#32 = true :=
  ⟨witness_legal.ext, by decide⟩

/-- The least and the greatest interval, and both kinds of later edge: the first interval, and one more. -/
theorem witness_constant_clock :
    (1 ≤ 16777216 ∧ 16777216 ≤ 16777216) ∧ F32.within 0x00000000#32 0x4AEA6000#32 0x4AEA6000#32 = true ∧
    ({ ExtRegs.cleared with edge := true, count := 16777216 } : ExtRegs).hasp = false ∧
    min (16777216 + 1) 16777216 = 16777216 ∧
    ({ ExtRegs.cleared with edge := true, hasp := true, period := 0x3F800000#32 } : ExtRegs).period = F32.int2f 1 ∧
    min (ExtRegs.cleared.count + 1) 16777216 = 1 := by decide +kernel

theorem witness_render : quiet.bs ≤ 1024 ∧ 63 ≠ quiet.bs ∧ 4 * quiet.bs ≤ 256 := by decide

theorem witness_ar_rest :
    ({ quiet with rmode := .ar } : State).clkConn = false ∧ ({ quiet with rmode := .ar } : State).omode = .gates ∧
    ({ quiet with rmode := .ar } : State).prevOm = .gates ∧ ({ quiet with rmode := .ar } : State).rmode = .ar ∧
    ({ quiet with rmode := .ar } : State).gen.active = false ∧ triggered { quiet with rmode := .ar } 0 = false := by
  decide +kernel

/-- From index 4 the input 5/19 gives 5 and 3/19 gives 3. -/
theorem witness_hysteresis : 4 < (quantIndex (some 4) 0x3E86BCA2#32).val ∧
    (quantIndex (some 4) 0x3E21AF28#32).val < 4 := by decide +kernel

/-- Arguments at both ends of [-10, 10], and an ordered pair beyond it. -/
theorem witness_exp2 : F32.within 0xC1200000#32 0x41200000#32 0xC1200000#32 = true ∧
    F32.val 0xC1200000#32 = -10 * 2 ^ 149 ∧ F32.val 0x41200000#32 = 10 * 2 ^ 149 ∧
    F32.within 0xC1200000#32 0x41200000#32 0x41200000#32 = true ∧ F32.le 0xC1200000#32 0x7F800000#32 = true := by
  decide +kernel

/-- A function with R16's properties: the reference one. -/
theorem witness_every_exp_two : IsExpTwo F32.exp2Reference where
  monotone _ _ h := F32.exp2Reference_mono h
  exact _ _ h1 h2 h := F32.exp2Reference_int h1 h2 h
  positive _ h :=
    have r := F32.exp2_ranges .reference h
    ⟨r.1, (F32.lt_iff _ _).mpr ⟨by decide, F32.isNaN_of_finite r.1, r.2⟩⟩

theorem witness_transfer_curve : F32.within 0x00000000#32 0x3F800000#32 0x80000000#32 = true ∧
    F32.within 0x00000000#32 0x3F800000#32 0x3F800000#32 = true := by decide

/-- The per-instruction statement's hypothesis. -/
theorem witness_table_layout : (Instr.rdreg 255).wellFormed = true := by decide

end Sys2Proof.Tests
end

/-! PROOFS. The statements of spec/00_scope.md R16 about EXP2. Each is settled through two facts of the search: from
one argument to a greater one its bounds are the same or follow each other, and a function with R16's properties lies
within the bounds at every key the search meets. -/

namespace Sys2Proof.Machine.F32

/-! Words with one value, and words of given values. -/

/-- Only the two zeros are distinct words of one value. -/
theorem eq_of_val_eq {a b : Word} (h : val a = val b) (h0 : val b ≠ 0) : a = b := by
  have hm : magVal (mag a) = magVal (mag b) := by unfold val at h; split at h <;> split at h <;> omega
  have hs : sign a = sign b := by
    by_contra hne
    unfold val at h h0
    rw [hm, Bool.eq_not.mpr hne] at h
    cases hb : sign b <;> rw [hb] at h h0 <;> simp only [Bool.not_true, Bool.not_false, Bool.false_eq_true, if_true,
      if_false] at h h0 <;> omega
  exact ext_sign_mag hs (magVal_strictMono.injective hm)

/-- Each integer of [-10, 10] is the value of a word. -/
theorem exists_val_eq_integer {n : Int} (h1 : -10 ≤ n) (h2 : n ≤ 10) : ∃ w : Word, val w = n * 2 ^ 149 := by
  rcases Int.le_total 0 n with h | h
  · refine ⟨int2f n.toNat, ?_⟩
    rw [(val_int2f (by omega)).2, Int.toNat_of_nonneg h]
  · refine ⟨neg (int2f (-n).toNat), ?_⟩
    rw [val_neg, (val_int2f (by omega)).2, Int.toNat_of_nonneg (by omega), Int.neg_mul, Int.neg_neg]

/-- A number lies between the infinities. -/
theorem val_between_infinities {x : Word} (hx : isNaN x = false) :
    val (pack true infMag) ≤ val x ∧ val x ≤ val (pack false infMag) := by
  have hm := magVal_le_iff.mpr (mag_le_of_not_nan hx)
  rw [val_neg_sign (sign_pack _ _), val_pos_sign (sign_pack _ _), mag_pack, mag_pack, Nat.min_self]
  unfold val
  split <;> omega

theorem floor_of_integer {x : Word} {n : Int} (h : val x = n * 2 ^ 149) : floor x = n := by
  unfold floor; rw [h]; exact Int.mul_ediv_cancel _ (by norm_num)

theorem ceil_of_integer {x : Word} {n : Int} (h : val x = n * 2 ^ 149) : ceil x = n := by
  unfold ceil; rw [h, ← Int.neg_mul, Int.mul_ediv_cancel _ (by norm_num), Int.neg_neg]

theorem floor_mul_le_val (x : Word) : floor x * 2 ^ 149 ≤ val x := Int.ediv_mul_le _ (by norm_num)

theorem val_le_ceil_mul (x : Word) : val x ≤ ceil x * 2 ^ 149 := by
  have h : -(val x) / 2 ^ 149 * 2 ^ 149 ≤ -(val x) := Int.ediv_mul_le _ (by norm_num)
  unfold ceil
  omega

theorem ceil_le_floor_add_one (x : Word) : ceil x ≤ floor x + 1 := by
  unfold floor ceil
  omega

/-- Two words with no integer between them lie between the same integers. -/
theorem floor_ceil_eq_of_lt {x y : Word} (h : val x ≤ val y) (hlt : floor y < ceil x) :
    floor x = floor y ∧ ceil x = ceil y := by
  have hfl : floor x ≤ floor y := floor_mono h
  have hce : ceil x ≤ ceil y := neg_le_neg (Int.ediv_le_ediv (by norm_num) (neg_le_neg h))
  have hx := ceil_le_floor_add_one x
  have hy := ceil_le_floor_add_one y
  omega

/-! Sanitizing keeps a bound that the word and the bound beside it have (R15). -/

theorem val_le_sanitize {x y lo hi dflt : Word} (hy : isNaN y = false) (h : val x ≤ val y) (hhi : val x ≤ val hi) :
    val x ≤ val (sanitize y lo hi dflt) := by
  simp only [sanitize, hy, Bool.false_eq_true, if_false, clamp]
  split
  · next hlt => exact h.trans ((lt_iff _ _).mp hlt).2.2.le
  · split
    · exact hhi
    · exact h

theorem sanitize_le_val {x y lo hi dflt : Word} (hy : isNaN y = false) (h : val y ≤ val x) (hlo : val lo ≤ val x) :
    val (sanitize y lo hi dflt) ≤ val x := by
  simp only [sanitize, hy, Bool.false_eq_true, if_false, clamp]
  split
  · exact hlo
  · split
    · next hlt => exact ((lt_iff _ _).mp hlt).2.2.le.trans h
    · exact h

/-! The word of an order key. -/

theorem isNaN_ofKey (k : Int) : isNaN (ofKey k) = false := isNaN_pack _ _

theorem key_ofKey (k : Int) : key (ofKey k) = if k < 0 then -(min k.natAbs infMag : Int) else min k.natAbs infMag := by
  simp [key, ofKey]

/-- A number's key is at most an infinity's. -/
theorem key_range {x : Word} (hx : isNaN x = false) : -(infMag : Int) ≤ key x ∧ key x ≤ infMag := by
  have h := mag_le_of_not_nan hx
  unfold key
  split <;> omega

theorem val_le_ofKey {x : Word} (hx : isNaN x = false) {k : Int} (h : key x ≤ k) : val x ≤ val (ofKey k) := by
  have hr := key_range hx
  rw [← key_le_iff, key_ofKey]
  split <;> omega

theorem ofKey_le_val {x : Word} (hx : isNaN x = false) {k : Int} (h : k ≤ key x) : val (ofKey k) ≤ val x := by
  have hr := key_range hx
  rw [← key_le_iff, key_ofKey]
  split <;> omega

theorem val_ofKey_key {x : Word} (hx : isNaN x = false) : val (ofKey (key x)) = val x :=
  le_antisymm (ofKey_le_val hx le_rfl) (val_le_ofKey hx le_rfl)

/-! EXP2 has R16's properties. -/

/-- From one argument to a greater one, either the bounds of the search stay the same or they follow each other. -/
theorem exp2_bounds_step {x y : Word} (hx : isNaN x = false) (hy : isNaN y = false) (h : val x ≤ val y) :
    (exp2Low x = exp2Low y ∧ exp2High x = exp2High y) ∨ val (exp2High x) ≤ val (exp2Low y) := by
  rcases exp2_bounds x hx with ⟨xb, xl, xh⟩ | ⟨xa, xl, xh⟩ | ⟨x1, x2, xl, xh⟩ <;>
    rcases exp2_bounds y hy with ⟨yb, yl, yh⟩ | ⟨ya, yl, yh⟩ | ⟨y1, y2, yl, yh⟩ <;>
    rw [xl, xh, yl, yh]
  case inl.inl => exact .inl ⟨rfl, rfl⟩
  case inl.inr.inl => exact .inr (pow2_mono (by norm_num) (by norm_num) (by norm_num))
  case inl.inr.inr =>
    obtain ⟨yf, yfc, yc⟩ := floor_ceil_range y1 y2
    exact .inr (pow2_mono (by norm_num) yf (by omega))
  -- x above 10 and y at most 10, or x at least -10 and y below it
  case inr.inl.inl | inr.inl.inr.inr | inr.inr.inl => omega
  case inr.inl.inr.inl => exact .inl ⟨rfl, rfl⟩
  case inr.inr.inr.inl =>
    obtain ⟨xf, xfc, xc⟩ := floor_ceil_range x1 x2
    exact .inr (pow2_mono (by omega) xc (by norm_num))
  case inr.inr.inr.inr =>
    obtain ⟨xf, xfc, xc⟩ := floor_ceil_range x1 x2
    obtain ⟨yf, yfc, yc⟩ := floor_ceil_range y1 y2
    rcases le_or_gt (ceil x) (floor y) with hle | hgt
    · exact .inr (pow2_mono (by omega) hle (by omega))
    · obtain ⟨hf, hc⟩ := floor_ceil_eq_of_lt h hgt
      exact .inl ⟨by rw [hf], by rw [hc]⟩

/-- EXP2 is monotone non-decreasing (R16). -/
theorem exp2_mono (c : Exp2Choice) {x y : Word} (h : le x y = true) : le (exp2 c x) (exp2 c y) = true := by
  cases c with
  | reference => exact exp2Reference_mono h
  | free id =>
    obtain ⟨hx, hy, hv⟩ := (le_iff _ _).mp h
    obtain ⟨-, -, nx, -, xu⟩ := (within_iff _ _ _).mp (within_settledExp2 (Config.exp2Raw id) hx)
    obtain ⟨-, -, ny, yl, -⟩ := (within_iff _ _ _).mp (within_settledExp2 (Config.exp2Raw id) hy)
    refine (le_iff _ _).mpr ⟨nx, ny, ?_⟩
    rcases exp2_bounds_step hx hy hv with ⟨hl, hh⟩ | hstep
    · obtain ⟨n1, n2, hb⟩ := exp2Low_le_exp2High hy
      simp only [exp2, settledExp2, hx, hy, hl, hh, Bool.false_eq_true, if_false]
      exact descend_mono _ ((key_le_iff _ _).mpr hv) _ n1 n2 hb
    · exact xu.trans (hstep.trans yl)

/-- EXP2 is exact at the integers in [-10, 10] (R16). -/
theorem exp2_integer (c : Exp2Choice) {x : Word} {n : Int} (h1 : -10 ≤ n) (h2 : n ≤ 10) (h : val x = n * 2 ^ 149) :
    exp2 c x = pow2 n := by
  cases c with
  | reference => exact exp2Reference_int h1 h2 h
  | free id =>
    have hx := isNaN_of_integer h1 h2 h
    obtain ⟨-, -, -, l, u⟩ := (within_iff _ _ _).mp (within_settledExp2 (Config.exp2Raw id) hx)
    rcases exp2_bounds x hx with ⟨hb, -⟩ | ⟨ha, -⟩ | ⟨-, -, hl, hh⟩
    · omega
    · omega
    · rw [hl, floor_of_integer h] at l
      rw [hh, ceil_of_integer h] at u
      exact eq_of_val_eq (le_antisymm u l) (pow2_ranges h1 h2).2.ne'

/-- On [-10, 10], EXP2 is finite and above zero (R16). -/
theorem exp2_positive (c : Exp2Choice) {x : Word} (h : within 0xC1200000#32 0x41200000#32 x = true) :
    isFinite (exp2 c x) = true ∧ lt 0x00000000#32 (exp2 c x) = true := by
  obtain ⟨hfin, hpos⟩ := exp2_ranges c h
  exact ⟨hfin, (lt_iff _ _).mpr ⟨by decide, isNaN_of_finite hfin, hpos⟩⟩

end Sys2Proof.Machine.F32

/-! The search keeps a function that has R16's properties. -/

namespace Sys2Proof.Statements.IsExpTwo

open Sys2Proof.Machine Sys2Proof.Machine.F32

section
variable {f : Word → Word} (hf : IsExpTwo f) {x y : Word}
include hf

theorem isNaN_apply (hx : isNaN x = false) : isNaN (f x) = false :=
  ((le_iff _ _).mp (hf.monotone x x ((le_iff _ _).mpr ⟨hx, hx, le_rfl⟩))).1

theorem val_mono (hx : isNaN x = false) (hy : isNaN y = false) (h : val x ≤ val y) : val (f x) ≤ val (f y) :=
  ((le_iff _ _).mp (hf.monotone x y ((le_iff _ _).mpr ⟨hx, hy, h⟩))).2.2

theorem val_le_pow2 {n : Int} (hx : isNaN x = false) (h1 : -10 ≤ n) (h2 : n ≤ 10) (h : val x ≤ n * 2 ^ 149) :
    val (f x) ≤ val (pow2 n) := by
  obtain ⟨w, hw⟩ := exists_val_eq_integer h1 h2
  have hm := hf.val_mono hx (isNaN_of_integer h1 h2 hw) (hw ▸ h)
  rwa [hf.exact w n h1 h2 hw] at hm

theorem pow2_le_val {n : Int} (hx : isNaN x = false) (h1 : -10 ≤ n) (h2 : n ≤ 10) (h : n * 2 ^ 149 ≤ val x) :
    val (pow2 n) ≤ val (f x) := by
  obtain ⟨w, hw⟩ := exists_val_eq_integer h1 h2
  have hm := hf.val_mono (isNaN_of_integer h1 h2 hw) hx (hw ▸ h)
  rwa [hf.exact w n h1 h2 hw] at hm

/-- The function lies within the bounds from which the search starts. -/
theorem within_bounds (hx : isNaN x = false) : within (exp2Low x) (exp2High x) (f x) = true := by
  have hn := hf.isNaN_apply hx
  obtain ⟨nl, nh, -⟩ := exp2Low_le_exp2High hx
  refine (within_iff _ _ _).mpr ⟨nl, nh, hn, ?_⟩
  rcases exp2_bounds x hx with ⟨hb, hl, hh⟩ | ⟨ha, hl, hh⟩ | ⟨h1, h2, hl, hh⟩ <;> rw [hl, hh]
  · exact ⟨(val_between_infinities hn).1, hf.val_le_pow2 hx (by norm_num) (by norm_num) hb.le⟩
  · exact ⟨hf.pow2_le_val hx (by norm_num) (by norm_num) ha.le, (val_between_infinities hn).2⟩
  · obtain ⟨hfl, hfc, hc⟩ := floor_ceil_range h1 h2
    exact ⟨hf.pow2_le_val hx hfl (by omega) (floor_mul_le_val x),
      hf.val_le_pow2 hx (by omega) hc (val_le_ceil_mul x)⟩

/-- The function takes one value at an argument and at the word of the argument's key, which differ for -0 only. -/
theorem apply_ofKey_key (hx : isNaN x = false) : f (ofKey (key x)) = f x := by
  have hv := val_ofKey_key hx
  by_cases h0 : val x = 0
  · rw [hf.exact x 0 (by norm_num) (by norm_num) (by simpa using h0),
      hf.exact (ofKey (key x)) 0 (by norm_num) (by norm_num) (by simpa [hv] using h0)]
  · rw [eq_of_val_eq hv h0]

/-- The search for the key of `x`, from a key near enough and with bounds that hold at `x`, finds `f x`. -/
theorem descend_eq (hx : isNaN x = false) (depth : Nat) :
    ∀ {m : Int} {lo hi : Word}, m - 2 ^ depth < key x → key x < m + 2 ^ depth → within lo hi (f x) = true →
      descend f (key x) depth m lo hi = f x := by
  have found : ∀ {lo hi : Word}, within lo hi (f x) = true → sanitize (f (ofKey (key x))) lo hi lo = f x :=
    fun h => by
      rw [hf.apply_ofKey_key hx, sanitize, hf.isNaN_apply hx]
      exact clamp_of_within h
  induction depth with
  | zero =>
    intro m lo hi h1 h2 hw
    obtain rfl : m = key x := by omega
    exact found hw
  | succ depth ih =>
    intro m lo hi h1 h2 hw
    obtain ⟨nl, nh, nx, l, u⟩ := (within_iff _ _ _).mp hw
    have nm := hf.isNaN_apply (isNaN_ofKey m)
    have nv := ((within_iff _ _ _).mp (within_sanitize (f (ofKey m)) nl nh (l.trans u)
      ((within_iff _ _ _).mpr ⟨nl, nh, nl, le_rfl, l.trans u⟩))).2.2.1
    rw [pow_succ] at h1 h2
    unfold descend
    dsimp only
    split
    · next e => subst e; exact found hw
    · next hne =>
      split
      · next hlt =>
        have hv := val_le_sanitize (lo := lo) (dflt := lo) nm
          (hf.val_mono hx (isNaN_ofKey m) (val_le_ofKey hx hlt.le)) u
        exact ih (by omega) (by omega) ((within_iff _ _ _).mpr ⟨nl, nv, nx, l, hv⟩)
      · next hge =>
        have hv := sanitize_le_val (hi := hi) (dflt := lo) nm
          (hf.val_mono (isNaN_ofKey m) hx (ofKey_le_val hx (not_lt.mp hge))) l
        exact ih (by omega) (by omega) ((within_iff _ _ _).mpr ⟨nv, nh, nx, hv, u⟩)

theorem settledExp2_eq (x : Word) : settledExp2 f x = f x := by
  unfold settledExp2
  split
  · rfl
  · next h =>
    have hx : isNaN x = false := by simpa using h
    obtain ⟨h1, h2⟩ := key_range hx
    have hi : (infMag : Int) < 2 ^ 31 := by decide
    exact hf.descend_eq hx 31 (by omega) (by omega) (hf.within_bounds hx)

end

end Sys2Proof.Statements.IsExpTwo

namespace Sys2Proof.Statements

open Sys2Proof.Machine Sys2Proof.Machine.F32

/-- Settles O54, from the three properties of `F32.exp2`, each for the reference and for a free choice. -/
theorem expTwoProperties : Obligations.ExpTwoProperties := by
  unfold Obligations.ExpTwoProperties
  intro c
  exact {
    monotone := fun _ _ h => exp2_mono c h
    exact := fun _ _ h1 h2 h => exp2_integer c h1 h2 h
    positive := fun _ h => exp2_positive c h }

/-- Settles O55: the search finds `f x` at every key, by induction on its depth. -/
theorem everyExpTwoAllowed : Obligations.EveryExpTwoAllowed := by
  unfold Obligations.EveryExpTwoAllowed
  exact fun _ hf x => hf.settledExp2_eq x

end Sys2Proof.Statements

/-! PROOFS. The statements of spec/10_state.md about the registers: the legal values of R24 and R25, and the commands
that write each register. `Accepted` says once what a command does that raises nothing, and a claim about steps is a case
split over it. -/

namespace Sys2Proof.Machine

/-! What a command does (spec/30_encoding.md R85). -/

/-- `Accepted i s u`: the command `i` raises nothing from `s`, and `u` is the state it leaves before it answers. -/
inductive Accepted : Instr → State → State → Prop
  | nop {s : State} : Accepted .nop s s
  | wrp {s : State} {reg : Nat} {r : ParamReg} {w : Word} (h : ParamReg.ofSel reg = some r) :
      Accepted (.wrp reg w) s { s with par := s.par.write r w }
  | setom {s : State} {mode : Nat} : Accepted (.setom mode) s { s with omode := OutMode.ofImm mode }
  | setrm {s : State} {mode : Nat} : Accepted (.setrm mode) s { s with rmode := RampMode.ofImm mode }
  | setrg {s : State} {range : Nat} : Accepted (.setrg range) s { s with range := FreqRange.ofImm range }
  | clkc {s : State} {c : Bool} :
      Accepted (.clkc c) s { s with clkConn := c, mustReset := s.mustReset || (!s.clkConn && c) }
  | init {s : State} {w : Word} (h : badRate w = false) :
      Accepted (.init w) s { s.hardwareReset with
        sr := clampRate w
        xRecs := recoverySamples Config.trDefault (clampRate w) }
  | srate {s : State} {w : Word} (h : badRate w = false) :
      Accepted (.srate w) s
        { s with sr := clampRate w, xRecs := recoverySamples s.tr (clampRate w), mustReset := true }
  | bsize {s : State} {size : Nat} (h1 : 1 ≤ size) (h2 : size ≤ Config.blockMax) :
      Accepted (.bsize size) s { s with bs := size, mustReset := true }
  | xinit {s : State} {w : Word} (hn : F32.isNaN w = false) (h0 : F32.lt w Config.f0 = false) :
      Accepted (.xinit w) s (State.xreset { s with
        tr := F32.clamp w Config.f0 Config.trMax
        xRecs := recoverySamples (F32.clamp w Config.f0 Config.trMax) s.sr })
  | grst {s : State} : Accepted .grst s s.grst
  | xrst {s : State} : Accepted .xrst s s.xreset
  | qrst {s : State} : Accepted .qrst s { s with qState := none }
  | clrst {s : State} {mask : BitVec 5} : Accepted (.clrst mask) s { s with status := s.status &&& ~~~mask }
  | step {s : State} {n : Nat} (h : n < Config.blockMax) : Accepted (.step n) s (s.frame n)
  | render {s : State} {size : Nat} (h : size = s.bs) : Accepted (.render size) s (s.frames s.bs 0)
  | gedet {s : State} {prev : GateFlag} {cur : Bool} : Accepted (.gedet prev cur) s s
  | quant {s : State} {w : Word} : Accepted (.quant w) s { s with qState := some (quantIndex s.qState w) }
  | wrin {s : State} {a : Nat} {w : Word} (h : a < Config.ibufWords) : Accepted (.wrin a w) s (s.writeIbuf a w)
  | rdout {s : State} {a : Nat} (h : a < Config.obufWords) : Accepted (.rdout a) s s
  | rdreg {s : State} {reg : Nat} {r : Reg} (h : Reg.ofSel reg = some r) : Accepted (.rdreg reg) s s

/-- `Answered i s t`: the command `i` takes `s` to `t`, by raising an error or by answering. -/
inductive Answered (i : Instr) (s : State) : State → Prop
  | raised (e : ErrorKind) : Answered i s (s.raise e)
  | accepted {u : State} (rdata : Word) (h : Accepted i s u) : Answered i s (u.respond rdata)

/-- A command that raises under a condition, and is accepted otherwise. -/
theorem answered_of_ite {i : Instr} {s u : State} {c : Prop} [Decidable c] {e : ErrorKind} {rdata : Word}
    (h : ¬ c → Accepted i s u) :
    ∃ t, (if c then .next (s.raise e) else .next (u.respond rdata) : Host.Outcome State Fault Refusal) = .next t ∧
      Answered i s t := by
  split
  · exact ⟨_, rfl, .raised e⟩
  · next hc => exact ⟨_, rfl, .accepted rdata (h hc)⟩

theorem exec_answered (i : Instr) (s : State) : ∃ t, exec i s = .next t ∧ Answered i s t := by
  cases i with
  | nop => exact ⟨_, rfl, .accepted _ .nop⟩
  | wrp reg w =>
    cases h : ParamReg.ofSel reg with
    | none => exact ⟨_, by simp only [exec, execWrp, h], .raised .badIndex⟩
    | some r => exact ⟨_, by simp only [exec, execWrp, h], .accepted 0#32 (.wrp h)⟩
  | setom mode => exact ⟨_, rfl, .accepted _ .setom⟩
  | setrm mode => exact ⟨_, rfl, .accepted _ .setrm⟩
  | setrg range => exact ⟨_, rfl, .accepted _ .setrg⟩
  | clkc c => exact ⟨_, rfl, .accepted _ .clkc⟩
  | init w => exact answered_of_ite fun h => .init (by simpa using h)
  | srate w => exact answered_of_ite fun h => .srate (by simpa using h)
  | bsize size => exact answered_of_ite fun h => .bsize (by omega) (by omega)
  | xinit w =>
    refine answered_of_ite fun h => ?_
    obtain ⟨hn, h0⟩ := by simpa using h
    exact .xinit hn h0
  | grst => exact ⟨_, rfl, .accepted _ .grst⟩
  | xrst => exact ⟨_, rfl, .accepted _ .xrst⟩
  | qrst => exact ⟨_, rfl, .accepted _ .qrst⟩
  | clrst mask => exact ⟨_, rfl, .accepted _ .clrst⟩
  | step n => exact answered_of_ite fun h => .step (Nat.not_le.mp h)
  | render size => exact answered_of_ite fun h => .render (not_not.mp h)
  | gedet prev cur => exact ⟨_, rfl, .accepted _ .gedet⟩
  | quant w => exact ⟨_, rfl, .accepted _ .quant⟩
  | wrin a w => exact answered_of_ite fun h => .wrin (Nat.not_le.mp h)
  | rdout a => exact answered_of_ite fun h => .rdout (Nat.not_le.mp h)
  | rdreg reg =>
    cases h : Reg.ofSel reg with
    | none => exact ⟨_, by simp only [exec, execRdreg, h], .raised .badIndex⟩
    | some r => exact ⟨_, by simp only [exec, execRdreg, h], .accepted (s.readReg r) (.rdreg h)⟩

theorem answered_of_exec {i : Instr} {s t : State} (h : exec i s = .next t) : Answered i s t := by
  obtain ⟨t', he, ha⟩ := exec_answered i s
  rw [h] at he
  cases he
  exact ha

/-- What the port, a raise, an answer, the reset input and every accepted command keep, a step keeps. -/
theorem step_keeps {P : State → Prop} (pending : ∀ s l, P s → P { s with pending := l })
    (raise : ∀ s e, P s → P (State.raise s e)) (respond : ∀ s w, P s → P (State.respond s w))
    (reset : ∀ s, P s → P s.hardwareReset) (accepted : ∀ i s u, P s → Accepted i s u → P u)
    {s t : State} (hs : P s) (h : step s = .next t) : P t := by
  match hp : s.pending with
  | [] =>
    rw [step_idle hp] at h
    cases h
    exact hs
  | .hardwareReset :: rest =>
    rw [step_hardwareReset hp] at h
    cases h
    exact reset _ (pending s rest hs)
  | .command cmd w :: rest =>
    rw [step_command hp] at h
    have hr := pending s rest hs
    cases hd : decode cmd w with
    | error e =>
      rw [runCommand_error hd] at h
      cases h
      exact raise _ _ hr
    | ok i =>
      rw [runCommand_ok hd] at h
      cases answered_of_exec h with
      | raised e => exact raise _ e hr
      | accepted rdata ha => exact respond _ rdata (accepted _ _ _ hr ha)

/-! Legal values (spec/10_state.md R24, R25). -/

open F32

/-- A rate that INIT and SRATE take is stored within [SR_MIN, SR_MAX] (R231, R237). -/
theorem within_clampRate {w : Word} (h : badRate w = false) :
    within Config.srMin Config.srMax (clampRate w) = true := by
  simp only [badRate, Bool.or_eq_false_iff] at h
  obtain ⟨⟨hn, -⟩, -⟩ := h
  exact within_clamp hn (by decide) (by decide) (by decide)

theorem Accepted.legal {i : Instr} {s u : State} (hs : s.Legal) (h : Accepted i s u) : u.Legal := by
  cases h with
  | nop | gedet | rdout | rdreg => exact hs
  | setom | setrm | setrg | clkc | qrst | clrst | quant => exact { hs with }
  | wrp => exact { hs with par := write_legal hs.par _ _ }
  | init hw =>
    have hsr := within_clampRate hw
    exact { State.hardwareReset_legal hs with sr := hsr, xRecs := within_recoverySamples (by decide) hsr }
  | srate hw =>
    have hsr := within_clampRate hw
    exact { hs with sr := hsr, xRecs := within_recoverySamples hs.tr hsr }
  | bsize h1 h2 => exact { hs with bs := ⟨h1, h2⟩ }
  | xinit hn =>
    have htr := within_clamp hn (lo := Config.f0) (hi := Config.trMax) (by decide) (by decide) (by decide)
    exact State.xreset_legal { hs with tr := htr, xRecs := within_recoverySamples htr hs.sr }
  | grst => exact State.grst_legal hs
  | xrst => exact State.xreset_legal hs
  | step hn => exact (State.frame_legal hs hn).1
  | render => exact State.frames_legal _ 0 hs (by simpa using hs.bs.2)
  | wrin ha => exact State.writeIbuf_legal hs ha _

/-! The writers of the registers (spec/10_state.md R24's last column). -/

theorem Accepted.params_eq {i : Instr} {s u : State} (h : Accepted i s u) : u.params = s.params := by
  cases h <;> simp

end Sys2Proof.Machine

namespace Sys2Proof.Statements

open Sys2Proof.Machine

/-- Settles O11: each command that is accepted keeps the registers legal, by the laws of its parts. -/
theorem stepKeepsLegal : Obligations.StepKeepsLegal := by
  unfold Obligations.StepKeepsLegal
  exact fun s t hs h => step_keeps (P := State.Legal) (fun _ _ hs => { hs with }) (fun _ e hs => State.raise_legal hs e)
    (fun _ w hs => State.respond_legal hs w) (fun _ hs => State.hardwareReset_legal hs)
    (fun _ _ _ hs ha => ha.legal hs) hs h

/-- Settles O15, by the frame of each command that is accepted; a raise writes STATUS only. -/
theorem registerWriters : Obligations.RegisterWriters := by
  unfold Obligations.RegisterWriters
  refine ⟨fun i s t h => ?_, fun s t h => ?_⟩
  · cases answered_of_exec h with
    | raised e => simp
    | accepted rdata ha =>
      cases ha with
      -- none of these registers
      | nop | gedet | rdout | rdreg | clrst | wrin => simp
      -- the registers of the command's own rows
      | wrp | setom | setrm | setrg | clkc | init | srate | bsize | xinit | grst | xrst | qrst | quant =>
        simp [Instr.opcode]
      -- what a frame keeps (R190) is in the laws of State
      | step | render => simp [Instr.opcode]
  · exact step_keeps (P := fun u => u.params = s.params) (fun _ _ hu => hu) (fun _ _ hu => hu) (fun _ _ hu => hu)
      (fun _ hu => hu) (fun _ _ _ hu ha => ha.params_eq.trans hu) rfl h

/-- Settles O10: each reset value of R290 is within its register's range. -/
theorem resetIsLegal : Obligations.ResetIsLegal := by
  unfold Obligations.ResetIsLegal
  exact {
    params := by decide
    par := ParamRegs.atReset_legal
    sr := by decide
    bs := by decide
    tr := by decide
    gen := GenRegs.cleared_legal
    fEff := by decide
    ext := ExtRegs.cleared_legal
    xRecs := by decide
    ibufWf := State.reset_legal_buffers.1
    ibufBelow := by simp [State.reset]
    obufWf := State.reset_legal_buffers.2
    obufBelow := by simp [State.reset] }

end Sys2Proof.Statements

/-! PROOFS. The statement of spec/20_memory.md about the writers of the two buffers (R63, R64, R67): a case split over
what a command that is accepted does (`Accepted`), once per buffer. -/

namespace Sys2Proof.Machine

/-- INIT keeps IBUF (R63), and a frame writes its outputs to OBUF only (R64). -/
theorem Accepted.ibuf_eq {i : Instr} {s u : State} (h : Accepted i s u) (hi : i.opcode ≠ .wrin) :
    u.ibuf = s.ibuf := by
  cases h with
  -- IBUF is no part of what these write
  | nop | wrp | setom | setrm | setrg | clkc | srate | bsize | qrst | clrst | gedet | quant | rdout | rdreg => rfl
  -- the resets clear registers only
  | init | xinit | grst | xrst => simp
  | step => exact State.frame_ibuf _ _
  | render => exact State.frames_ibuf _ _ _
  | wrin => exact absurd rfl hi

/-- INIT keeps OBUF (R63), and WRIN writes IBUF only (R67). -/
theorem Accepted.obuf_eq {i : Instr} {s u : State} (h : Accepted i s u) (hi : i.opcode ∉ [.step, .render]) :
    u.obuf = s.obuf := by
  cases h with
  -- OBUF is no part of what these write
  | nop | wrp | setom | setrm | setrg | clkc | srate | bsize | qrst | clrst | gedet | quant | rdout | rdreg => rfl
  -- the resets clear registers only
  | init | xinit | grst | xrst => simp
  | wrin => exact State.writeIbuf_obuf _ _ _
  | step | render => exact absurd (by simp [Instr.opcode]) hi

end Sys2Proof.Machine

namespace Sys2Proof.Statements

open Sys2Proof.Machine

/-- Settles O16: a raise and a response write no buffer, and an accepted command writes only the buffer it names. -/
theorem bufferWriters : Obligations.BufferWriters := by
  unfold Obligations.BufferWriters
  intro i s t h
  cases answered_of_exec h with
  | raised e => exact ⟨fun _ => State.raise_ibuf _ _, fun _ => State.raise_obuf _ _⟩
  | accepted rdata ha =>
    exact ⟨fun hi => (State.respond_ibuf _ _).trans (ha.ibuf_eq hi),
      fun hi => (State.respond_obuf _ _).trans (ha.obuf_eq hi)⟩

end Sys2Proof.Statements

/-! PROOFS. The statements of spec/30_encoding.md about the words of a command: the decoder and the encoder undo each
other (R82 to R86), and what a step does with a legal and an illegal word. An opcode builds a command from the two
operand fields and the data word, and a command gives these parts back. -/

namespace Sys2Proof

/-! A command is its opcode, its operands and its data word. -/

theorem Instr.build_operands (i : Instr) : i.opcode.build i.selOperand i.immOperand i.dataWord = i := by
  cases i with
  | clkc c => cases c <;> rfl
  | clrst mask => exact congrArg Instr.clrst ((BitVec.ofNat_toNat 5 mask).trans (BitVec.setWidth_eq mask))
  | gedet prev cur => cases prev <;> cases cur <;> rfl
  | _ => rfl

/-- A command without the operand SEL leaves it 0 (R86's first check of the fields). -/
theorem Instr.selOperand_eq_zero_or_usesSel (i : Instr) : i.selOperand = 0 ∨ i.opcode.usesSel = true := by
  cases i with
  | wrp | rdreg => exact .inr rfl
  | _ => exact .inl rfl

/-- A well-formed command sets only the bits of IMM that it uses (R86's second check of the fields). -/
theorem Instr.immOperand_lt_immBits {i : Instr} (h : i.wellFormed = true) :
    i.immOperand < 2 ^ i.opcode.immBits := by
  have h16 := Instr.immOperand_lt h
  cases i with
  | setom | setrm | setrg | bsize | step | render | wrin | rdout => exact h16
  | clkc c => exact Bool.toNat_lt c
  | clrst mask => exact mask.isLt
  | gedet prev cur => cases prev <;> cases cur <;> decide
  | _ => exact Nat.one_pos

/-! The parts of a command that an opcode builds. -/

namespace Opcode

variable {o : Opcode} {sel imm : Nat} {w : Word}

@[simp] theorem opcode_build : (o.build sel imm w).opcode = o := by cases o <;> rfl

theorem selOperand_build (h : sel = 0 ∨ o.usesSel = true) : (o.build sel imm w).selOperand = sel := by
  cases o with
  | wrp | rdreg => rfl
  | _ => exact (h.resolve_right Bool.false_ne_true).symm

theorem immOperand_build (h : imm < 2 ^ o.immBits) : (o.build sel imm w).immOperand = imm := by
  cases o with
  | setom | setrm | setrg | bsize | step | render | wrin | rdout => rfl
  | clkc =>
    change imm < 2 at h
    interval_cases imm <;> rfl
  | clrst => exact (BitVec.toNat_ofNat imm 5).trans (Nat.mod_eq_of_lt h)
  | gedet =>
    change imm < 8 at h
    interval_cases imm <;> rfl
  | _ => exact (Nat.lt_one_iff.mp h).symm

theorem wellFormed_build (hs : sel < 256) (hi : imm < 65536) : (o.build sel imm w).wellFormed = true := by
  cases o with
  | wrp | rdreg => exact decide_eq_true hs
  | setom | setrm | setrg | bsize | step | render | wrin | rdout => exact decide_eq_true hi
  | _ => rfl

/-- The six commands of R84 carry the data word. -/
theorem dataWord_build (h : o.code ∈ [0x01, 0x08, 0x09, 0x0B, 0x21, 0x30]) : (o.build sel imm w).dataWord = w := by
  cases o with
  | wrp | init | srate | xinit | quant | wrin => rfl
  | _ => exact absurd h (by decide)

/-- Every other command ignores the data word (R84). -/
theorem build_eq_build_of_ignores (h : o.code ∉ [0x01, 0x08, 0x09, 0x0B, 0x21, 0x30]) (w' : Word) :
    o.build sel imm w = o.build sel imm w' := by
  cases o with
  | wrp | init | srate | xinit | quant | wrin => exact absurd (by decide) h
  | _ => rfl

theorem code_injective : Function.Injective code := fun a b h =>
  Option.some.inj (by rw [← ofCode_code a, h, ofCode_code])

/-- Only WRP and RDREG use SEL (R82). -/
theorem code_of_usesSel (h : o.usesSel = true) : o.code = 0x01 ∨ o.code = 0x32 := by
  cases o with
  | wrp => exact .inl rfl
  | rdreg => exact .inr rfl
  | _ => exact absurd h Bool.false_ne_true

/-- The commands that R86 lists take no immediate. -/
theorem immBits_of_code (h : o.code ∈ [0x00, 0x01, 0x08, 0x09, 0x0B, 0x0C, 0x0D, 0x0E, 0x21, 0x32]) :
    o.immBits = 0 := by
  cases o with
  | nop | wrp | init | srate | xinit | grst | xrst | qrst | quant | rdreg => rfl
  | _ => exact absurd h (by decide)

end Opcode

/-! The decoder accepts the words that pass R86's checks. -/

/-- The converse of `decode_ok`. -/
theorem decode_of_checks {cmd : Word} {o : Opcode} (ho : opField cmd = o.code)
    (hs : selField cmd = 0 ∨ o.usesSel = true) (hi : immField cmd < 2 ^ o.immBits) (w : Word) :
    decode cmd w = .ok (o.build (selField cmd) (immField cmd) w) := by
  rw [decode_of_opField ho, if_neg, if_neg (Nat.not_le.mpr hi)]
  rintro ⟨h0, hu⟩
  exact Bool.false_ne_true (hu.symm.trans (hs.resolve_left h0))

end Sys2Proof

namespace Sys2Proof.Statements

open Sys2Proof.Machine

/-- The model's `raise` is the statements' (R12, R270). -/
theorem raise_eq_raised (s : State) (e : ErrorKind) : s.raise e = raised e s := by cases e <;> rfl

/-- A word that passes the decoder's checks is none of R86's and R87's illegal ones. -/
theorem not_illegal_of_decode {cmd w : Word} {i : Instr} (h : decode cmd w = .ok i) : ¬ illegal cmd := by
  obtain ⟨o, ho, hs, hi, -⟩ := decode_ok h
  have hop : op cmd = o.code := (opField_eq cmd).symm.trans ho
  rw [selField_eq] at hs
  rw [immField_eq] at hi
  rintro (hr | ⟨h0, h1, h32⟩ | ⟨h0, hm⟩ | ⟨hc, hb⟩ | ⟨hc, hb⟩ | ⟨hc, hb⟩)
  · rw [hop] at hr
    exact absurd ((ofCode_eq_none_iff o.code_lt).mpr hr) (by simp)
  · rw [hop] at h1 h32
    exact (Opcode.code_of_usesSel (hs.resolve_left h0)).elim h1 h32
  · rw [Opcode.immBits_of_code (hop ▸ hm)] at hi
    exact h0 (Nat.lt_one_iff.mp hi)
  · obtain rfl : o = .clkc := Opcode.code_injective (hop.symm.trans hc)
    exact Nat.not_lt.mpr hb hi
  · obtain rfl : o = .clrst := Opcode.code_injective (hop.symm.trans hc)
    exact Nat.not_lt.mpr hb hi
  · obtain rfl : o = .gedet := Opcode.code_injective (hop.symm.trans hc)
    exact Nat.not_lt.mpr hb hi

/-- An illegal word raises ILLEGAL and changes nothing else (R86, R87). -/
theorem runCommand_of_illegal {cmd : Word} (h : illegal cmd) (w : Word) (s : State) :
    runCommand cmd w s = .next (raised .illegal s) := by
  cases hd : decode cmd w with
  | error e => rw [runCommand_error hd, raise_eq_raised]
  | ok i => exact absurd h (not_illegal_of_decode hd)

/-- Settles O5: the fields of the encoded word are the command's opcode and operands, they pass R86's checks, and the
opcode builds the command from them. -/
theorem decodeOfEncode : Obligations.DecodeOfEncode := by
  unfold Obligations.DecodeOfEncode
  intro i h
  have hs := i.selOperand_eq_zero_or_usesSel
  have hi := Instr.immOperand_lt_immBits h
  rw [← selField_encode h] at hs
  rw [← immField_encode h] at hi
  rw [decode_of_checks (opField_encode h) hs hi, selField_encode h, immField_encode h]
  exact congrArg Except.ok i.build_operands

/-- Settles O6: the decoded command is built from the word's fields, gives them back as its opcode and operands, and
holds the data word where R84 says that it is read. -/
theorem encodeOfDecode : Obligations.EncodeOfDecode := by
  unfold Obligations.EncodeOfDecode
  intro cmd w i h
  obtain ⟨o, ho, hs, hi, rfl⟩ := decode_ok h
  have hop : op cmd = o.code := (opField_eq cmd).symm.trans ho
  rw [hop]
  refine ⟨Opcode.wellFormed_build (selField_lt cmd) (immField_lt cmd), ?_, Opcode.dataWord_build, fun hn w' => ?_⟩
  · unfold encode
    rw [Opcode.opcode_build, Opcode.selOperand_build hs, Opcode.immOperand_build hi, ← ho]
    exact commandWord_fields cmd
  · rw [decode_of_checks ho hs hi, Opcode.build_eq_build_of_ignores hn w]

/-- Settles O1: each word is evaluated. -/
theorem decodeSampleWords : Obligations.DecodeSampleWords := by
  unfold Obligations.DecodeSampleWords
  decide

/-- Settles O2: the step takes the word from the port and runs the command it decodes to. -/
theorem stepRunsDecodedCommand : Obligations.StepRunsDecodedCommand := by
  unfold Obligations.StepRunsDecodedCommand
  intro s cmd w rest i hp hd
  rw [step_command hp, runCommand_ok hd]

/-- Settles O3: the step takes the word from the port, and no illegal word decodes. -/
theorem stepRefusesIllegalWord : Obligations.StepRefusesIllegalWord := by
  unfold Obligations.StepRefusesIllegalWord
  intro s cmd w rest hp hill
  rw [step_command hp, runCommand_of_illegal hill]

end Sys2Proof.Statements

/-! PROOFS. The statements of spec/40_gate_edge_detector.md: the threshold test (R100), the edge function (R101) with
GEDET (R103), and the edge flags of a frame (R102). The words of one opcode are settled once for all opcodes. -/

namespace Sys2Proof.Machine

/-! The edge function (R101). -/

/-- A true level gives RISING after LOW and FALLING, and HIGH after the other two. -/
theorem code_edge_true (prev : GateFlag) :
    BitVec.ofNat 32 (edge prev true).code = if prev = .low ∨ prev = .falling then 3#32 else 1#32 := by
  cases prev <;> rfl

/-- A false level gives FALLING after HIGH and RISING, and LOW after the other two. -/
theorem code_edge_false (prev : GateFlag) :
    BitVec.ofNat 32 (edge prev false).code = if prev = .high ∨ prev = .rising then 2#32 else 0#32 := by
  cases prev <;> rfl

/-- Bit 0 of the new code is the level, and bit 1 says that the level changed (R22). -/
theorem code_edge (prev : GateFlag) (cur : Bool) :
    (edge prev cur).code = 2 * ((prev.code % 2 == 1) ^^ cur).toNat + cur.toNat := by
  cases prev <;> cases cur <;> rfl

/-- GEDET answers with the edge function's code (R103). -/
theorem exec_gedet_next (prev : GateFlag) (cur : Bool) (s : State) :
    exec (.gedet prev cur) s = .next (s.respond (BitVec.ofNat 32 (edge prev cur).code)) := rfl

/-! The threshold test (R100). -/

theorem isNaN_of_level {x : Word} (h : level x = true) : F32.isNaN x = false := by
  obtain ⟨-, hx, -⟩ := (F32.le_iff _ _).mp h
  exact hx

theorem level_of_isNaN {x : Word} (h : F32.isNaN x = true) : level x = false :=
  Bool.eq_false_iff.mpr fun hl => Bool.false_ne_true ((isNaN_of_level hl).symm.trans h)

end Sys2Proof.Machine

namespace Sys2Proof.Statements

open Sys2Proof.Machine

/-- The words of an opcode run the command that it builds where R86's checks of the fields hold, and raise ILLEGAL where
they do not. -/
theorem encodedAs_of_build {o : Opcode} {legal : Nat → Nat → Prop} {i : Nat → Nat → Word → Instr}
    (checks : ∀ sel imm, legal sel imm ↔ (sel = 0 ∨ o.usesSel = true) ∧ imm < 2 ^ o.immBits)
    (build : ∀ sel imm w, legal sel imm → o.build sel imm w = i sel imm w) : encodedAs o.code legal i := by
  intro cmd w s hop
  have ho : opField cmd = o.code := (opField_eq cmd).trans hop
  rw [show sel cmd = selField cmd from (selField_eq cmd).symm, show imm cmd = immField cmd from (immField_eq cmd).symm]
  refine ⟨fun hl => ?_, fun hl => ?_⟩
  · obtain ⟨hs, hi⟩ := (checks _ _).mp hl
    rw [runCommand_ok (decode_of_checks ho hs hi w), build _ _ w hl]
  · cases hd : decode cmd w with
    | error e => rw [runCommand_error hd, raise_eq_raised]
    | ok j =>
      obtain ⟨o', ho', hs, hi, -⟩ := decode_ok hd
      obtain rfl : o' = o := Opcode.code_injective (ho'.symm.trans ho)
      exact absurd ((checks _ _).mpr ⟨hs, hi⟩) hl

/-- GEDET's operand is IMM's low three bits: the previous flag and above it the level (R85). -/
theorem encodedAs_gedet : encodedAs 0x20 (fun sel imm => sel = 0 ∧ imm < 8)
    (fun _ imm _ => .gedet (GateFlag.ofCode (imm % 4)) (decide (4 ≤ imm))) := by
  refine encodedAs_of_build (o := .gedet) (fun sel imm => by simp [Opcode.usesSel, Opcode.immBits]) ?_
  rintro sel imm w ⟨-, hi⟩
  interval_cases imm <;> rfl

/-- Settles O27: GEDET responds with the edge function's code, by the cases of the previous flag and the level. -/
theorem gedetResult : Obligations.GedetResult := by
  unfold Obligations.GedetResult
  refine ⟨fun prev s => ⟨?_, ?_⟩, code_edge, encodedAs_gedet⟩
  · rw [exec_gedet_next, code_edge_true]
    rfl
  · rw [exec_gedet_next, code_edge_false]
    rfl

/-- Settles O33: the ordered comparison is false for a NaN, and a frame leaves the edge function's value in each flag. -/
theorem stepEdgeFlags : Obligations.StepEdgeFlags := by
  unfold Obligations.StepEdgeFlags
  refine ⟨fun x => ⟨fun h => ⟨isNaN_of_level h, h⟩, And.right⟩, fun x => level_of_isNaN, by decide, by decide, ?_⟩
  intro n s hn
  exact ⟨_, exec_step_next hn s, (State.respond_trigFlag _ _).trans (State.frame_trigFlag s n),
    (State.respond_clkFlag _ _).trans (State.frame_clkFlag s n)⟩

end Sys2Proof.Statements

/-! PROOFS. The statements of spec/41_ratio_quantizer.md: the lookup (R121) with QUANT (R124), and the thresholds of its
hysteresis (R122). Bounds of the exact sum of v and the offset carry over to the rounded one wherever they are binary32
values: the integers are, and so is the sum of 0.25 and the word just below q + 0.75. -/

namespace Sys2Proof.Machine

open F32

/-! The position v (R121). -/

theorem within_quantPosition (x : Word) : within Config.f0 Config.f19 (quantPosition x) = true := by
  have h := within_sanitize x (lo := Config.f0) (hi := Config.f1) (dflt := Config.f0) (by decide) (by decide)
    (by decide) (by decide)
  have hf := finite_of_within (by decide) (by decide) h
  obtain ⟨-, -, -, h0, h1⟩ := (within_iff _ _ _).mp h
  have v0 : val Config.f0 = 0 := by decide
  have v1 : val Config.f1 = 2 ^ 149 := by decide
  have v19 : val Config.f19 = 19 * 2 ^ 149 := by decide
  refine within_mul hf (by decide) (by decide) (by decide) ?_ ?_
  · rw [v0] at h0 ⊢
    rw [v19]
    omega
  · rw [v1] at h1
    rw [v19]
    omega

theorem isFinite_quantPosition (x : Word) : isFinite (quantPosition x) = true :=
  finite_of_within (by decide) (by decide) (within_quantPosition x)

theorem quantPosition_nonneg (x : Word) : 0 ≤ val (quantPosition x) := by
  obtain ⟨-, -, -, h, -⟩ := (within_iff _ _ _).mp (within_quantPosition x)
  exact h

/-! The offset (R121). -/

theorem val_fQuarter : val Config.fQuarter = 2 ^ 147 := by decide
theorem val_fThreeQuarters : val Config.fThreeQuarters = 3 * 2 ^ 147 := by decide

theorem lt_int2f_quantPosition (q : Fin 20) (x : Word) :
    lt (int2f q.val) (quantPosition x) = true ↔ q.val * 2 ^ 149 < val (quantPosition x) := by
  obtain ⟨hf, hv⟩ := val_int2f (n := q.val) (by omega)
  rw [lt_iff, hv]
  simp [isNaN_of_finite hf, isNaN_of_finite (isFinite_quantPosition x)]

theorem quantOffset_of_above {q : Fin 20} {x : Word} (h : q.val * 2 ^ 149 < val (quantPosition x)) :
    quantOffset (some q) (quantPosition x) = Config.fQuarter := if_pos ((lt_int2f_quantPosition q x).mpr h)

theorem quantOffset_of_not_above {q : Fin 20} {x : Word} (h : val (quantPosition x) ≤ q.val * 2 ^ 149) :
    quantOffset (some q) (quantPosition x) = Config.fThreeQuarters :=
  if_neg fun hlt => not_lt_of_ge h ((lt_int2f_quantPosition q x).mp hlt)

/-- Every offset is a finite positive word from 0.25 to 0.75. -/
theorem quantOffset_bounds (q : Option (Fin 20)) (v : Word) :
    isFinite (quantOffset q v) = true ∧ sign (quantOffset q v) = false ∧
      val Config.fQuarter ≤ val (quantOffset q v) ∧ val (quantOffset q v) ≤ val Config.fThreeQuarters := by
  cases q with
  | none => exact (by decide : isFinite Config.fHalf = true ∧ sign Config.fHalf = false ∧
      val Config.fQuarter ≤ val Config.fHalf ∧ val Config.fHalf ≤ val Config.fThreeQuarters)
  | some q =>
    unfold quantOffset
    dsimp only
    split <;> decide

/-! The index (R121). -/

theorem val_clampIndex (n : Int) : ((clampIndex n).val : Int) = min 19 (max 0 n) := by
  unfold clampIndex
  dsimp only
  omega

/-- `t`, the position with its offset, rounded once (R121). -/
def biasedPosition (q : Option (Fin 20)) (x : Word) : Word :=
  add (quantPosition x) (quantOffset q (quantPosition x))

theorem biasedPosition_some (q : Fin 20) (x : Word) : biasedPosition (some q) x =
    if lt (int2f q.val) (quantPosition x) then add (quantPosition x) Config.fQuarter
    else add (quantPosition x) Config.fThreeQuarters := apply_ite _ _ _ _

theorem val_quantIndex (q : Option (Fin 20)) (x : Word) :
    ((quantIndex q x).val : Int) = min 19 (max 0 (floor (biasedPosition q x))) := val_clampIndex _

/-- An integer that the exact sum reaches, the index reaches. -/
theorem le_quantIndex {p : Fin 20} {q : Option (Fin 20)} {x : Word}
    (h : p.val * 2 ^ 149 ≤ val (quantPosition x) + val (quantOffset q (quantPosition x))) : p ≤ quantIndex q x := by
  obtain ⟨hf, hv⟩ := val_int2f (n := p.val) (by omega)
  have ht : val (int2f p.val) ≤ val (biasedPosition q x) :=
    le_val_add (isFinite_quantPosition x) (quantOffset_bounds _ _).1 (isNaN_of_finite hf) (hv.trans_le h)
  rw [hv] at ht
  have hfl : (p.val : Int) ≤ floor (biasedPosition q x) := (Int.le_ediv_iff_mul_le (by norm_num)).mpr ht
  have := val_quantIndex q x
  omega

/-- Where the exact sum is at most a word below p + 1, the index is at most p. -/
theorem quantIndex_le {p : Fin 20} {q : Option (Fin 20)} {x w : Word} (hw : isNaN w = false)
    (hp : val w < (p.val + 1) * 2 ^ 149)
    (h : val (quantPosition x) + val (quantOffset q (quantPosition x)) ≤ val w) : quantIndex q x ≤ p := by
  have ht : val (biasedPosition q x) ≤ val w :=
    val_add_le (isFinite_quantPosition x) (quantOffset_bounds _ _).1 hw h
  have hfl : floor (biasedPosition q x) < p.val + 1 := Int.ediv_lt_of_lt_mul (by norm_num) (ht.trans_lt hp)
  have := val_quantIndex q x
  omega

/-- Of one position, the greater offset gives no smaller index. -/
theorem quantIndex_mono_offset {q q' : Option (Fin 20)} {x : Word}
    (h : val (quantOffset q (quantPosition x)) ≤ val (quantOffset q' (quantPosition x))) :
    quantIndex q x ≤ quantIndex q' x := by
  obtain ⟨hf, hs, hlo, -⟩ := quantOffset_bounds q (quantPosition x)
  obtain ⟨hf', hs', -, -⟩ := quantOffset_bounds q' (quantPosition x)
  have hv := quantPosition_nonneg x
  rw [val_fQuarter] at hlo
  have ht : val (biasedPosition q x) ≤ val (biasedPosition q' x) := by
    unfold biasedPosition
    rw [add_finite (isFinite_quantPosition x) hf, add_finite (isFinite_quantPosition x) hf', hs, hs', Bool.and_false]
    exact val_round_mono Nat.one_pos (by omega) (by omega)
  have hfl := floor_mono ht
  have := val_quantIndex q x
  have := val_quantIndex q' x
  omega

/-! The thresholds (R122). -/

/-- The word of q + 0.75. -/
def riseWord (q : Fin 20) : Word := round ((4 * q.val + 3) * 2 ^ 147) 1 false

/-- The word before q + 0.75 and 0.25 have as their exact sum the word before q + 1: no lookup rounds up across the
rising threshold. -/
theorem riseWord_spec : ∀ q : Fin 20,
    isNaN (riseWord q) = false ∧ val (riseWord q) = (4 * q.val + 3) * 2 ^ 147 ∧
    key (riseWord q) = key (riseWord q - 1#32) + 1 ∧
    isNaN (int2f (q.val + 1) - 1#32) = false ∧ val (int2f (q.val + 1) - 1#32) < (q.val + 1) * 2 ^ 149 ∧
    val (riseWord q - 1#32) + val Config.fQuarter = val (int2f (q.val + 1) - 1#32) := by decide

/-- Below q + 0.75 the index does not rise from q. -/
theorem quantIndex_le_of_lt_rise {q : Fin 20} {x : Word}
    (h : 4 * val (quantPosition x) < (4 * q.val + 3) * 2 ^ 149) : quantIndex (some q) x ≤ q := by
  obtain ⟨hn, hv, hk, hn', hlt, hsum⟩ := riseWord_spec q
  rcases lt_or_ge (q.val * 2 ^ 149 : Int) (val (quantPosition x)) with hq | hq
  · have hprev : val (quantPosition x) ≤ val (riseWord q - 1#32) := val_le_prev hk (by rw [hv]; omega)
    refine quantIndex_le hn' hlt ?_
    rw [quantOffset_of_above hq, ← hsum]
    exact Int.add_le_add_right hprev _
  · refine quantIndex_le hn (by rw [hv]; omega) ?_
    rw [quantOffset_of_not_above hq, hv, val_fThreeQuarters]
    omega

/-- From q - 0.75 up the index does not fall from q. -/
theorem le_quantIndex_of_fall_le {q : Fin 20} {x : Word}
    (h : (4 * (q.val : Int) - 3) * 2 ^ 149 ≤ 4 * val (quantPosition x)) : q ≤ quantIndex (some q) x := by
  apply le_quantIndex
  rcases lt_or_ge (q.val * 2 ^ 149 : Int) (val (quantPosition x)) with hq | hq
  · rw [quantOffset_of_above hq, val_fQuarter]
    omega
  · rw [quantOffset_of_not_above hq, val_fThreeQuarters]
    omega

/-- A lookup of the same input from the index it gave gives that index: above it the offset is the least, and the index
does not fall; else the offset is the greatest, and the index does not rise. -/
theorem quantIndex_stable (q : Option (Fin 20)) (x : Word) : quantIndex (some (quantIndex q x)) x = quantIndex q x := by
  obtain ⟨-, -, hlo, hhi⟩ := quantOffset_bounds q (quantPosition x)
  rcases lt_or_ge ((quantIndex q x).val * 2 ^ 149 : Int) (val (quantPosition x)) with hq | hq
  · refine le_antisymm (quantIndex_mono_offset ?_) (le_quantIndex_of_fall_le (by omega))
    exact (congrArg val (quantOffset_of_above hq)).trans_le hlo
  · refine le_antisymm (quantIndex_le_of_lt_rise (by omega)) (quantIndex_mono_offset ?_)
    exact hhi.trans_eq (congrArg val (quantOffset_of_not_above hq)).symm

/-! QUANT (R124). -/

theorem exec_quant_next (w : Word) (s : State) :
    exec (.quant w) s = .next (State.respond { s with qState := some (quantIndex s.qState w) }
      (BitVec.ofNat 32 (quantIndex s.qState w).val)) := rfl

end Sys2Proof.Machine

namespace Sys2Proof.Statements

open Sys2Proof.Machine

/-- QUANT reads no field of the command word but the opcode (R124). -/
theorem encodedAs_quant : encodedAs 0x21 (fun sel imm => sel = 0 ∧ imm = 0) (fun _ _ w => .quant w) :=
  encodedAs_of_build (o := .quant) (fun sel imm => by simp [Opcode.usesSel, Opcode.immBits]) fun _ _ _ _ => rfl

/-- Settles O28: QUANT's index is `quantIndex`, whose position and offset are R121's, case by case of the hysteresis
state. -/
theorem quantResult : Obligations.QuantResult := by
  unfold Obligations.QuantResult
  refine ⟨fun w s => ⟨quantIndex s.qState w, exec_quant_next w s, ?_⟩, encodedAs_quant⟩
  rw [val_quantIndex]
  cases s.qState with
  | none => rfl
  | some p =>
    rw [biasedPosition_some]
    rfl

/-- Settles O53: the index is stable, and each threshold is the contrapositive of a bound of the index. -/
theorem quantizerHysteresis : Obligations.QuantizerHysteresis := by
  unfold Obligations.QuantizerHysteresis
  refine ⟨quantIndex_stable, fun q x => ⟨fun h => ?_, fun h => ?_⟩⟩
  · contrapose! h
    exact quantIndex_le_of_lt_rise h
  · contrapose! h
    exact le_quantIndex_of_fall_le h

end Sys2Proof.Statements

/-! PROOFS. The statements of spec/42_ramp_extractor.md: XINIT (R140), and the frame step `xstep` part by part: the
measurement (R144 to R146) with a constant clock (R151), the frequency (R147), the outputs and the advance (R148,
R149), and their ranges (R150). -/

namespace Sys2Proof.Machine

open F32

/-! XINIT (R140). -/

theorem clamp_of_lo_le {x lo hi : Word} (h : lt x lo = false) : clamp x lo hi = if lt hi x then hi else x := by
  unfold clamp
  rw [h]
  rfl

theorem exec_xinit_refused {w : Word} (h : isNaN w = true ∨ lt w Config.f0 = true) (s : State) :
    exec (.xinit w) s = .next (s.raise .badArg) :=
  if_pos ((Bool.or_eq_true _ _).mpr h)

theorem exec_xinit_next {w : Word} (hn : isNaN w = false) (h0 : lt w Config.f0 = false) (s : State) :
    exec (.xinit w) s = .next (State.respond (State.xreset { s with
      tr := clamp w Config.f0 Config.trMax
      xRecs := recoverySamples (clamp w Config.f0 Config.trMax) s.sr }) 0#32) :=
  if_neg (by simp [hn, h0])

namespace ExtRegs

variable {e : ExtRegs} {sub : Nat} {audio ar : Bool} {recs f : Word} {clk : GateFlag}

/-! The measurement on a rising edge (R144 to R146). -/

theorem measure_first (h : clk = .rising) (he : e.edge = false) :
    e.measure sub audio ar recs clk = { e.countFrame.firstEdge ar with count := 0 } :=
  (measure_of_rising h).trans (risingEdge_first he)

theorem measure_firstPeriod (h : clk = .rising) (he : e.edge = true) (hp : e.hasp = false) :
    e.measure sub audio ar recs clk = { e.countFrame.firstPeriod ar with count := 0 } :=
  (measure_of_rising h).trans (risingEdge_firstPeriod he hp)

theorem measure_nextPeriod (h : clk = .rising) (he : e.edge = true) (hp : e.hasp = true) :
    e.measure sub audio ar recs clk = { e.countFrame.nextPeriod sub audio ar recs with count := 0 } :=
  (measure_of_rising h).trans (risingEdge_nextPeriod he hp)

@[simp] theorem nextPeriod_edge : (e.nextPeriod sub audio ar recs).edge = e.edge := by
  unfold nextPeriod; (repeat' split) <;> rfl
@[simp] theorem nextPeriod_hasp : (e.nextPeriod sub audio ar recs).hasp = e.hasp := by
  unfold nextPeriod; (repeat' split) <;> rfl
@[simp] theorem nextPeriod_period :
    (e.nextPeriod sub audio ar recs).period = filterPeriod e.period recs (int2f e.count) := by
  unfold nextPeriod; (repeat' split) <;> rfl

/-- The one-shot restarts. -/
theorem nextPeriod_oneShot (h : ar = true) : (e.nextPeriod sub audio ar recs).phase = Config.f0 ∧
    (e.nextPeriod sub audio ar recs).qcount = e.qcount := by
  unfold nextPeriod; rw [if_pos h]; exact ⟨rfl, rfl⟩

/-- The audio range neither restarts nor resyncs (R153). -/
theorem nextPeriod_audio (h : ar = false) (ha : audio = true) : (e.nextPeriod sub audio ar recs).phase = e.phase ∧
    (e.nextPeriod sub audio ar recs).qcount = e.qcount := by
  subst h ha; exact ⟨rfl, rfl⟩

theorem nextPeriod_resync (h : ar = false) (ha : audio = false) (hs : sub ≤ e.qcount + 1) :
    (e.nextPeriod sub audio ar recs).phase = Config.f0 ∧ (e.nextPeriod sub audio ar recs).qcount = 0 := by
  subst h ha; simp [nextPeriod, hs]

theorem nextPeriod_counts (h : ar = false) (ha : audio = false) (hs : e.qcount + 1 < sub) :
    (e.nextPeriod sub audio ar recs).phase = e.phase ∧ (e.nextPeriod sub audio ar recs).qcount = e.qcount + 1 := by
  subst h ha; simp [nextPeriod, Nat.not_le.mpr hs]

/-! The frequency (R147) and the advance (R149). -/

theorem frequency_known {m : Word} (h : e.hasp = true) : e.frequency m sub =
    clamp (div m (mul e.period (int2f sub))) Config.fEps Config.fMax := by
  unfold frequency; rw [if_pos h]

theorem advance_of_unknown (h : e.hasp = false) : e.advance ar f = { e with eocp := false } := by
  unfold advance; simp [h]

theorem advance_loop (h : e.hasp = true) (ha : ar = false) : e.advance ar f =
    { e with phase := (wrapAdvance e.phase f).phase, eocp := (wrapAdvance e.phase f).eocp } := by
  unfold advance; simp [h, ha]

theorem advance_oneShot (h : e.hasp = true) (ha : ar = true) (hr : e.active = true) : e.advance ar f =
    { e with phase := (holdAdvance e.phase f).phase, eocp := (holdAdvance e.phase f).eocp,
             active := (holdAdvance e.phase f).goesOn } := by
  unfold advance; simp [h, ha, hr]

theorem advance_rest (ha : ar = true) (hr : e.active = false) : e.advance ar f = { e with eocp := false } := by
  unfold advance; simp [ha, hr]

end ExtRegs

/-! The filter of a constant clock (R151). -/

/-- The weight of an interval is in [0, 1] (R146). -/
theorem unit_filterWeight {meas recs : Word} (hm : within Config.f1 periodMax meas = true)
    (hr : within Config.f0 recsMax recs = true) : unitRange (div meas (add meas recs)) = true := by
  obtain ⟨-, -, nm, m1, m2⟩ := (within_iff _ _ _).mp hm
  obtain ⟨-, -, -, r0, r1⟩ := (within_iff _ _ _).mp hr
  have hmf := finite_of_within isFinite_f1 isFinite_periodMax hm
  have hK := val_f1_pos
  rw [val_f0] at r0
  have hmax : val periodMax + val recsMax ≤ val 0x4C000000#32 := by decide
  have hs : within meas 0x4C000000#32 (add meas recs) = true :=
    within_add hmf (finite_of_within isFinite_f0 isFinite_recsMax hr) nm (by decide) (by omega) (by omega)
  obtain ⟨-, -, -, s1, -⟩ := (within_iff _ _ _).mp hs
  refine within_div_one hmf (finite_of_within hmf (by decide) hs) (by omega) isNaN_f0 isNaN_f1 ?_ ?_
  · rw [val_f0, Int.zero_mul]
    exact mul_nonneg (by omega) (by omega)
  · rw [Int.mul_comm]
    exact mul_le_mul_of_nonneg_left s1 (by omega)

/-- An interval equal to the estimate leaves it: their difference is a zero, and so is its weighted part. -/
theorem filterPeriod_self {meas recs : Word} (hm : within Config.f1 periodMax meas = true)
    (hr : within Config.f0 recsMax recs = true) : filterPeriod meas recs meas = meas := by
  obtain ⟨-, -, -, m1, -⟩ := (within_iff _ _ _).mp hm
  have hK := val_f1_pos
  have hmf := finite_of_within isFinite_f1 isFinite_periodMax hm
  have hd : val (sub meas meas) = 0 := val_sub_exact hmf hmf isNaN_f0 (by rw [val_f0]; omega)
  have hdf : isFinite (sub meas meas) = true := by
    rw [isFinite_iff, hd]
    exact ⟨isNaN_sub hmf hmf, by decide⟩
  have hw := unit_filterWeight hm hr
  obtain ⟨-, hp, -⟩ := val_mul_unit hw hdf
  have hz := hp hd.ge
  refine eq_of_val_eq (val_add_exact hmf (finite_mul_unit hw hdf) (isNaN_of_finite hmf) ?_) (by omega)
  omega

/-- A later edge of a constant clock gives the interval as the estimate, as the first interval or by the filter. -/
theorem ExtRegs.measure_constantClock {e : ExtRegs} {sub : Nat} {audio ar : Bool} {recs : Word} {clk : GateFlag}
    (h : clk = .rising) (he : e.edge = true)
    (hm : within Config.f1 periodMax (int2f e.countFrame.count) = true) (hr : within Config.f0 recsMax recs = true)
    (hp : e.hasp = true → e.period = int2f e.countFrame.count) :
    (e.measure sub audio ar recs clk).hasp = true ∧
      (e.measure sub audio ar recs clk).period = int2f e.countFrame.count ∧
      (e.measure sub audio ar recs clk).count = 0 := by
  cases hh : e.hasp with
  | false =>
    rw [measure_firstPeriod h he hh]
    exact ⟨rfl, rfl, rfl⟩
  | true =>
    rw [measure_nextPeriod h he hh]
    refine ⟨nextPeriod_hasp.trans hh, nextPeriod_period.trans ?_, rfl⟩
    change filterPeriod e.period recs (int2f e.countFrame.count) = _
    rw [hp hh, filterPeriod_self hm hr]

/-! The fields of the frame step: the outputs are the measured registers', and the advance keeps the measurement. -/

section XStep

variable {m : Word} {sub : Nat} {audio allowAr : Bool} {clk : GateFlag} {recs : Word} {e : ExtRegs}

@[simp] theorem xstep_p : (xstep m sub audio allowAr clk recs e).1.p =
    (e.measure sub audio (allowAr && !audio) recs clk).phase := rfl
@[simp] theorem xstep_f : (xstep m sub audio allowAr clk recs e).1.f =
    (e.measure sub audio (allowAr && !audio) recs clk).frequency m sub := rfl
@[simp] theorem xstep_eoc : (xstep m sub audio allowAr clk recs e).1.eoc =
    (e.eocp && !(allowAr && !audio && decide (clk = .rising))) := ExtRegs.measure_eocp
@[simp] theorem xstep_running : (xstep m sub audio allowAr clk recs e).1.running =
    (!(allowAr && !audio) || (e.active || (allowAr && !audio && decide (clk = .rising)))) :=
  congrArg (!(allowAr && !audio) || ·) ExtRegs.measure_active

theorem xstep_running_of_rising (h : clk = .rising) : (xstep m sub audio allowAr clk recs e).1.running = true := by
  rw [xstep_running, h]
  cases allowAr && !audio <;> simp

/-- A one-shot restart clears the end-of-cycle bit (R145, R146). -/
theorem xstep_eoc_of_rising (h : clk = .rising) : (xstep m sub audio allowAr clk recs e).1.eoc =
    (!(allowAr && !audio) && e.eocp) := by
  rw [xstep_eoc, h, Bool.and_comm e.eocp]
  simp

@[simp] theorem xstep_count : (xstep m sub audio allowAr clk recs e).2.count =
    (e.measure sub audio (allowAr && !audio) recs clk).count := ExtRegs.advance_count
@[simp] theorem xstep_edge : (xstep m sub audio allowAr clk recs e).2.edge =
    (e.measure sub audio (allowAr && !audio) recs clk).edge := ExtRegs.advance_edge
@[simp] theorem xstep_hasp : (xstep m sub audio allowAr clk recs e).2.hasp =
    (e.measure sub audio (allowAr && !audio) recs clk).hasp := ExtRegs.advance_hasp
@[simp] theorem xstep_period : (xstep m sub audio allowAr clk recs e).2.period =
    (e.measure sub audio (allowAr && !audio) recs clk).period := ExtRegs.advance_period
@[simp] theorem xstep_qcount : (xstep m sub audio allowAr clk recs e).2.qcount =
    (e.measure sub audio (allowAr && !audio) recs clk).qcount := ExtRegs.advance_qcount

theorem xstep_regs : (xstep m sub audio allowAr clk recs e).2 =
    (e.measure sub audio (allowAr && !audio) recs clk).advance (allowAr && !audio)
      (xstep m sub audio allowAr clk recs e).1.f := rfl

end XStep

end Sys2Proof.Machine

namespace Sys2Proof.Statements

open Sys2Proof.Machine

/-- XINIT reads no field of the command word but the opcode (R140). -/
theorem encodedAs_xinit : encodedAs 0x0B (fun sel imm => sel = 0 ∧ imm = 0) (fun _ _ w => .xinit w) :=
  encodedAs_of_build (o := .xinit) (fun sel imm => by simp [Opcode.usesSel, Opcode.immBits]) fun _ _ _ _ => rfl

/-- Settles O24: an accepted time is not below 0, so only the clamp's upper bound can take effect. -/
theorem xinitResult : Obligations.XinitResult := by
  unfold Obligations.XinitResult
  refine ⟨fun w s hn h0 => ?_, fun w s h => ?_, encodedAs_xinit⟩
  · rw [exec_xinit_next hn h0, clamp_of_lo_le h0]
    rfl
  · rw [exec_xinit_refused h, raise_eq_raised]

/-- Settles O45: the advance keeps the period, so the frequency is that of the registers after the frame. -/
theorem extractorFrequency : Obligations.ExtractorFrequency := by
  unfold Obligations.ExtractorFrequency
  intro m sub audio allowAr clk recs e
  dsimp only
  rw [xstep_f, xstep_hasp, xstep_period]
  rfl

/-- Settles O44, by the cases of the edge: none, the first, the first interval, a later interval. -/
theorem extractorMeasures : Obligations.ExtractorMeasures := by
  unfold Obligations.ExtractorMeasures
  intro m sub audio allowAr clk recs e
  dsimp only
  rw [xstep_p, xstep_count, xstep_edge, xstep_hasp, xstep_period, xstep_qcount]
  refine ⟨fun h => ?_, fun h he => ?_, fun h he hp => ?_, fun h he hp => ?_⟩
  · rw [ExtRegs.measure_of_not_rising h, xstep_eoc]
    simp [ExtRegs.countFrame, h]
  · rw [ExtRegs.measure_first h he, xstep_running_of_rising h, xstep_eoc_of_rising h]
    exact ⟨rfl, rfl, rfl, rfl, rfl, rfl, rfl, rfl⟩
  · rw [ExtRegs.measure_firstPeriod h he hp, xstep_running_of_rising h, xstep_eoc_of_rising h]
    exact ⟨rfl, he, rfl, rfl, rfl, rfl, rfl, rfl⟩
  · rw [ExtRegs.measure_nextPeriod h he hp]
    exact ⟨rfl, ExtRegs.nextPeriod_edge.trans he, ExtRegs.nextPeriod_hasp.trans hp, ExtRegs.nextPeriod_period,
      xstep_running_of_rising h, xstep_eoc_of_rising h, ExtRegs.nextPeriod_oneShot,
      fun ha => ExtRegs.nextPeriod_audio (by simp [ha]) ha, ExtRegs.nextPeriod_resync (e := e.countFrame),
      ExtRegs.nextPeriod_counts (e := e.countFrame)⟩

/-- Settles O46: the one-shot's bit after an edge is `measure_active`, and the rest are the advance's four cases. -/
theorem extractorAdvances : Obligations.ExtractorAdvances := by
  unfold Obligations.ExtractorAdvances
  intro m sub audio allowAr clk recs e
  dsimp only
  rw [← ExtRegs.measure_active (sub := sub) (audio := audio) (recs := recs), xstep_hasp]
  refine ⟨rfl, fun h => ?_, fun h ha => ?_, fun h ha hr => ?_, fun h ha hr => ?_⟩
  · rw [xstep_regs, ExtRegs.advance_of_unknown h]
    exact ⟨rfl, rfl, rfl⟩
  · rw [xstep_regs, ExtRegs.advance_loop h ha]
    exact ⟨wrapAdvance_phase _ _, wrapAdvance_eocp _ _, rfl⟩
  · rw [xstep_regs, ExtRegs.advance_oneShot h ha hr]
    exact ⟨holdAdvance_phase _ _, holdAdvance_eocp _ _, holdAdvance_goesOn _ _⟩
  · rw [xstep_regs, ExtRegs.advance_rest ha hr]
    exact ⟨rfl, rfl, hr⟩

/-- The statement's ratio table is the model's (R120). -/
theorem ratio_eq_ratioTable (q : Fin 20) : ratio q = (ratioTable[q].m, ratioTable[q].s) := by
  revert q; decide

/-- Settles O47: the frame step keeps the legal ranges (`xstep_legal`). -/
theorem extractorSafety : Obligations.ExtractorSafety := by
  unfold Obligations.ExtractorSafety
  intro q audio allowAr clk recs e he hr
  rw [ratio_eq_ratioTable]
  obtain ⟨ho, hx⟩ := xstep_legal q audio allowAr clk he hr
  exact ⟨ho.f, hx.periodUnknown, hx.periodKnown⟩

/-- Settles O48: the first interval is taken whole, and a later one equals the estimate, which the filter then keeps. -/
theorem constantClockKeepsPeriod : Obligations.ConstantClockKeepsPeriod := by
  unfold Obligations.ConstantClockKeepsPeriod
  intro n m sub audio allowAr recs e h1 h2 hr he hp hc
  obtain rfl : e.countFrame.count = n := hc
  obtain ⟨hh, hq, hz⟩ := ExtRegs.measure_constantClock (sub := sub) (audio := audio) (ar := allowAr && !audio)
    (clk := .rising) rfl he (within_meas h1 h2).1 hr hp
  dsimp only
  rw [xstep_hasp, xstep_period, xstep_count, xstep_f, ExtRegs.frequency_known hh, hq]
  exact ⟨hh, rfl, hz, rfl⟩

end Sys2Proof.Statements

/-! PROOFS. The statements of spec/43_slope_generator.md: STEP and RENDER (R190, R191), the two phase sources (R171 to
R177, R188), the transfer curve (R180 to R182), the channels (R183 to R186) and the partial resets (R192). What a frame
gives is said once, by `State.frame_words` for the channels and by the fields of `frame` for the registers; the formulas
of the statements are the model's own functions. -/

namespace Sys2Proof.Machine

open F32

/-! The commands. -/

theorem exec_step_refused {n : Nat} (h : Config.blockMax ≤ n) (s : State) :
    exec (.step n) s = .next (s.raise .badAddr) := by
  simp only [exec, execStep]
  rw [if_pos h]

theorem exec_render_refused {n : Nat} {s : State} (h : n ≠ s.bs) :
    exec (.render n) s = .next (s.raise .blockMismatch) := by
  simp only [exec, execRender]
  rw [if_pos h]

/-! The registers of the free path (R174 to R176). -/

namespace GenRegs

variable {g : GenRegs} {mode : RampMode} {f : Word}

theorem advance_wraps (h : mode ≠ .ar) : g.advance mode f =
    { g with phase := (wrapAdvance g.phase f).phase, eocp := (wrapAdvance g.phase f).eocp } := by
  unfold advance; rw [if_neg h]

theorem advance_holds (h : mode = .ar) (ha : g.active = true) : g.advance mode f =
    { g with phase := (holdAdvance g.phase f).phase, eocp := (holdAdvance g.phase f).eocp,
             active := (holdAdvance g.phase f).goesOn } := by
  unfold advance; rw [if_pos h, if_pos ha]

theorem advance_rests (h : mode = .ar) (ha : g.active = false) : g.advance mode f = { g with eocp := false } := by
  unfold advance; rw [if_pos h, if_neg (by simp [ha])]

end GenRegs

namespace State

variable {s : State} {n : Nat}

/-- The generator registers of a free-path frame between the trigger and the advance (R174). -/
def triggeredGen (s : State) (n : Nat) : GenRegs := s.gen.trigger (s.detectEdges n).trigFlag s.rmode

theorem freePath_frame_out (hc : s.clkConn = false) (hm : s.omode = s.prevOm) :
    (s.modeChange.detectEdges n).phaseSource.1 = (s.triggeredGen n).outputs s.rmode s.freeFrequency := by
  rw [phaseSource_free (by simpa using hc), freePath_out, frame_freeFrequency, modeChange_of_eq hm]
  rfl

theorem freePath_frame_gen (hc : s.clkConn = false) (hm : s.omode = s.prevOm) :
    (s.frame n).gen = { (s.triggeredGen n).advance s.rmode s.freeFrequency with y := (s.frame n).gen.y } := by
  rw [frame_gen, phaseSource_free (by simpa using hc), freePath_gen, frame_freeFrequency, modeChange_of_eq hm]
  rfl

theorem frame_fEff_free (hc : s.clkConn = false) : (s.frame n).fEff = s.freeFrequency := by
  rw [frame_fEff, phaseSource_free (by simpa using hc), ← frame_freeFrequency s n]
  rfl

/-- The free path leaves the deferred extractor reset, the quantizer and the extractor alone (R190). -/
theorem frame_keeps_free (hc : s.clkConn = false) :
    (s.frame n).mustReset = s.mustReset ∧ (s.frame n).qState = s.qState ∧ (s.frame n).ext = s.ext := by
  rw [frame_mustReset, frame_qState, frame_ext, phaseSource_free (by simpa using hc)]
  simp [freePath]

theorem frames_keep_free (count first : Nat) (hc : s.clkConn = false) :
    (s.frames count first).mustReset = s.mustReset ∧ (s.frames count first).qState = s.qState ∧
      (s.frames count first).ext = s.ext := by
  induction count generalizing s first with
  | zero => exact ⟨rfl, rfl, rfl⟩
  | succ k ih =>
    obtain ⟨hm, hq, he⟩ := frame_keeps_free (n := first) hc
    rw [← hm, ← hq, ← he]
    exact ih (first + 1) (by simpa using hc)

theorem respond_eq_withResponses (s : State) (w : Word) :
    s.respond w = s.withResponses ({ rdata := w, err := false } :: s.responses) := rfl

/-! The values of a frame. -/

/-- What the channel map reads in frame `n` (R180 to R186). -/
def channelValues (s : State) (n : Nat) : FrameValues :=
  { o := (s.modeChange.detectEdges n).phaseSource.1
    warp := warpOrRest (s.modeChange.detectEdges n).phaseSource.1.running
      (s.modeChange.detectEdges n).phaseSource.1.p s.par.slope
    y := (s.frame n).gen.y
    sh := s.par.shift
    slope := s.par.slope
    sr := s.sr }

/-- The four words of a frame under an output mode (R187). -/
theorem frame_words {m : OutMode} (h : s.omode = m) :
    (s.frame n).obufWord (4 * n) = (channelMap m (s.channelValues n)).ch0 ∧
      (s.frame n).obufWord (4 * n + 1) = (channelMap m (s.channelValues n)).ch1 ∧
      (s.frame n).obufWord (4 * n + 2) = (channelMap m (s.channelValues n)).ch2 ∧
      (s.frame n).obufWord (4 * n + 3) = (channelMap m (s.channelValues n)).ch3 := by
  have hw := frame_channels s n
  rw [frame_values, h] at hw
  exact hw

theorem frame_out_legal (h : s.Legal) (n : Nat) : (s.modeChange.detectEdges n).phaseSource.1.Legal :=
  (phaseSource_legal (detectEdges_legal (modeChange_legal h) n)).1

theorem frame_y_unit (h : s.Legal) (hn : n < Config.blockMax) : unitRange (s.frame n).gen.y = true :=
  (frame_legal h hn).1.gen.y

/-- Every word that a block's frames write is finite (R193): no later frame writes it again. -/
theorem frames_finite {count first a : Nat} (h : s.Legal) (hn : first + count ≤ Config.blockMax)
    (h1 : 4 * first ≤ a) (h2 : a < 4 * (first + count)) :
    isFinite ((s.frames count first).obufWord a) = true := by
  induction count generalizing s first with
  | zero => omega
  | succ k ih =>
    obtain ⟨hl, hf⟩ := frame_legal (n := first) h (by omega)
    rw [frames]
    rcases Nat.lt_or_ge a (4 * (first + 1)) with ha | ha
    · rw [obufWord_frames _ _ _ (.inl ha), show a = 4 * first + (a - 4 * first) by omega]
      exact hf _ (by omega)
    · exact ih hl (by omega) ha (by omega)

end State

/-! The ranges of the channels (R184 to R186). -/

theorem within_of_absUnit {x : Word} (h : absUnit x = true) : within 0xBF800000#32 0x3F800000#32 x = true := by
  rw [show 0xBF800000#32 = neg Config.f1 by decide]
  exact h

theorem within_double {y : Word} (h : unitRange y = true) : within Config.f0 Config.f2 (mul Config.f2 y) = true := by
  obtain ⟨-, y0, y1⟩ := (unit_iff y).mp h
  exact within_mul_one isFinite_f2 (unit_finite h) isNaN_f0 (isNaN_of_finite isFinite_f2)
    (by rw [val_f0, val_f2]; exact int_double_nonneg val_f1_pos y0)
    (by rw [val_f2]; exact mul_le_mul_of_nonneg_left y1 (by decide))

theorem isFinite_double {y : Word} (h : unitRange y = true) : isFinite (mul Config.f2 y) = true :=
  finite_of_within isFinite_f0 isFinite_f2 (within_double h)

/-- 2 y - 1. -/
theorem absUnit_double_sub_one {y : Word} (h : unitRange y = true) :
    absUnit (sub (mul Config.f2 y) Config.f1) = true := by
  have h2 := within_double h
  obtain ⟨-, -, -, z0, z1⟩ := (within_iff _ _ _).mp h2
  rw [val_f0] at z0
  rw [val_f2] at z1
  exact within_sub (isFinite_double h) isFinite_f1 (by decide) isNaN_f1
    (by rw [val_neg]; omega) (by omega)

/-- A frequency in Hz lies in (0, 384000], and its least value is above F_EPS (R186). -/
theorem within_hertz {f sr : Word} (hf : freqRange f = true) (hs : within Config.srMin Config.srMax sr = true) :
    within Config.fEps 0x48BB8000#32 (mul f sr) = true := by
  obtain ⟨-, -, -, f0, f1⟩ := (within_iff _ _ _).mp hf
  obtain ⟨-, -, -, s0, s1⟩ := (within_iff _ _ _).mp hs
  have hs1 : val Config.f1 ≤ val sr := le_trans (by decide) s0
  have hmax : val 0x48BB8000#32 * val Config.f1 = val Config.fMax * val Config.srMax := by decide
  refine within_mul_one (unit_finite (freq_unit hf)) (finite_of_within (by decide) (by decide) hs) (by decide)
    (by decide) ?_ ?_
  · exact mul_le_mul f0 hs1 (by decide) (le_trans (by decide) f0)
  · rw [hmax]
    exact mul_le_mul f1 s1 (le_trans (by decide) hs1) (by decide)

theorem warpOrRest_of_rest {running : Bool} (h : running = false) (p s : Word) :
    warpOrRest running p s = { u := Config.f0, rise := false } := by
  unfold warpOrRest; rw [h, if_neg Bool.false_ne_true]

theorem warpOrRest_u (running : Bool) (p s : Word) :
    (warpOrRest running p s).u = if running then (warp p s).u else Config.f0 := by
  unfold warpOrRest; split <;> rfl

/-! Zeros and ones in the transfer curve (R180, R181). -/

/-- Adding a zero keeps the value. -/
theorem val_add_zero {a z : Word} (ha : isFinite a = true) (hz : isFinite z = true) (h0 : val z = 0) :
    val (add a z) = val a :=
  val_add_exact ha hz (isNaN_of_finite ha) (by omega)

/-- +0.0 plus a zero of either sign is +0.0. -/
theorem add_f0_zero {z : Word} (hz : isFinite z = true) (h0 : val z = 0) : add Config.f0 z = Config.f0 := by
  rw [add_finite isFinite_f0 hz, val_f0, h0, show sign Config.f0 = false by decide,
    Bool.false_and]
  decide

/-- A zero as a factor gives a zero. -/
theorem val_mul_zero {a d : Word} (ha : isFinite a = true) (hd : isFinite d = true) (h : val a = 0 ∨ val d = 0) :
    isFinite (mul a d) = true ∧ val (mul a d) = 0 := by
  have h0 : val a * val d = 0 := mul_eq_zero.mpr h
  rw [mul_finite ha hd, h0]
  cases sign a != sign d <;> decide

theorem val_div_one {a : Word} (ha : isFinite a = true) : val (div a Config.f1) = val a := by
  have hn := isNaN_of_finite ha
  have h : val a * 2 ^ 149 = val a * val Config.f1 := by rw [two_pow_149]
  exact le_antisymm (val_div_le ha isFinite_f1 val_f1_pos hn h.le) (le_val_div ha isFinite_f1 val_f1_pos hn h.ge)

theorem sub_one_zero : sub Config.f1 Config.f0 = Config.f1 := by decide
theorem fourth_zero : fourth Config.f0 = Config.f0 := by decide
theorem fourth_one : fourth Config.f1 = Config.f1 := by decide

/-- SLOPE = 0: every phase is in the falling part, and u = fl(1 - p). -/
theorem warp_slope_zero {p : Word} (hp : unitRange p = true) :
    val (warp p Config.f0).u = val (sub Config.f1 p) ∧ (warp p Config.f0).rise = false := by
  obtain ⟨np, p0, -⟩ := (unit_iff p).mp hp
  have hlt : lt p Config.f0 = false := (lt_eq_false np isNaN_f0).mpr (by rw [val_f0]; exact p0)
  have hd := val_div_one (unit_finite (unit_one_sub hp))
  obtain ⟨-, q0, q1⟩ := (unit_iff _).mp (unit_one_sub hp)
  have hu : unitRange (div (sub Config.f1 p) Config.f1) = true := (unit_iff _).mpr
    ⟨isNaN_div (unit_finite (unit_one_sub hp)) isFinite_f1 val_f1_pos, by rw [hd]; exact q0, by rw [hd]; exact q1⟩
  unfold warp
  rw [if_neg (by decide), hlt, if_neg Bool.false_ne_true, sub_one_zero, clamp_of_within hu]
  dsimp only
  exact ⟨hd, rfl⟩

/-- SLOPE = 1: every phase is in the rising part, and u = p. -/
theorem warp_slope_one {p : Word} (hp : unitRange p = true) : warp p Config.f1 = { u := p, rise := true } := by
  unfold warp
  rw [if_pos (by decide), clamp_of_within hp]

theorem shapeCurve_of_lt {u h : Word} (hh : lt h Config.fHalf = true) : shapeCurve u h =
    clamp (add (fourth u) (mul (mul Config.f2 h) (sub u (fourth u)))) Config.f0 Config.f1 := by
  unfold shapeCurve; rw [if_pos hh]

theorem shapeCurve_of_not_lt {u h : Word} (hh : lt h Config.fHalf = false) : shapeCurve u h =
    clamp (add u (mul (sub (mul Config.f2 h) Config.f1) (sub (sub Config.f1 (fourth (sub Config.f1 u))) u)))
      Config.f0 Config.f1 := by
  unfold shapeCurve; rw [hh, if_neg Bool.false_ne_true]

/-- At an end, where both curves meet the line, the shape adds a zero to u. -/
theorem shapeCurve_of_fixed {u h : Word} (hh : unitRange h = true) (hc : fourth u = u)
    (hq : sub Config.f1 (fourth (sub Config.f1 u)) = u) (hd : sub u u = Config.f0) :
    ∃ a, isFinite a = true ∧ shapeCurve u h = clamp (add u (mul a Config.f0)) Config.f0 Config.f1 := by
  cases hlt : lt h Config.fHalf with
  | true => exact ⟨_, isFinite_double hh, by rw [shapeCurve_of_lt hlt, hc, hd]⟩
  | false => exact ⟨_, absUnit_finite (absUnit_double_sub_one hh), by rw [shapeCurve_of_not_lt hlt, hq, hd]⟩

theorem shapeCurve_zero {h : Word} (hh : unitRange h = true) : shapeCurve Config.f0 h = Config.f0 := by
  obtain ⟨a, ha, he⟩ := shapeCurve_of_fixed hh fourth_zero (by decide) (by decide)
  obtain ⟨hz, h0⟩ := val_mul_zero ha isFinite_f0 (.inr val_f0)
  rw [he, add_f0_zero hz h0]
  decide

theorem shapeCurve_one {h : Word} (hh : unitRange h = true) : shapeCurve Config.f1 h = Config.f1 := by
  obtain ⟨a, ha, he⟩ := shapeCurve_of_fixed hh fourth_one (by decide) (by decide)
  obtain ⟨hz, h0⟩ := val_mul_zero ha isFinite_f0 (.inr val_f0)
  rw [he, eq_of_val_eq (val_add_zero isFinite_f1 hz h0) (by decide)]
  decide

/-- At SHAPE = 0.5 the weight a is +0.0, and the shape is the identity (R181). -/
theorem val_shapeCurve_half {u : Word} (hu : unitRange u = true) : val (shapeCurve u Config.fHalf) = val u := by
  have hq := unit_one_sub (unit_fourth (unit_one_sub hu))
  have hd := absUnit_finite (absUnit_sub hq hu)
  obtain ⟨hz, h0⟩ := val_mul_zero isFinite_f0 hd (.inl val_f0)
  have hv := val_add_zero (unit_finite hu) hz h0
  obtain ⟨-, u0, u1⟩ := (unit_iff u).mp hu
  have hr := (unit_iff _).mpr ⟨isNaN_add (unit_finite hu) hz, by rw [hv]; exact u0, by rw [hv]; exact u1⟩
  rw [shapeCurve_of_not_lt (by decide), show sub (mul Config.f2 Config.fHalf) Config.f1 = Config.f0 by decide]
  exact (congrArg val (clamp_of_within hr)).trans hv

end Sys2Proof.Machine

namespace Sys2Proof.Statements

open Sys2Proof.Machine

/-! The statements' formulas are the model's functions. -/

theorem freeF_eq (s : State) : freeF s = s.freeFrequency := by
  unfold freeF State.freeFrequency
  cases s.range <;> rfl

theorem warpRule_eq (p s : Word) : warpRule p s = ((warp p s).u, (warp p s).rise) := by
  unfold warpRule warp Config.f0 Config.f1
  split
  · rfl
  · split <;> dsimp only

theorem warpOf_eq (o : PhaseOut) (slope : Word) :
    warpOf o slope = ((warpOrRest o.running o.p slope).u, (warpOrRest o.running o.p slope).rise) := by
  unfold warpOf warpOrRest
  split
  · exact warpRule_eq _ _
  · rfl

theorem shapeRule_eq (u h : Word) : shapeRule u h = shapeCurve u h := by
  unfold shapeRule shapeCurve
  split <;> rfl

theorem smoothRule_eq (sigma f w y : Word) : smoothRule sigma f w y = smoothed sigma f w y := by
  unfold smoothRule smoothed smoothCoefficient
  split
  · exact (if_pos (by decide)).symm
  · rfl

theorem triggered_iff (s : State) (n : Nat) : triggered s n = true ↔ (s.detectEdges n).trigFlag = .rising :=
  beq_iff_eq

/-- The trigger's three fields in the words of the statements (R174). -/
theorem triggeredGen_fields (s : State) (n : Nat) :
    (s.triggeredGen n).phase = (if triggered s n ∧ s.rmode ≠ .looping then 0x00000000#32 else s.gen.phase) ∧
      (s.triggeredGen n).eocp = (if triggered s n ∧ s.rmode ≠ .looping then false else s.gen.eocp) ∧
      (s.triggeredGen n).active = (if triggered s n ∧ s.rmode = .ar then true else s.gen.active) := by
  simp only [triggered_iff]
  exact ⟨GenRegs.trigger_phase _ _ _, GenRegs.trigger_eocp _ _ _, GenRegs.trigger_active _ _ _⟩

/-! The parts of a frame. -/

theorem frameOut_free {s : State} (hc : s.clkConn = false) (hm : s.omode = s.prevOm) (n : Nat) :
    frameOut s n = (s.triggeredGen n).outputs s.rmode s.freeFrequency := State.freePath_frame_out hc hm

theorem frameOut_clocked {s : State} (hc : s.clkConn = true) (n : Nat) :
    frameOut s n = (s.modeChange.detectEdges n).clockedPath.1 := by
  unfold frameOut
  rw [State.phaseSource_clocked (by simpa using hc)]

/-! The encodings. -/

/-- A command whose operand is the whole of IMM and which does not use SEL (R85). -/
theorem encodedAs_imm {o : Opcode} (hs : o.usesSel = false) (hi : o.immBits = 16) {i : Nat → Instr}
    (hb : ∀ imm w, o.build 0 imm w = i imm) : encodedAs o.code (fun sel _ => sel = 0) (fun _ imm _ => i imm) := by
  have h : encodedAs o.code (fun sel imm => sel = 0 ∧ imm < 65536) (fun _ imm _ => i imm) := by
    refine encodedAs_of_build (fun sel imm => by simp [hs, hi]) ?_
    rintro sel imm w ⟨rfl, -⟩
    exact hb imm w
  intro cmd w s hop
  have himm : imm cmd < 65536 := Nat.mod_lt _ (by decide)
  obtain ⟨hrun, hill⟩ := h cmd w s hop
  exact ⟨fun hsel => hrun ⟨hsel, himm⟩, fun hsel => hill fun hl => hsel hl.1⟩

/-- A command that uses neither operand field (R85). -/
theorem encodedAs_no_operand {o : Opcode} (hs : o.usesSel = false) (hi : o.immBits = 0) {i : Instr}
    (hb : ∀ w, o.build 0 0 w = i) : encodedAs o.code (fun sel imm => sel = 0 ∧ imm = 0) (fun _ _ _ => i) := by
  refine encodedAs_of_build (fun sel imm => by simp [hs, hi]) ?_
  rintro sel imm w ⟨rfl, rfl⟩
  exact hb w

/-- Settles O32: the frame's registers by the laws of State, and its four words of OBUF by `obufWord_frame`. -/
theorem stepFrame : Obligations.StepFrame := by
  unfold Obligations.StepFrame
  refine ⟨fun n s hn => ⟨_, exec_step_next hn s, ?_⟩, fun n s hn => ?_, ?_⟩
  · simpa [ok] using And.intro State.frame_keeps_free fun a => State.obufWord_frame s n (a := a)
  · rw [exec_step_refused hn, raise_eq_raised]
  · exact encodedAs_imm (o := .step) rfl rfl fun _ _ => rfl

/-- Settles O34: the free path's frequency passes to F_EFF unchanged, and lies in its range by R173's clamp. -/
theorem freePathFrequency : Obligations.FreePathFrequency := by
  unfold Obligations.FreePathFrequency
  intro n s hn hc
  refine ⟨_, exec_step_next hn s, ?_⟩
  rw [State.respond_fEff, State.frame_fEff_free hc, freeF_eq]
  exact ⟨rfl, fun h => freqRange_freeFrequency h.params h.par.freq h.sr⟩

/-- Settles O36: the free path reads the triggered registers before the advance. -/
theorem freePathOutputs : Obligations.FreePathOutputs := by
  unfold Obligations.FreePathOutputs
  intro n s hc hm
  obtain ⟨hp, he, ha⟩ := triggeredGen_fields s n
  rw [frameOut_free hc hm, freeF_eq, ← hp, ← he]
  unfold GenRegs.outputs
  rw [ha]
  by_cases hr : s.rmode = .ar
  · cases triggered s n <;> simp [hr]
  · simp [hr]

/-- Settles O35: the advance wraps outside AR, holds in AR while active, and rests there otherwise. -/
theorem freePathPhase : Obligations.FreePathPhase := by
  unfold Obligations.FreePathPhase
  intro n s hn hc hm
  refine ⟨_, exec_step_next hn s, ?_⟩
  obtain ⟨hp, -, ha⟩ := triggeredGen_fields s n
  rw [State.respond_gen, State.freePath_frame_gen hc hm, freeF_eq]
  simp only [Bool.and_eq_true, decide_eq_true_eq, ← hp, ← ha]
  refine ⟨fun hr => ?_, fun hr hact => ?_, fun hr hact => ?_⟩
  · rw [GenRegs.advance_wraps hr]
    refine ⟨wrapAdvance_phase _ _, wrapAdvance_eocp _ _, ?_⟩
    simp [ha, hr]
  · rw [GenRegs.advance_holds hr hact]
    exact ⟨holdAdvance_phase _ _, holdAdvance_eocp _ _, holdAdvance_goesOn _ _⟩
  · rw [GenRegs.advance_rests hr hact]
    exact ⟨rfl, rfl, hact⟩

/-- Settles O37: the frame's y is the smoothing rule of the shaped, warped phase (`State.frame_y`). -/
theorem transferCurve : Obligations.TransferCurve := by
  unfold Obligations.TransferCurve
  intro n s hn
  refine ⟨_, exec_step_next hn s, ?_⟩
  rw [State.respond_gen, State.frame_y, smoothRule_eq, shapeRule_eq, warpOf_eq]
  rfl

/-- Settles O38: the four words are GATES's channels of the frame's values. -/
theorem gatesChannels : Obligations.GatesChannels := by
  unfold Obligations.GatesChannels
  intro n s hn hm
  refine ⟨_, exec_step_next hn s, ?_⟩
  simp only [State.respond_obufWord, State.respond_gen, warpOf_eq]
  exact State.frame_words hm

/-- Settles O39: the four words are AMPLITUDE's channels, and their ranges follow from y and SHIFT in [0, 1]. -/
theorem amplitudeChannels : Obligations.AmplitudeChannels := by
  unfold Obligations.AmplitudeChannels
  intro n s hn hm
  refine ⟨_, exec_step_next hn s, ?_⟩
  obtain ⟨h0, h1, h2, h3⟩ := State.frame_words (n := n) hm
  simp only [State.respond_obufWord, State.respond_gen, h0, h1, h2, h3, channelMap,
    Machine.amplitudeChannels, State.channelValues, true_and]
  intro h
  have hy := State.frame_y_unit h hn
  exact ⟨hy, unit_one_sub hy, within_of_absUnit (absUnit_double_sub_one hy),
    within_of_absUnit (absUnit_sub hy h.par.shift)⟩

/-- Settles O40: the four words are SLOPE_PHASE's channels, and p + SHIFT wraps into [0, 1]. -/
theorem slopePhaseChannels : Obligations.SlopePhaseChannels := by
  unfold Obligations.SlopePhaseChannels
  intro n s hn hm
  refine ⟨_, exec_step_next hn s, ?_⟩
  obtain ⟨h0, h1, h2, h3⟩ := State.frame_words (n := n) hm
  simp only [State.respond_obufWord, h0, h1, h2, h3, channelMap,
    Machine.slopePhaseChannels, State.channelValues, warpOf_eq, warpRule_eq]
  refine ⟨rfl, rfl, rfl, ?_, fun h => unit_wrapOnce (unit_sum (State.frame_out_legal h n).p h.par.shift)⟩
  rw [warpOrRest_u]
  rfl

/-- Settles O41: the four words are FREQUENCY's channels; f lies in [F_EPS, F_MAX] on both paths. -/
theorem frequencyChannels : Obligations.FrequencyChannels := by
  unfold Obligations.FrequencyChannels
  intro n s hn hm
  refine ⟨_, exec_step_next hn s, ?_⟩
  obtain ⟨h0, h1, h2, h3⟩ := State.frame_words (n := n) hm
  simp only [State.respond_obufWord, State.respond_gen, State.respond_fEff, State.frame_fEff, h0, h1, h2, h3,
    channelMap, Machine.frequencyChannels, State.channelValues, true_and]
  intro h
  have hf := (State.frame_out_legal h n).f
  have hy := State.frame_y_unit h hn
  obtain ⟨-, hn2, hx, hlo, hhi⟩ := (F32.within_iff _ _ _).mp (within_hertz hf h.sr)
  exact ⟨hf, (F32.lt_iff _ _).mpr ⟨by decide, hx, lt_of_lt_of_le (by decide) hlo⟩,
    (F32.le_iff _ _).mpr ⟨hx, hn2, hhi⟩, hy, within_of_absUnit (absUnit_sub hy h.par.shift)⟩

/-- Settles O43: the frame takes the clocked path (`State.clockedPath_frame`), whose table is R120's. -/
theorem clockedPath : Obligations.ClockedPath := by
  unfold Obligations.ClockedPath
  intro n s hn hc
  refine ⟨_, exec_step_next hn s, ?_⟩
  have hps := State.phaseSource_clocked (s := s.modeChange.detectEdges n) (by simpa using hc)
  obtain ⟨ho, hx⟩ := State.clockedPath_frame s n
  obtain ⟨hp, he, ha, hm, hq⟩ := State.clockedPath_rest (s.modeChange.detectEdges n)
  simp only [State.respond_mustReset, State.respond_qState, State.respond_ext, State.respond_fEff, State.respond_gen,
    State.frame_mustReset, State.frame_qState, State.frame_ext, State.frame_fEff, State.frame_gen, hps,
    ratio_eq_ratioTable]
  exact ⟨hm, by simpa using hq, hx, (frameOut_clocked hc n).trans ho, congrArg PhaseOut.f ho, hp, he, ha⟩

/-- Settles O52: at rest and untriggered, the ramp does not run, the advance keeps it, and the warp's rest closes both
gates. -/
theorem attackReleaseRest : Obligations.AttackReleaseRest := by
  unfold Obligations.AttackReleaseRest
  intro n s hn hc hm hpm hr hact htr
  have hmode : s.omode = s.prevOm := hm.trans hpm.symm
  obtain ⟨hp, -, ha⟩ := triggeredGen_fields s n
  rw [htr, if_neg (by simp)] at hp ha
  have hrun : (frameOut s n).running = false := by
    rw [frameOut_free hc hmode]
    simp [GenRegs.outputs, hr, ha, hact]
  obtain ⟨h0, h1, -, -⟩ := State.frame_words (n := n) hm
  refine ⟨_, exec_step_next hn s, ?_⟩
  rw [State.respond_gen, State.respond_obufWord, State.respond_obufWord, h0, h1, State.freePath_frame_gen hc hmode,
    GenRegs.advance_rests hr (ha.trans hact)]
  have hw : (s.channelValues n).warp = { u := Config.f0, rise := false } := warpOrRest_of_rest hrun _ _
  have hc1 : ((s.channelValues n).o.running && !(s.channelValues n).warp.rise) = false :=
    Bool.and_eq_false_imp.mpr fun h => absurd (hrun.symm.trans h) Bool.false_ne_true
  exact ⟨ha.trans hact, hp, hrun, congrArg (fun w : Warp => gateLevel w.rise) hw, congrArg gateLevel hc1⟩

/-! RENDER (R191). -/

/-- STEP commands one after another leave what the frames leave, but for the responses. -/
theorem steps_eq_frames (first count : Nat) (s : State) (h : first + count ≤ 1024) :
    ∃ r, steps first count s = some ((s.frames count first).withResponses r) := by
  induction count generalizing s first with
  | zero => exact ⟨s.responses, rfl⟩
  | succ k ih =>
    obtain ⟨r, hr⟩ := ih (first + 1) ((s.frame first).respond 0#32) (by omega)
    refine ⟨r, ?_⟩
    unfold steps
    rw [exec_step_next (by omega : first < 1024)]
    refine hr.trans (congrArg some ?_)
    rw [State.respond_eq_withResponses, State.withResponses_frames]
    rfl

/-- Settles O50: each STEP is its frame with one response, which no later frame reads. -/
theorem renderIsSteps : Obligations.RenderIsSteps := by
  unfold Obligations.RenderIsSteps
  refine ⟨fun s hb => ?_, fun n s hn => ?_, ?_⟩
  · obtain ⟨r, hr⟩ := steps_eq_frames 0 s.bs s (by omega)
    refine ⟨_, _, exec_render_next s, hr, ?_, fun a ha => ?_⟩
    · rw [← State.frames_responses (s := s) s.bs 0]
      rfl
    · exact State.obufWord_frames s s.bs 0 (.inr (by omega))
  · rw [exec_render_refused hn, raise_eq_raised]
  · exact encodedAs_imm (o := .render) rfl rfl fun _ _ => rfl

/-- Settles O51, by the laws of State over the frames of the block. -/
theorem renderFrame : Obligations.RenderFrame := by
  unfold Obligations.RenderFrame
  intro s
  refine ⟨_, exec_render_next s, ?_⟩
  simpa [ok] using State.frames_keep_free s.bs 0

/-- Settles O49: a frame of a legal state writes finite words, and the frames after it keep the state legal and those
words unwritten. -/
theorem finiteOutput : Obligations.FiniteOutput := by
  unfold Obligations.FiniteOutput
  intro s h
  refine ⟨fun n hn => ⟨_, exec_step_next hn s, fun k hk => ?_⟩, _, exec_render_next s, fun a ha => ?_⟩
  · rw [State.respond_obufWord]
    exact (State.frame_legal h hn).2 k hk
  · rw [State.respond_obufWord]
    exact State.frames_finite h (by simpa using h.bs.2) (by omega) (by omega)

/-- Settles O56: the warp at both ends of SLOPE, and the shape at both ends of u and at SHAPE = 0.5. -/
theorem transferCurveEnds : Obligations.TransferCurveEnds := by
  unfold Obligations.TransferCurveEnds
  refine ⟨fun p hp => ?_, fun h hh => ⟨shapeCurve_zero hh, shapeCurve_one hh⟩, fun u => val_shapeCurve_half⟩
  obtain ⟨hu, hr⟩ := warp_slope_zero hp
  exact ⟨hu, hr, warp_slope_one hp⟩

/-- Settles O25: each command writes its cleared registers and the response. -/
theorem partialResetResults : Obligations.PartialResetResults := by
  unfold Obligations.PartialResetResults
  exact ⟨fun _ => rfl, fun _ => rfl, fun _ => rfl, encodedAs_no_operand (o := .grst) rfl rfl fun _ => rfl,
    encodedAs_no_operand (o := .xrst) rfl rfl fun _ => rfl, encodedAs_no_operand (o := .qrst) rfl rfl fun _ => rfl⟩

end Sys2Proof.Statements

/-! PROOFS. The statements of spec/44_host_interface.md: the parameter setters (R230 to R236), INIT, NOP and CLRST
(R237 to R239), and the access commands (R240 to R242). What a command does is said once, by its equation of `exec`;
the operand tables and the conditions are the model's in the words of the statements. -/

namespace Sys2Proof.Machine

/-! The parameter registers (R230). -/

/-- The number WRP writes each parameter register by (R24). -/
def ParamReg.number : ParamReg → Nat
  | .freq => 1
  | .slope => 2
  | .shape => 3
  | .smooth => 4
  | .shift => 5
  | .ratioIn => 6

@[simp] theorem ParamReg.ofSel_number (r : ParamReg) : ParamReg.ofSel r.number = some r := by cases r <;> rfl

theorem ParamReg.exists_number {n : Nat} (h1 : 1 ≤ n) (h6 : n ≤ 6) : ∃ r : ParamReg, r.number = n := by
  interval_cases n
  exacts [⟨.freq, rfl⟩, ⟨.slope, rfl⟩, ⟨.shape, rfl⟩, ⟨.smooth, rfl⟩, ⟨.shift, rfl⟩, ⟨.ratioIn, rfl⟩]

theorem ParamReg.ofSel_eq_none {n : Nat} (h : n < 1 ∨ 6 < n) : ParamReg.ofSel n = none := by
  unfold ParamReg.ofSel
  split
  case h_7 => rfl
  all_goals omega

theorem exec_wrp_next (r : ParamReg) (w : Word) (s : State) :
    exec (.wrp r.number w) s = .next (State.respond { s with par := s.par.write r w } 0#32) := by
  simp only [exec, execWrp, ParamReg.ofSel_number]

theorem exec_wrp_refused {n : Nat} (h : n < 1 ∨ 6 < n) (w : Word) (s : State) :
    exec (.wrp n w) s = .next (s.raise .badIndex) := by
  simp only [exec, execWrp, ParamReg.ofSel_eq_none h]

/-! The mode codes (R234 to R236). -/

theorem OutMode.code_ofImm (n : Nat) : (OutMode.ofImm n).code = if 1 ≤ n ∧ n ≤ 4 then n else 1 := by
  match n with
  | 0 | 1 | 2 | 3 | 4 => rfl
  | n + 5 => exact (if_neg (by omega)).symm

theorem RampMode.code_ofImm (n : Nat) : (RampMode.ofImm n).code = if n ≤ 2 then n else 0 := by
  match n with
  | 0 | 1 | 2 => rfl
  | n + 3 => exact (if_neg (by omega)).symm

theorem FreqRange.code_ofImm (n : Nat) : (FreqRange.ofImm n).code = if n ≤ 2 then n else 1 := by
  match n with
  | 0 | 1 | 2 => rfl
  | n + 3 => exact (if_neg (by omega)).symm

/-! CLKC (R233). -/

/-- Only a connection, CLKCONN from 0 to 1, sets MUST_RESET. -/
theorem exec_clkc_next (c : Bool) (s : State) :
    exec (.clkc c) s = .next (State.respond { s with
      clkConn := c
      mustReset := if s.clkConn = false ∧ c = true then true else s.mustReset } 0#32) := by
  have h : (s.mustReset || (!s.clkConn && c)) = if s.clkConn = false ∧ c = true then true else s.mustReset := by
    split
    · next hc => simp [hc]
    · next hc => simpa using fun h0 h1 => absurd ⟨h0, h1⟩ hc
  rw [← h]
  rfl

/-! The sample rate (R231, R237) and the block size (R232). -/

theorem exec_init_next {w : Word} (h : badRate w = false) (s : State) :
    exec (.init w) s = .next (State.respond { s.hardwareReset with
      sr := clampRate w
      xRecs := recoverySamples Config.trDefault (clampRate w) } 0#32) :=
  if_neg (by simp [h])

theorem exec_init_refused {w : Word} (h : badRate w = true) (s : State) :
    exec (.init w) s = .next (s.raise .badArg) := if_pos h

theorem exec_srate_next {w : Word} (h : badRate w = false) (s : State) :
    exec (.srate w) s = .next (State.respond
      { s with sr := clampRate w, xRecs := recoverySamples s.tr (clampRate w), mustReset := true } 0#32) :=
  if_neg (by simp [h])

theorem exec_srate_refused {w : Word} (h : badRate w = true) (s : State) :
    exec (.srate w) s = .next (s.raise .badArg) := if_pos h

theorem exec_bsize_next {n : Nat} (h1 : 1 ≤ n) (h : n ≤ Config.blockMax) (s : State) :
    exec (.bsize n) s = .next (State.respond { s with bs := n, mustReset := true } 0#32) :=
  if_neg (by omega)

theorem exec_bsize_refused {n : Nat} (h : n < 1 ∨ Config.blockMax < n) (s : State) :
    exec (.bsize n) s = .next (s.raise .badArg) := if_pos h

/-! The buffers (R240, R241). -/

theorem exec_wrin_next {a : Nat} (h : a < Config.ibufWords) (w : Word) (s : State) :
    exec (.wrin a w) s = .next ((s.writeIbuf a w).respond 0#32) := if_neg (Nat.not_le.mpr h)

theorem exec_wrin_refused {a : Nat} (h : Config.ibufWords ≤ a) (w : Word) (s : State) :
    exec (.wrin a w) s = .next (s.raise .badAddr) := if_pos h

theorem exec_rdout_next {a : Nat} (h : a < Config.obufWords) (s : State) :
    exec (.rdout a) s = .next (s.respond (s.obufWord a)) := if_neg (Nat.not_le.mpr h)

theorem exec_rdout_refused {a : Nat} (h : Config.obufWords ≤ a) (s : State) :
    exec (.rdout a) s = .next (s.raise .badAddr) := if_pos h

/-! The register numbers of RDREG (R24, R242). -/

@[simp] theorem Reg.ofSel_sel (r : Reg) : Reg.ofSel r.sel = some r := by cases r <;> rfl

theorem Reg.exists_sel : ∀ n < 0x22, n ≠ 0x17 → ∃ r ∈ Reg.all, r.sel = n := by decide

theorem Reg.sel_mapped : ∀ r ∈ Reg.all, r.sel < 0x22 ∧ r.sel ≠ 0x17 := by decide

theorem Reg.ofSel_eq_none {n : Nat} (h : n = 0x17 ∨ 0x22 ≤ n) : Reg.ofSel n = none := by
  refine List.find?_eq_none.mpr fun r hr hn => ?_
  obtain ⟨hlt, hne⟩ := Reg.sel_mapped r hr
  have := beq_iff_eq.mp hn
  omega

theorem exec_rdreg_next (r : Reg) (s : State) : exec (.rdreg r.sel) s = .next (s.respond (s.readReg r)) := by
  simp only [exec, execRdreg, Reg.ofSel_sel]

theorem exec_rdreg_refused {n : Nat} (h : n = 0x17 ∨ 0x22 ≤ n) (s : State) :
    exec (.rdreg n) s = .next (s.raise .badIndex) := by
  simp only [exec, execRdreg, Reg.ofSel_eq_none h]

end Sys2Proof.Machine

namespace Sys2Proof.Statements

open Sys2Proof.Machine

/-! The statements' values are the model's. -/

theorem badRate_iff (w : Word) : badRate w = true ↔ rateRefused w := by
  simp only [badRate, rateRefused, Bool.or_eq_true, or_assoc]

theorem badRate_of_not_refused {w : Word} (h : ¬ rateRefused w) : badRate w = false :=
  Bool.eq_false_iff.mpr fun hb => h ((badRate_iff w).mp hb)

/-- A parameter write stores the sanitized value in its own register and keeps the five others (R230). -/
theorem param_write (p : ParamRegs) (r : ParamReg) (w : Word) (q : ParamReg) :
    param (p.write r w) q.number = if q = r then paramValue r.number w else param p q.number := by
  cases r <;> cases q <;> rfl

/-- The register list is the model's register map, number by number. -/
theorem registers_eq (s : State) : registers s = Reg.all.map fun r => (r.sel, s.readReg r) := by
  have hbit : ∀ b, bit b = zextBool b := by decide
  simp only [registers, Reg.all, Reg.sel, List.map_cons, List.map_nil, List.cons_append, List.nil_append,
    List.cons.injEq, Prod.mk.injEq, true_and, and_true]
  -- one equation per register, in the order of the numbers
  exact ⟨rfl, rfl, rfl, rfl, rfl, rfl, rfl,
    by change _ = BitVec.ofNat 32 s.omode.code; cases s.omode <;> rfl,
    by change _ = BitVec.ofNat 32 s.rmode.code; cases s.rmode <;> rfl,
    by change _ = BitVec.ofNat 32 s.range.code; cases s.range <;> rfl,
    rfl, rfl, hbit _, rfl, hbit _,
    by change _ = BitVec.ofNat 32 s.prevOm.code; cases s.prevOm <;> rfl,
    rfl, hbit _, hbit _, rfl,
    by change _ = BitVec.ofNat 32 s.trigFlag.code; cases s.trigFlag <;> rfl,
    by change _ = BitVec.ofNat 32 s.clkFlag.code; cases s.clkFlag <;> rfl,
    rfl, rfl, rfl, rfl, hbit _, hbit _, hbit _, hbit _, rfl, rfl, rfl⟩

/-! The encodings. -/

/-- Every IMM field is below 2^16, so a bound of 2^16 on it restricts nothing (R82). -/
theorem encodedAs_of_imm_lt {o : Nat} {legal : Nat → Nat → Prop} {i : Nat → Nat → Word → Instr}
    (h : encodedAs o (fun sel imm => legal sel imm ∧ imm < 2 ^ 16) i) : encodedAs o legal i := by
  intro cmd w s hop
  have himm : imm cmd < 2 ^ 16 := Nat.mod_lt _ (by decide)
  obtain ⟨hrun, hill⟩ := h cmd w s hop
  exact ⟨fun hl => hrun ⟨hl, himm⟩, fun hl => hill fun hc => hl hc.1⟩

/-- A command that reads the data word and neither operand field (R84, R85). -/
theorem encodedAs_data {o : Opcode} (hs : o.usesSel = false) (hi : o.immBits = 0) {i : Word → Instr}
    (hb : ∀ w, o.build 0 0 w = i w) : encodedAs o.code (fun sel imm => sel = 0 ∧ imm = 0) (fun _ _ w => i w) := by
  refine encodedAs_of_build (fun sel imm => by simp [hs, hi]) ?_
  rintro sel imm w ⟨rfl, rfl⟩
  exact hb w

/-- A command whose operand is SEL and which does not use IMM (R85). -/
theorem encodedAs_sel {o : Opcode} (hs : o.usesSel = true) (hi : o.immBits = 0) {i : Nat → Word → Instr}
    (hb : ∀ sel w, o.build sel 0 w = i sel w) : encodedAs o.code (fun _ imm => imm = 0) (fun sel _ w => i sel w) := by
  refine encodedAs_of_build (fun sel imm => by simp [hs, hi]) ?_
  rintro sel imm w rfl
  exact hb sel w

theorem encodedAs_clkc : encodedAs 0x05 (fun sel imm => sel = 0 ∧ imm < 2) (fun _ imm _ => .clkc (imm == 1)) := by
  refine encodedAs_of_build (o := .clkc) (fun sel imm => by simp [Opcode.usesSel, Opcode.immBits]) ?_
  rintro sel imm w ⟨-, hi⟩
  interval_cases imm <;> rfl

theorem encodedAs_clrst :
    encodedAs 0x0F (fun sel imm => sel = 0 ∧ imm < 32) (fun _ imm _ => .clrst (BitVec.ofNat 5 imm)) :=
  encodedAs_of_build (o := .clrst) (fun sel imm => by simp [Opcode.usesSel, Opcode.immBits]) fun _ _ _ _ => rfl

theorem encodedAs_wrin : encodedAs 0x30 (fun sel _ => sel = 0) (fun _ imm w => .wrin imm w) :=
  encodedAs_of_imm_lt <| encodedAs_of_build (o := .wrin)
    (fun sel imm => by simp [Opcode.usesSel, Opcode.immBits]) fun _ _ _ _ => rfl

/-! The results. -/

/-- Settles O29: the written word reads back and every other word is kept, by `State.ibufWord_writeIbuf`. -/
theorem wrinResult : Obligations.WrinResult := by
  unfold Obligations.WrinResult
  refine ⟨fun a w s ha => ⟨_, exec_wrin_next ha w s, rfl, ?_⟩, fun a w s ha => ?_, encodedAs_wrin⟩
  · intro b
    rw [State.respond_ibufWord]
    exact State.ibufWord_writeIbuf s a w b
  · rw [exec_wrin_refused ha, raise_eq_raised]

/-- Settles O31: the register list is the model's register map, and the map's numbers are those below 0x22 but 0x17. -/
theorem rdregResult : Obligations.RdregResult := by
  unfold Obligations.RdregResult
  refine ⟨fun s p hp => ?_, fun n s hn h17 => ?_, fun n s hn => ?_,
    encodedAs_sel (o := .rdreg) rfl rfl fun _ _ => rfl⟩
  · rw [registers_eq] at hp
    obtain ⟨r, -, rfl⟩ := List.mem_map.mp hp
    exact exec_rdreg_next r s
  · obtain ⟨r, hr, rfl⟩ := Reg.exists_sel n hn h17
    rw [registers_eq]
    exact ⟨s.readReg r, List.mem_map_of_mem hr⟩
  · rw [exec_rdreg_refused hn, raise_eq_raised]

/-- Settles O17: NOP writes nothing but its response. -/
theorem nopResult : Obligations.NopResult := by
  unfold Obligations.NopResult
  exact ⟨fun _ => rfl, encodedAs_no_operand (o := .nop) rfl rfl fun _ => rfl⟩

/-- Settles O18: the numbers 1 to 6 are those of the parameter registers, each written apart by `param_write`. -/
theorem wrpResult : Obligations.WrpResult := by
  unfold Obligations.WrpResult
  refine ⟨fun n w s h1 h6 => ?_, fun n w s hn => ?_, encodedAs_sel (o := .wrp) rfl rfl fun _ _ => rfl⟩
  · obtain ⟨r, rfl⟩ := ParamReg.exists_number h1 h6
    refine ⟨s.par.write r w, exec_wrp_next r w s, ?_, fun m hm1 hm6 hm => ?_⟩
    · rw [param_write, if_pos rfl]
    · obtain ⟨q, rfl⟩ := ParamReg.exists_number hm1 hm6
      rw [param_write, if_neg (ne_of_apply_ne _ hm)]
  · rw [exec_wrp_refused hn, raise_eq_raised]

/-- Settles O19: each setter stores the mode of its code, and the mode's code is the code given or the default. -/
theorem modeSetterResults : Obligations.ModeSetterResults := by
  unfold Obligations.ModeSetterResults
  exact ⟨fun n s => ⟨.ofImm n, rfl, OutMode.code_ofImm n⟩, fun n s => ⟨.ofImm n, rfl, RampMode.code_ofImm n⟩,
    fun n s => ⟨.ofImm n, rfl, FreqRange.code_ofImm n⟩, encodedAs_imm (o := .setom) rfl rfl fun _ _ => rfl,
    encodedAs_imm (o := .setrm) rfl rfl fun _ _ => rfl, encodedAs_imm (o := .setrg) rfl rfl fun _ _ => rfl⟩

/-- Settles O20, by CLKC's equation. -/
theorem clkcResult : Obligations.ClkcResult := by
  unfold Obligations.ClkcResult
  exact ⟨exec_clkc_next, encodedAs_clkc⟩

/-- Settles O21: an accepted INIT is hardware reset with the rate's two registers, whose values R290 gives. -/
theorem initResult : Obligations.InitResult := by
  unfold Obligations.InitResult
  refine ⟨fun w s h => exec_init_next (badRate_of_not_refused h) s, fun w s h => ?_,
    encodedAs_data (o := .init) rfl rfl fun _ => rfl⟩
  rw [exec_init_refused ((badRate_iff w).mpr h), raise_eq_raised]

/-- Settles O22: the rate is refused on the statement's condition, and SRATE's equation gives the rest. -/
theorem srateResult : Obligations.SrateResult := by
  unfold Obligations.SrateResult
  refine ⟨fun w s h => exec_srate_next (badRate_of_not_refused h) s, fun w s h => ?_,
    encodedAs_data (o := .srate) rfl rfl fun _ => rfl⟩
  rw [exec_srate_refused ((badRate_iff w).mpr h), raise_eq_raised]

/-- Settles O23, by BSIZE's two equations. -/
theorem bsizeResult : Obligations.BsizeResult := by
  unfold Obligations.BsizeResult
  refine ⟨fun n s h1 h => exec_bsize_next h1 h s, fun n s h => ?_, encodedAs_imm (o := .bsize) rfl rfl fun _ _ => rfl⟩
  rw [exec_bsize_refused h, raise_eq_raised]

/-- Settles O26: CLRST keeps the bits of STATUS that its mask does not hold. -/
theorem clrstResult : Obligations.ClrstResult := by
  unfold Obligations.ClrstResult
  refine ⟨fun m s => ⟨_, rfl, rfl, fun k hk => ?_⟩, encodedAs_clrst⟩
  rw [State.respond_status]
  simp [hk]

/-- Settles O30, by RDOUT's two equations. -/
theorem rdoutResult : Obligations.RdoutResult := by
  unfold Obligations.RdoutResult
  refine ⟨fun a s ha => exec_rdout_next ha s, fun a s ha => ?_, encodedAs_imm (o := .rdout) rfl rfl fun _ _ => rfl⟩
  rw [exec_rdout_refused ha, raise_eq_raised]

end Sys2Proof.Statements

/-! PROOFS. The statements of spec/60_exceptions.md: the illegal words (R271), the causes of the four other errors (R272
to R275), STATUS and the response (R270), and that no step stops (R277, R282). `Raises` lists the causes once; a command
with none of them answers, and from STATUS = 0 the bit that is set names the error. -/

namespace Sys2Proof.Machine

/-! The causes of the errors (R272 to R275). -/

/-- `Raises i s e`: one of the causes that the rules list for the error `e` holds of the command `i` in `s`. -/
inductive Raises : Instr → State → ErrorKind → Prop
  | wrp {s : State} {n : Nat} {w : Word} (h : n < 1 ∨ 6 < n) : Raises (.wrp n w) s .badIndex
  | rdreg {s : State} {n : Nat} (h : n = 0x17 ∨ 0x22 ≤ n) : Raises (.rdreg n) s .badIndex
  | init {s : State} {w : Word} (h : badRate w = true) : Raises (.init w) s .badArg
  | srate {s : State} {w : Word} (h : badRate w = true) : Raises (.srate w) s .badArg
  | xinit {s : State} {w : Word} (h : F32.isNaN w = true ∨ F32.lt w Config.f0 = true) : Raises (.xinit w) s .badArg
  | bsize {s : State} {n : Nat} (h : n < 1 ∨ Config.blockMax < n) : Raises (.bsize n) s .badArg
  | wrin {s : State} {a : Nat} {w : Word} (h : Config.ibufWords ≤ a) : Raises (.wrin a w) s .badAddr
  | rdout {s : State} {a : Nat} (h : Config.obufWords ≤ a) : Raises (.rdout a) s .badAddr
  | step {s : State} {n : Nat} (h : Config.blockMax ≤ n) : Raises (.step n) s .badAddr
  | render {s : State} {n : Nat} (h : n ≠ s.bs) : Raises (.render n) s .blockMismatch

theorem Raises.exec_eq {i : Instr} {s : State} {e : ErrorKind} (h : Raises i s e) : exec i s = .next (s.raise e) := by
  cases h with
  | wrp h => exact exec_wrp_refused h _ s
  | rdreg h => exact exec_rdreg_refused h s
  | init h => exact exec_init_refused h s
  | srate h => exact exec_srate_refused h s
  | xinit h => exact exec_xinit_refused h s
  | bsize h => exact exec_bsize_refused h s
  | wrin h => exact exec_wrin_refused h _ s
  | rdout h => exact exec_rdout_refused h s
  | step h => exact exec_step_refused h s
  | render h => exact exec_render_refused h

/-- A command that none of the rules lets raise answers with err = 0 (R270). -/
theorem raises_or_responds (i : Instr) (s : State) :
    (∃ e, Raises i s e) ∨ ∃ (u : State) (rdata : Word), exec i s = .next (u.respond rdata) := by
  cases i with
  | nop | setom | setrm | setrg | clkc | grst | xrst | qrst | clrst | gedet | quant => exact .inr ⟨_, _, rfl⟩
  | wrp n w =>
    by_cases h : n < 1 ∨ 6 < n
    · exact .inl ⟨_, .wrp h⟩
    · obtain ⟨r, rfl⟩ := ParamReg.exists_number (n := n) (by omega) (by omega)
      exact .inr ⟨_, _, exec_wrp_next r w s⟩
  | rdreg n =>
    by_cases h : n = 0x17 ∨ 0x22 ≤ n
    · exact .inl ⟨_, .rdreg h⟩
    · obtain ⟨r, -, rfl⟩ := Reg.exists_sel n (by omega) (by omega)
      exact .inr ⟨_, _, exec_rdreg_next r s⟩
  | init w =>
    cases h : badRate w with
    | true => exact .inl ⟨_, .init h⟩
    | false => exact .inr ⟨_, _, exec_init_next h s⟩
  | srate w =>
    cases h : badRate w with
    | true => exact .inl ⟨_, .srate h⟩
    | false => exact .inr ⟨_, _, exec_srate_next h s⟩
  | xinit w =>
    by_cases h : F32.isNaN w = true ∨ F32.lt w Config.f0 = true
    · exact .inl ⟨_, .xinit h⟩
    · obtain ⟨hn, h0⟩ := not_or.mp h
      exact .inr ⟨_, _, exec_xinit_next (Bool.eq_false_iff.mpr hn) (Bool.eq_false_iff.mpr h0) s⟩
  | bsize n =>
    by_cases h : n < 1 ∨ Config.blockMax < n
    · exact .inl ⟨_, .bsize h⟩
    · exact .inr ⟨_, _, exec_bsize_next (by omega) (by omega) s⟩
  | wrin a w =>
    exact (Nat.lt_or_ge a Config.ibufWords).elim (fun h => .inr ⟨_, _, exec_wrin_next h w s⟩) fun h => .inl ⟨_, .wrin h⟩
  | rdout a =>
    exact (Nat.lt_or_ge a Config.obufWords).elim (fun h => .inr ⟨_, _, exec_rdout_next h s⟩) fun h => .inl ⟨_, .rdout h⟩
  | step n =>
    exact (Nat.lt_or_ge n Config.blockMax).elim (fun h => .inr ⟨_, _, exec_step_next h s⟩) fun h => .inl ⟨_, .step h⟩
  | render n =>
    by_cases h : n = s.bs
    · exact .inr ⟨_, _, h ▸ exec_render_next s⟩
    · exact .inl ⟨_, .render h⟩

/-- Each error has a STATUS bit of its own (R270). -/
theorem ErrorKind.bit_injective : Function.Injective ErrorKind.bit := fun a b => by
  cases a <;> cases b <;> decide

/-- From STATUS = 0 the state after a raise tells the error. -/
theorem State.raise_inj {s : State} (hs : s.status = 0#5) {e e' : ErrorKind} (h : s.raise e = s.raise e') : e = e' := by
  have hst := congrArg State.status h
  rw [raise_status, raise_status, hs, BitVec.zero_or, BitVec.zero_or] at hst
  exact ErrorKind.bit_injective hst

/-- An answer has err = 0 and a raise err = 1 (R80, R12). -/
theorem State.respond_ne_raise (u : State) (rdata : Word) (s : State) (e : ErrorKind) :
    u.respond rdata ≠ s.raise e := by
  intro h
  have hr := congrArg State.responses h
  simp at hr

/-- Seen from STATUS = 0, a command raises an error only under one of its causes. -/
theorem raises_of_exec {i : Instr} {s : State} {e : ErrorKind} (hs : s.status = 0#5)
    (h : exec i s = .next (s.raise e)) : Raises i s e := by
  rcases raises_or_responds i s with ⟨e', he⟩ | ⟨u, rdata, hu⟩
  · rw [he.exec_eq, Host.Outcome.next.injEq] at h
    exact State.raise_inj hs h ▸ he
  · rw [hu, Host.Outcome.next.injEq] at h
    exact absurd h (State.respond_ne_raise u rdata s e)

/-! What an accepted command does to STATUS and the responses (R270). -/

theorem Accepted.responses_eq {i : Instr} {s u : State} (h : Accepted i s u) : u.responses = s.responses := by
  cases h with
  -- the responses are no part of what these write
  | nop | wrp | setom | setrm | setrg | clkc | srate | bsize | qrst | clrst | gedet | quant | rdout | rdreg => rfl
  -- the resets and the two buffers' writers keep them by the laws of State
  | init | xinit | grst | xrst | wrin | step | render => simp

theorem Accepted.status_eq {i : Instr} {s u : State} (h : Accepted i s u) (hi : i.opcode ≠ .init)
    (hc : i.opcode ≠ .clrst) : u.status = s.status := by
  cases h with
  | init => exact absurd rfl hi
  | clrst => exact absurd rfl hc
  -- STATUS is no part of what these write
  | nop | wrp | setom | setrm | setrg | clkc | srate | bsize | qrst | gedet | quant | rdout | rdreg => rfl
  -- the partial resets and the two buffers' writers keep it by the laws of State
  | xinit | grst | xrst | wrin | step | render => simp

theorem Accepted.status_init {w : Word} {s u : State} (h : Accepted (.init w) s u) : u.status = 0#5 := by
  cases h
  rfl

theorem Accepted.status_clrst {mask : BitVec 5} {s u : State} (h : Accepted (.clrst mask) s u) :
    u.status = s.status &&& ~~~mask := by
  cases h
  rfl

/-- A command word raises an error, or it decodes to a command that is accepted and answers. -/
theorem runCommand_answers (cmd w : Word) (s : State) :
    (∃ e, runCommand cmd w s = .next (s.raise e)) ∨ ∃ (i : Instr) (u : State) (rdata : Word),
      decode cmd w = .ok i ∧ Accepted i s u ∧ runCommand cmd w s = .next (u.respond rdata) := by
  cases hd : decode cmd w with
  | error => exact .inl ⟨_, runCommand_error hd s⟩
  | ok i =>
    obtain ⟨t, ht, ha⟩ := exec_answered i s
    rw [← runCommand_ok hd] at ht
    cases ha with
    | raised e => exact .inl ⟨e, ht⟩
    | accepted rdata ha => exact .inr ⟨i, _, rdata, rfl, ha, ht⟩

theorem exists_next_of_runCommand (cmd w : Word) (s : State) : ∃ t, runCommand cmd w s = .next t := by
  rcases runCommand_answers cmd w s with ⟨e, h⟩ | ⟨i, u, rdata, -, -, h⟩
  · exact ⟨_, h⟩
  · exact ⟨_, h⟩

end Sys2Proof.Machine

namespace Sys2Proof.Statements

open Sys2Proof.Machine

/-! The words that are not illegal (R271). -/

/-- What R86 says of SEL, as the decoder checks it. -/
theorem sel_of_not_illegal {cmd : Word} {o : Opcode} (h : ¬ illegal cmd) (hop : op cmd = o.code) :
    sel cmd = 0 ∨ o.usesSel = true := by
  refine or_iff_not_imp_left.mpr fun h0 => ?_
  have hc : o.code = 0x01 ∨ o.code = 0x32 := by
    by_contra hn
    obtain ⟨h1, h32⟩ := not_or.mp hn
    exact h (.inr (.inl ⟨h0, hop ▸ h1, hop ▸ h32⟩))
  rcases hc with h1 | h32
  · obtain rfl : o = .wrp := Opcode.code_injective h1
    rfl
  · obtain rfl : o = .rdreg := Opcode.code_injective h32
    rfl

/-- What R86 says of IMM, as the decoder checks it. -/
theorem imm_of_not_illegal {cmd : Word} {o : Opcode} (h : ¬ illegal cmd) (hop : op cmd = o.code) :
    imm cmd < 2 ^ o.immBits := by
  by_contra hb
  rw [Nat.not_lt] at hb
  cases o with
  -- IMM is not used
  | nop | wrp | init | srate | xinit | grst | xrst | qrst | quant | rdreg =>
    exact h (.inr (.inr (.inl ⟨Nat.one_le_iff_ne_zero.mp hb, hop ▸ by decide⟩)))
  -- all of IMM is used
  | setom | setrm | setrg | bsize | step | render | wrin | rdout =>
    exact absurd (Nat.mod_lt cmd.toNat (by decide)) (Nat.not_lt.mpr hb)
  -- the low bits of IMM are used
  | clkc => exact h (.inr (.inr (.inr (.inl ⟨hop, hb⟩))))
  | clrst => exact h (.inr (.inr (.inr (.inr (.inl ⟨hop, hb⟩)))))
  | gedet => exact h (.inr (.inr (.inr (.inr (.inr ⟨hop, hb⟩)))))

/-- The converse of `not_illegal_of_decode`. -/
theorem decode_of_not_illegal {cmd : Word} (h : ¬ illegal cmd) (w : Word) :
    ∃ i, decode cmd w = .ok i ∧ i.wellFormed = true := by
  cases ho : Opcode.ofCode (opField cmd) with
  | none =>
    have hr := (ofCode_eq_none_iff (opField_lt cmd)).mp ho
    rw [opField_eq] at hr
    exact absurd (.inl hr) h
  | some o =>
    have hop : opField cmd = o.code := (Opcode.code_of_ofCode ho).symm
    have hs := sel_of_not_illegal h ((opField_eq cmd).symm.trans hop)
    have hi := imm_of_not_illegal h ((opField_eq cmd).symm.trans hop)
    exact ⟨_, decode_of_checks hop ((selField_eq cmd).symm ▸ hs) ((immField_eq cmd).symm ▸ hi) w,
      Opcode.wellFormed_build (selField_lt cmd) (immField_lt cmd)⟩

/-- Settles O4: the legal words are those that pass the decoder's checks. -/
theorem illegalWordsRaise : Obligations.IllegalWordsRaise := by
  unfold Obligations.IllegalWordsRaise
  refine fun cmd w s => ⟨fun h => runCommand_of_illegal h w s, fun h => ?_⟩
  obtain ⟨i, hd, hw⟩ := decode_of_not_illegal h w
  exact ⟨i, hd, hw, runCommand_ok hd s⟩

/-! The statements' causes are those of `Raises`. -/

theorem raises_badIndex_iff (i : Instr) (s : State) : Raises i s .badIndex ↔
    (∃ n w, i = .wrp n w ∧ (n < 1 ∨ 6 < n)) ∨ (∃ n, i = .rdreg n ∧ (n = 0x17 ∨ 0x22 ≤ n)) := by
  constructor
  · intro h
    cases h with
    | wrp h => exact .inl ⟨_, _, rfl, h⟩
    | rdreg h => exact .inr ⟨_, rfl, h⟩
  · rintro (⟨n, w, rfl, h⟩ | ⟨n, rfl, h⟩)
    · exact .wrp h
    · exact .rdreg h

theorem raises_badArg_iff (i : Instr) (s : State) : Raises i s .badArg ↔
    (∃ w, (i = .init w ∨ i = .srate w) ∧ rateRefused w) ∨
      (∃ w, i = .xinit w ∧ (F32.isNaN w = true ∨ F32.lt w 0x00000000#32 = true)) ∨
      (∃ n, i = .bsize n ∧ (n = 0 ∨ 1024 < n)) := by
  constructor
  · intro h
    cases h with
    | init h => exact .inl ⟨_, .inl rfl, (badRate_iff _).mp h⟩
    | srate h => exact .inl ⟨_, .inr rfl, (badRate_iff _).mp h⟩
    | xinit h => exact .inr (.inl ⟨_, rfl, h⟩)
    | bsize h => exact .inr (.inr ⟨_, rfl, h.imp_left Nat.lt_one_iff.mp⟩)
  · rintro (⟨w, rfl | rfl, h⟩ | ⟨w, rfl, h⟩ | ⟨n, rfl, h⟩)
    · exact .init ((badRate_iff w).mpr h)
    · exact .srate ((badRate_iff w).mpr h)
    · exact .xinit h
    · exact .bsize (h.imp_left Nat.lt_one_iff.mpr)

theorem raises_badAddr_iff (i : Instr) (s : State) : Raises i s .badAddr ↔
    (∃ a w, i = .wrin a w ∧ 2048 ≤ a) ∨ (∃ a, i = .rdout a ∧ 4096 ≤ a) ∨ (∃ n, i = .step n ∧ 1024 ≤ n) := by
  constructor
  · intro h
    cases h with
    | wrin h => exact .inl ⟨_, _, rfl, h⟩
    | rdout h => exact .inr (.inl ⟨_, rfl, h⟩)
    | step h => exact .inr (.inr ⟨_, rfl, h⟩)
  · rintro (⟨a, w, rfl, h⟩ | ⟨a, rfl, h⟩ | ⟨n, rfl, h⟩)
    · exact .wrin h
    · exact .rdout h
    · exact .step h

theorem raises_blockMismatch_iff (i : Instr) (s : State) :
    Raises i s .blockMismatch ↔ ∃ n, i = .render n ∧ n ≠ s.bs := by
  constructor
  · intro h
    cases h with
    | render h => exact ⟨_, rfl, h⟩
  · rintro ⟨n, rfl, h⟩
    exact .render h

theorem raisesExactly_of_iff {e : ErrorKind} {i : Instr} {s : State} {cause : Prop} (h : Raises i s e ↔ cause) :
    raisesExactly e i s cause := by
  unfold raisesExactly
  rw [← h, ← raise_eq_raised]
  exact ⟨Raises.exec_eq, raises_of_exec⟩

/-- Settles O14: the causes are those of `Raises`, under which the command raises, and without which it answers. -/
theorem errorCauses : Obligations.ErrorCauses := by
  unfold Obligations.ErrorCauses
  exact fun i s => ⟨raisesExactly_of_iff (raises_badIndex_iff i s), raisesExactly_of_iff (raises_badArg_iff i s),
    raisesExactly_of_iff (raises_badAddr_iff i s), raisesExactly_of_iff (raises_blockMismatch_iff i s)⟩

/-! STATUS and the response (R270). -/

/-- RDREG of register 0x00 gives the five bits of STATUS, zero-extended. -/
theorem exec_rdreg_status (t : State) :
    exec (.rdreg 0x00) t = .next { t with responses := ok (t.status.setWidth 32) :: t.responses } :=
  exec_rdreg_next .status t

/-- What an accepted command does to STATUS, by the opcode of its word. -/
theorem status_of_accepted {cmd w : Word} {i : Instr} {s u : State} (hd : decode cmd w = .ok i)
    (ha : Accepted i s u) :
    (op cmd ≠ 0x08 → op cmd ≠ 0x0F → u.status = s.status) ∧ (op cmd = 0x08 → u.status = 0#5) ∧
      (op cmd = 0x0F → u.status = s.status &&& ~~~(BitVec.ofNat 5 (imm cmd))) := by
  obtain ⟨o, ho, -, -, rfl⟩ := decode_ok hd
  rw [show op cmd = o.code from (opField_eq cmd).symm.trans ho, show imm cmd = immField cmd from (immField_eq cmd).symm]
  refine ⟨fun h8 hf => ha.status_eq ?_ ?_, fun h8 => ?_, fun hf => ?_⟩
  · intro hi
    rw [Opcode.opcode_build] at hi
    exact h8 (congrArg Opcode.code hi)
  · intro hc
    rw [Opcode.opcode_build] at hc
    exact hf (congrArg Opcode.code hc)
  · obtain rfl : o = .init := Opcode.code_injective h8
    exact ha.status_init
  · obtain rfl : o = .clrst := Opcode.code_injective hf
    exact ha.status_clrst

/-- Settles O13: a word that raises gives the error's response, and an accepted command writes STATUS by its opcode. -/
theorem statusAndResponse : Obligations.StatusAndResponse := by
  unfold Obligations.StatusAndResponse
  intro s cmd w
  rcases runCommand_answers cmd w s with ⟨e, h⟩ | ⟨i, u, rdata, hd, ha, h⟩
  · refine ⟨_, refusal, h, rfl, fun _ => ⟨rfl, e, raise_eq_raised s e⟩, ?_, ?_, ?_, exec_rdreg_status _⟩
    all_goals exact fun hr => absurd hr (by decide)
  · obtain ⟨hkept, hinit, hclrst⟩ := status_of_accepted hd ha
    refine ⟨_, ok rdata, h, congrArg (ok rdata :: ·) ha.responses_eq, fun hr => ?_, fun _ => hkept, fun _ => hinit,
      fun _ => hclrst, exec_rdreg_status _⟩
    exact absurd hr Bool.false_ne_true

/-! No step stops (R277, R282). -/

/-- Settles O7: nothing is taken from an empty port. -/
theorem idleStepKeepsState : Obligations.IdleStepKeepsState := by
  unfold Obligations.IdleStepKeepsState
  exact fun s h => step_idle h

/-- Settles O12: every command raises or answers, and a step runs a command word, resets or idles. -/
theorem everyStepAnswersNext : Obligations.EveryStepAnswersNext := by
  unfold Obligations.EveryStepAnswersNext
  refine ⟨fun i s => ?_, fun s => ?_⟩
  · obtain ⟨t, ht, -⟩ := exec_answered i s
    exact ⟨t, ht⟩
  · match hp : s.pending with
    | [] => exact ⟨s, step_idle hp⟩
    | .hardwareReset :: rest => exact ⟨_, step_hardwareReset hp⟩
    | .command cmd w :: rest =>
      rw [step_command hp]
      exact exists_next_of_runCommand cmd w _

end Sys2Proof.Statements

/-! PROOFS. The statements of spec/70_reset_and_hazards.md: the reset values after hardware reset, after INIT and after
the reset input (R290), and the deferred mode-change reset (R293). Register by register, RDREG reads after a reset what
it reads in the reset state; a frame depends on the output modes and the generator only through `modeChange`. -/

namespace Sys2Proof.Machine

namespace State

/-! The reset (R290, R237). -/

theorem readReg_hardwareReset (s : State) (r : Reg) : s.hardwareReset.readReg r = State.reset.readReg r := by
  cases r <;> rfl

theorem readReg_respond (s : State) (w : Word) (r : Reg) : (s.respond w).readReg r = s.readReg r := by
  cases r <;> rfl

/-- A rate and its recovery time are read back by their own two registers only. -/
theorem readReg_withRate {r : Reg} (hr : r ≠ .sr) (hx : r ≠ .xRecs) (s : State) (rate recs : Word) :
    State.readReg { s with sr := rate, xRecs := recs } r = s.readReg r := by
  cases r with
  | sr => exact absurd rfl hr
  | xRecs => exact absurd rfl hx
  | _ => rfl

/-! The mode change (R293). -/

/-- A mode change is made once: a frame after it makes no other. -/
theorem modeChange_modeChange (s : State) : s.modeChange.modeChange = s.modeChange :=
  modeChange_of_eq (by simp)

theorem frame_modeChange (s : State) (n : Nat) : s.modeChange.frame n = s.frame n := by
  simp only [frame, modeChange_modeChange]

end State

theorem exec_step_modeChange {n : Nat} (h : n < Config.blockMax) (s : State) :
    exec (.step n) s.modeChange = exec (.step n) s := by
  rw [exec_step_next h, exec_step_next h, State.frame_modeChange]

theorem exec_setom_next (k : Nat) (s : State) :
    exec (.setom k) s = .next (State.respond { s with omode := OutMode.ofImm k } 0#32) := rfl

end Sys2Proof.Machine

namespace Sys2Proof.Statements

open Sys2Proof.Machine

/-- The table of reset values is the register list of the reset state. -/
theorem resetValues_eq : resetValues = registers State.reset := by decide

theorem exists_reg_of_mem_resetValues {p : Nat × Word} (h : p ∈ resetValues) :
    ∃ r : Reg, p = (r.sel, State.reset.readReg r) := by
  rw [resetValues_eq, registers_eq] at h
  obtain ⟨r, -, rfl⟩ := List.mem_map.mp h
  exact ⟨r, rfl⟩

theorem exec_rdreg_of_readReg_eq {t : State} {r : Reg} {v : Word} (h : t.readReg r = v) :
    exec (.rdreg r.sel) t = .next { t with responses := ok v :: t.responses } :=
  h ▸ exec_rdreg_next r t

/-- Settles O8: the table is what the reset state reads, and INIT is hardware reset but for the rate's two registers.
(`resetValues` itself is the table.) -/
theorem resetValuesHold : Obligations.ResetValues := by
  unfold Obligations.ResetValues
  refine ⟨fun p hp => ?_, fun s w h => ?_⟩
  · obtain ⟨r, rfl⟩ := exists_reg_of_mem_resetValues hp
    exact exec_rdreg_of_readReg_eq rfl
  · refine ⟨_, exec_init_next (badRate_of_not_refused h) s, rfl, rfl, rfl, rfl, fun p hp hsr hrecs => ?_⟩
    obtain ⟨r, rfl⟩ := exists_reg_of_mem_resetValues hp
    apply exec_rdreg_of_readReg_eq
    rw [State.readReg_respond, State.readReg_withRate (ne_of_apply_ne Reg.sel hsr) (ne_of_apply_ne Reg.sel hrecs),
      State.readReg_hardwareReset]

/-- Settles O9: the step that takes the reset input is hardware reset of the rest, which reads as the reset state. -/
theorem resetInput : Obligations.ResetInput := by
  unfold Obligations.ResetInput
  intro s rest h
  refine ⟨_, step_hardwareReset h, rfl, rfl, rfl, rfl, rfl, fun p hp => ?_⟩
  obtain ⟨r, rfl⟩ := exists_reg_of_mem_resetValues hp
  exact exec_rdreg_of_readReg_eq (State.readReg_hardwareReset _ r)

/-- Settles O42: STEP begins with the mode change, which a second one does not alter; SETOM writes OMODE alone. -/
theorem modeChangeReset : Obligations.ModeChangeReset := by
  unfold Obligations.ModeChangeReset
  refine ⟨fun n s hn hm => ?_, fun k s t h => ?_⟩
  · rw [← exec_step_modeChange hn s, State.modeChange_of_ne hm]
    rfl
  · obtain rfl := Host.Outcome.next.inj ((exec_setom_next k s).symm.trans h)
    exact ⟨rfl, rfl⟩

end Sys2Proof.Statements
